-- ==== Sys2Proof/Word.lean ====
section
/-! DEFINITION. The word types of the Ro-OS core (spec/00_scope.md R11, R12). -/

namespace Sys2Proof

/-- A U32: a register value, an address, an immediate or displacement of four bytes (00_scope R11). -/
abbrev Word := BitVec 32

/-- One byte of memory, of an instruction or of an 8-bit register (10_state R32). -/
abbrev Byte := BitVec 8

end Sys2Proof
end

