-- ==== Sys2Proof/Config.lean ====
section
/-! DEFINITION. The implementation parameters of spec/00_scope.md R10 as data, and the free values. -/

namespace Sys2Proof

/-- `P_DISP8_EA`: whether a disp8 is sign-extended in the effective address (40_execution R206). -/
inductive Disp8Ea where
  | sext
  | zext
  deriving DecidableEq, Repr

/-- `P_FLAGS8`: how the flags of 8-bit ALU operations are computed (40_execution R219). -/
inductive Flags8 where
  | u32
  | width8
  deriving DecidableEq, Repr

/-- `P_ADC_SBB`: the meaning of ADC and SBB (40_execution R226). -/
inductive AdcSbb where
  | refuse
  | ia32
  deriving DecidableEq, Repr

/-- `P_IDIV`: the rounding of the IDIV quotient (43_mul_div R314). -/
inductive IdivRounding where
  | trunc
  | floor
  deriving DecidableEq, Repr

/-- `P_L2_FILL`: what puts lines into L2 (20_memory R98). -/
inductive L2Fill where
  | none
  | l1Victim
  deriving DecidableEq, Repr

/-- `P_FRAME_FILL`: the bytes of a frame given to a new page (20_memory R92). -/
inductive FrameFill where
  | keep
  | zero
  | draw
  deriving DecidableEq, Repr

/-- The two shift operations (40_execution R223). -/
inductive ShiftOp where
  | shl
  | shr
  deriving DecidableEq, Repr

/-- What `SHIFT_CORNER` gives: a result, and a new CF and OF, `none` for a flag left unchanged
(40_execution R223). -/
structure ShiftCorner where
  result : Word
  cf : Option Bool
  of : Option Bool
  deriving DecidableEq, Repr, Inhabited

/-- The configuration `SHIFT_CORNER`: the reference table of 40_execution R223, or one of the other
admissible functions, about which nothing is known (`Config.shiftCorner k`). -/
inductive ShiftPolicy where
  | reference
  | other (k : Nat)
  deriving DecidableEq, Repr

/-- The implementation parameters (00_scope R10). A machine's parameters never change. -/
structure Params where
  /-- `MEM_SIZE` in bytes. -/
  memSize : Nat
  disp8Ea : Disp8Ea
  flags8 : Flags8
  adcSbb : AdcSbb
  idiv : IdivRounding
  shiftCorner : ShiftPolicy
  l2Fill : L2Fill
  /-- `L2_CAP`; `none` is the admissible value infinity (90_conflicts C8). -/
  l2Cap : Option Nat
  frameFill : FrameFill
  deriving DecidableEq, Repr

/-- `NFRAMES = floor(MEM_SIZE / 4096)` (00_scope R10). -/
def Params.nframes (p : Params) : Nat := p.memSize / 4096

/-- The parameters a machine can have: MEM_SIZE is a u32 (92_eei_decisions D50), and a bounded L2
holds at least one line (log 7). -/
abbrev Params.wf (p : Params) : Prop := p.memSize < 2 ^ 32 ∧ p.l2Cap ≠ some 0

/-- Free value: the n-th reading of the external clock before it is made monotonic (45_system R377,
60_exceptions R420, log 11). -/
opaque Config.clock : Nat → BitVec 64

/-- Free value: the n-th draw of RAND (45_system R378, log 12). -/
opaque Config.rand : Nat → Word

/-- Free value: byte `off` of the n-th frame filled under `P_FRAME_FILL = DRAW` (20_memory R92, log 8). -/
opaque Config.frameByte : Nat → Nat → Byte

/-- Free value: the `SHIFT_CORNER` functions other than the reference one (40_execution R223, log 6). -/
opaque Config.shiftCorner : Nat → ShiftOp → Word → Byte → ShiftCorner

end Sys2Proof
end

