-- ==== Sys2Proof/Syntax.lean ====
section
/-! DEFINITION. Registers, operands, the 56 mnemonics and `Instr`, one constructor per row of
spec/opcode_table.json (spec/30_encoding.md R150 to R153, R170, R174). -/

namespace Sys2Proof

/-- The 32-bit registers in the order of their numbers (10_state R31). -/
inductive Reg32 where
  | eax | ecx | edx | ebx | esp | ebp | esi | edi
  deriving DecidableEq, Repr

/-- The 8-bit registers in the order of their numbers (10_state R32). -/
inductive Reg8 where
  | al | cl | dl | bl | ah | ch | dh | bh
  deriving DecidableEq, Repr

/-- The access widths of the MMU; instructions use `byte` and `dword` (20_memory R84). -/
inductive Width where
  | byte | word | dword
  deriving DecidableEq, Repr

/-- The three memory operand shapes, the last one by its `dispWidth` (30_encoding R144, R170).
A disp8 is held raw (30_encoding R147). -/
inductive MemOp where
  | abs (addr : Word)
  | ind (base : Reg32)
  | disp8 (base : Reg32) (disp : Byte)
  | disp32 (base : Reg32) (disp : Word)
  deriving DecidableEq, Repr

/-- An r/m operand over the registers of the instruction's width (30_encoding R144). -/
inductive Rm (R : Type) where
  | reg (r : R)
  | mem (m : MemOp)
  deriving DecidableEq, Repr

abbrev Rm8 := Rm Reg8
abbrev Rm32 := Rm Reg32

/-- What an instruction can write: a register or memory of a width (40_execution R208). -/
inductive Place where
  | reg8 (r : Reg8)
  | reg32 (r : Reg32)
  | mem (w : Width) (m : MemOp)
  deriving DecidableEq, Repr

/-- An operand of the Instruction record (30_encoding R170). -/
inductive Operand where
  | place (p : Place)
  | imm8 (v : Byte)
  | imm32 (v : Word)
  deriving DecidableEq, Repr

def Rm8.place : Rm8 → Place
  | .reg r => .reg8 r
  | .mem m => .mem .byte m

def Rm32.place : Rm32 → Place
  | .reg r => .reg32 r
  | .mem m => .mem .dword m

/-- The closed set of 56 mnemonics (30_encoding R174). -/
inductive Mnemonic where
  | add | or | adc | sbb | and | sub | xor | cmp | inc | dec | push | pop | movsxd | jo | jno
  | jc | jnc | jz | jnz | jbe | ja | js | jns | jp | jnp | jl | jge | jle | jg | test | xchg
  | mov | nop | pushf | popf | shl | shr | ret | int | call | jmp | hlt | not | neg | mul
  | imul | div | idiv | cli | sti | cld | std | rdtsc | imul2 | rdrand | rdseed
  deriving DecidableEq, Repr

/-- One constructor per row of spec/opcode_table.json; the comment gives the row's bytes. -/
inductive Instr where
  /-- 00 ADD r/m8, r8 -/
  | addRm8R8 (rm : Rm8) (r : Reg8)
  /-- 01 ADD r/m32, r32 -/
  | addRm32R32 (rm : Rm32) (r : Reg32)
  /-- 02 ADD r8, r/m8 -/
  | addR8Rm8 (r : Reg8) (rm : Rm8)
  /-- 03 ADD r32, r/m32 -/
  | addR32Rm32 (r : Reg32) (rm : Rm32)
  /-- 08 OR r/m8, r8 -/
  | orRm8R8 (rm : Rm8) (r : Reg8)
  /-- 09 OR r/m32, r32 -/
  | orRm32R32 (rm : Rm32) (r : Reg32)
  /-- 20 AND r/m8, r8 -/
  | andRm8R8 (rm : Rm8) (r : Reg8)
  /-- 21 AND r/m32, r32 -/
  | andRm32R32 (rm : Rm32) (r : Reg32)
  /-- 28 SUB r/m8, r8 -/
  | subRm8R8 (rm : Rm8) (r : Reg8)
  /-- 29 SUB r/m32, r32 -/
  | subRm32R32 (rm : Rm32) (r : Reg32)
  /-- 30 XOR r/m8, r8 -/
  | xorRm8R8 (rm : Rm8) (r : Reg8)
  /-- 31 XOR r/m32, r32 -/
  | xorRm32R32 (rm : Rm32) (r : Reg32)
  /-- 38 CMP r/m8, r8 -/
  | cmpRm8R8 (rm : Rm8) (r : Reg8)
  /-- 39 CMP r/m32, r32 -/
  | cmpRm32R32 (rm : Rm32) (r : Reg32)
  /-- 63 MOVSXD r32, r/m32 -/
  | movsxdR32Rm32 (r : Reg32) (rm : Rm32)
  /-- 85 TEST r/m32, r32 -/
  | testRm32R32 (rm : Rm32) (r : Reg32)
  /-- 87 XCHG r/m32, r32 -/
  | xchgRm32R32 (rm : Rm32) (r : Reg32)
  /-- 88 MOV r/m8, r8 -/
  | movRm8R8 (rm : Rm8) (r : Reg8)
  /-- 89 MOV r/m32, r32 -/
  | movRm32R32 (rm : Rm32) (r : Reg32)
  /-- 25 AND EAX, imm32 -/
  | andEaxImm32 (imm : Word)
  /-- 35 XOR EAX, imm32 -/
  | xorEaxImm32 (imm : Word)
  /-- 3D CMP EAX, imm32 -/
  | cmpEaxImm32 (imm : Word)
  /-- 40 INC r32 -/
  | incR32 (r : Reg32)
  /-- 48 DEC r32 -/
  | decR32 (r : Reg32)
  /-- 50 PUSH r32 -/
  | pushR32 (r : Reg32)
  /-- 58 POP r32 -/
  | popR32 (r : Reg32)
  /-- 70 JO -/
  | joRel8 (rel : Byte)
  /-- 71 JNO -/
  | jnoRel8 (rel : Byte)
  /-- 72 JC -/
  | jcRel8 (rel : Byte)
  /-- 73 JNC -/
  | jncRel8 (rel : Byte)
  /-- 74 JZ -/
  | jzRel8 (rel : Byte)
  /-- 75 JNZ -/
  | jnzRel8 (rel : Byte)
  /-- 76 JBE -/
  | jbeRel8 (rel : Byte)
  /-- 77 JA -/
  | jaRel8 (rel : Byte)
  /-- 78 JS -/
  | jsRel8 (rel : Byte)
  /-- 79 JNS -/
  | jnsRel8 (rel : Byte)
  /-- 7A JP -/
  | jpRel8 (rel : Byte)
  /-- 7B JNP -/
  | jnpRel8 (rel : Byte)
  /-- 7C JL -/
  | jlRel8 (rel : Byte)
  /-- 7D JGE -/
  | jgeRel8 (rel : Byte)
  /-- 7E JLE -/
  | jleRel8 (rel : Byte)
  /-- 7F JG -/
  | jgRel8 (rel : Byte)
  /-- 81 00 ADD r/m32, imm32 -/
  | addRm32Imm32 (rm : Rm32) (imm : Word)
  /-- 81 08 OR r/m32, imm32 -/
  | orRm32Imm32 (rm : Rm32) (imm : Word)
  /-- 81 10 ADC r/m32, imm32 -/
  | adcRm32Imm32 (rm : Rm32) (imm : Word)
  /-- 81 18 SBB r/m32, imm32 -/
  | sbbRm32Imm32 (rm : Rm32) (imm : Word)
  /-- 81 20 AND r/m32, imm32 -/
  | andRm32Imm32 (rm : Rm32) (imm : Word)
  /-- 81 28 SUB r/m32, imm32 -/
  | subRm32Imm32 (rm : Rm32) (imm : Word)
  /-- 81 30 XOR r/m32, imm32 -/
  | xorRm32Imm32 (rm : Rm32) (imm : Word)
  /-- 81 38 CMP r/m32, imm32 -/
  | cmpRm32Imm32 (rm : Rm32) (imm : Word)
  /-- 83 00 ADD r/m32, imm8 -/
  | addRm32Imm8 (rm : Rm32) (imm : Byte)
  /-- 83 08 OR r/m32, imm8 -/
  | orRm32Imm8 (rm : Rm32) (imm : Byte)
  /-- 83 10 ADC r/m32, imm8 -/
  | adcRm32Imm8 (rm : Rm32) (imm : Byte)
  /-- 83 18 SBB r/m32, imm8 -/
  | sbbRm32Imm8 (rm : Rm32) (imm : Byte)
  /-- 83 20 AND r/m32, imm8 -/
  | andRm32Imm8 (rm : Rm32) (imm : Byte)
  /-- 83 28 SUB r/m32, imm8 -/
  | subRm32Imm8 (rm : Rm32) (imm : Byte)
  /-- 83 30 XOR r/m32, imm8 -/
  | xorRm32Imm8 (rm : Rm32) (imm : Byte)
  /-- 83 38 CMP r/m32, imm8 -/
  | cmpRm32Imm8 (rm : Rm32) (imm : Byte)
  /-- C1 20 SHL r/m32, imm8 -/
  | shlRm32Imm8 (rm : Rm32) (count : Byte)
  /-- C1 28 SHR r/m32, imm8 -/
  | shrRm32Imm8 (rm : Rm32) (count : Byte)
  /-- D1 20 SHL r/m32, 1 (implied) -/
  | shlRm32One (rm : Rm32)
  /-- D1 28 SHR r/m32, 1 (implied) -/
  | shrRm32One (rm : Rm32)
  /-- F7 00 TEST r/m32, imm32 -/
  | testRm32Imm32 (rm : Rm32) (imm : Word)
  /-- F7 08 TEST r/m32, imm32 -/
  | testRm32Imm32Alt (rm : Rm32) (imm : Word)
  /-- F7 10 NOT r/m32 -/
  | notRm32 (rm : Rm32)
  /-- F7 18 NEG r/m32 -/
  | negRm32 (rm : Rm32)
  /-- F7 20 MUL r/m32 -/
  | mulRm32 (rm : Rm32)
  /-- F7 28 IMUL r/m32 -/
  | imulRm32 (rm : Rm32)
  /-- F7 30 DIV r/m32 -/
  | divRm32 (rm : Rm32)
  /-- F7 38 IDIV r/m32 -/
  | idivRm32 (rm : Rm32)
  /-- 90 NOP -/
  | nop
  /-- 9C PUSHF -/
  | pushf
  /-- 9D POPF -/
  | popf
  /-- C3 RET -/
  | ret
  /-- F4 HLT -/
  | hlt
  /-- FA CLI -/
  | cli
  /-- FB STI -/
  | sti
  /-- FC CLD -/
  | cld
  /-- FD STD -/
  | std
  /-- A3 MOV [addr32], EAX -/
  | movAddr32Eax (addr : Word)
  /-- B0 MOV r8, imm8 -/
  | movR8Imm8 (r : Reg8) (imm : Byte)
  /-- B8 MOV r32, imm32 -/
  | movR32Imm32 (r : Reg32) (imm : Word)
  /-- CD INT -/
  | intImm8 (vector : Byte)
  /-- E8 CALL -/
  | callTarget32 (target : Word)
  /-- E9 JMP -/
  | jmpTarget32 (target : Word)
  /-- EB JMP -/
  | jmpRel8 (rel : Byte)
  /-- 0F 31 RDTSC -/
  | rdtsc
  /-- 0F 8C JL -/
  | jlTarget32 (target : Word)
  /-- 0F AF IMUL2 r32, r/m32 -/
  | imul2R32Rm32 (r : Reg32) (rm : Rm32)
  /-- 0F C7 30 RDRAND r/m32 -/
  | rdrandRm32 (rm : Rm32)
  /-- 0F C7 38 RDSEED r/m32 -/
  | rdseedRm32 (rm : Rm32)
  deriving DecidableEq, Repr

end Sys2Proof
end

