-- ==== Sys2Proof/WellFormed.lean ====
section
/-! DEFINITION. The check an instruction must pass to have an encoding (spec/30_encoding.md R144). -/

namespace Sys2Proof

/-- `[EBP]` without a displacement has no encoding: mod 00 with rm 5 is the MEMORY operand
(30_encoding R144). -/
abbrev MemOp.wf : MemOp → Prop
  | .ind base => base ≠ .ebp
  | .abs _ => True
  | .disp8 _ _ => True
  | .disp32 _ _ => True

abbrev Rm.wf {R : Type} : Rm R → Prop
  | .reg _ => True
  | .mem m => m.wf

/-- Every other field of an instruction ranges over exactly what its encoding holds, so the r/m operand
is all there is to check. -/
abbrev Instr.wf : Instr → Prop
  | .addRm8R8 rm _ => rm.wf
  | .addRm32R32 rm _ => rm.wf
  | .addR8Rm8 _ rm => rm.wf
  | .addR32Rm32 _ rm => rm.wf
  | .orRm8R8 rm _ => rm.wf
  | .orRm32R32 rm _ => rm.wf
  | .andRm8R8 rm _ => rm.wf
  | .andRm32R32 rm _ => rm.wf
  | .subRm8R8 rm _ => rm.wf
  | .subRm32R32 rm _ => rm.wf
  | .xorRm8R8 rm _ => rm.wf
  | .xorRm32R32 rm _ => rm.wf
  | .cmpRm8R8 rm _ => rm.wf
  | .cmpRm32R32 rm _ => rm.wf
  | .movsxdR32Rm32 _ rm => rm.wf
  | .testRm32R32 rm _ => rm.wf
  | .xchgRm32R32 rm _ => rm.wf
  | .movRm8R8 rm _ => rm.wf
  | .movRm32R32 rm _ => rm.wf
  | .andEaxImm32 _ => True
  | .xorEaxImm32 _ => True
  | .cmpEaxImm32 _ => True
  | .incR32 _ => True
  | .decR32 _ => True
  | .pushR32 _ => True
  | .popR32 _ => True
  | .joRel8 _ => True
  | .jnoRel8 _ => True
  | .jcRel8 _ => True
  | .jncRel8 _ => True
  | .jzRel8 _ => True
  | .jnzRel8 _ => True
  | .jbeRel8 _ => True
  | .jaRel8 _ => True
  | .jsRel8 _ => True
  | .jnsRel8 _ => True
  | .jpRel8 _ => True
  | .jnpRel8 _ => True
  | .jlRel8 _ => True
  | .jgeRel8 _ => True
  | .jleRel8 _ => True
  | .jgRel8 _ => True
  | .addRm32Imm32 rm _ => rm.wf
  | .orRm32Imm32 rm _ => rm.wf
  | .adcRm32Imm32 rm _ => rm.wf
  | .sbbRm32Imm32 rm _ => rm.wf
  | .andRm32Imm32 rm _ => rm.wf
  | .subRm32Imm32 rm _ => rm.wf
  | .xorRm32Imm32 rm _ => rm.wf
  | .cmpRm32Imm32 rm _ => rm.wf
  | .addRm32Imm8 rm _ => rm.wf
  | .orRm32Imm8 rm _ => rm.wf
  | .adcRm32Imm8 rm _ => rm.wf
  | .sbbRm32Imm8 rm _ => rm.wf
  | .andRm32Imm8 rm _ => rm.wf
  | .subRm32Imm8 rm _ => rm.wf
  | .xorRm32Imm8 rm _ => rm.wf
  | .cmpRm32Imm8 rm _ => rm.wf
  | .shlRm32Imm8 rm _ => rm.wf
  | .shrRm32Imm8 rm _ => rm.wf
  | .shlRm32One rm => rm.wf
  | .shrRm32One rm => rm.wf
  | .testRm32Imm32 rm _ => rm.wf
  | .testRm32Imm32Alt rm _ => rm.wf
  | .notRm32 rm => rm.wf
  | .negRm32 rm => rm.wf
  | .mulRm32 rm => rm.wf
  | .imulRm32 rm => rm.wf
  | .divRm32 rm => rm.wf
  | .idivRm32 rm => rm.wf
  | .nop => True
  | .pushf => True
  | .popf => True
  | .ret => True
  | .hlt => True
  | .cli => True
  | .sti => True
  | .cld => True
  | .std => True
  | .movAddr32Eax _ => True
  | .movR8Imm8 _ _ => True
  | .movR32Imm32 _ _ => True
  | .intImm8 _ => True
  | .callTarget32 _ => True
  | .jmpTarget32 _ => True
  | .jmpRel8 _ => True
  | .rdtsc => True
  | .jlTarget32 _ => True
  | .imul2R32Rm32 _ rm => rm.wf
  | .rdrandRm32 rm => rm.wf
  | .rdseedRm32 rm => rm.wf

end Sys2Proof
end

