-- ==== Sys2Proof/Decode.lean ====
section
/-! DEFINITION. The Decoder (spec/30_encoding.md R140 to R184), the Instruction record (R170 to R174),
and the encoder, all written from the encoding tables of R144 and R150 to R153. -/

namespace Sys2Proof

/-! ## Byte order (20_memory R81) -/

/-- The number whose little-endian bytes are `bs`. -/
def natOfBytes : List Byte → Nat
  | [] => 0
  | b :: bs => b.toNat + 256 * natOfBytes bs

/-- A little-endian multi-byte value as a U32 (20_memory R81, R97). -/
def wordOfBytes (bs : List Byte) : Word := BitVec.ofNat 32 (natOfBytes bs)

/-- The low `n` bytes of a value, in address order (20_memory R101). -/
def wordBytes : Nat → Word → List Byte
  | 0, _ => []
  | n + 1, v => v.setWidth 8 :: wordBytes n (v >>> 8)

/-- The number of bytes of a width (20_memory R84). -/
def Width.bytes : Width → Nat
  | .byte => 1
  | .word => 2
  | .dword => 4

/-! ## Register numbers (10_state R31, R32, log 13) -/

def Reg32.num : Reg32 → BitVec 3
  | .eax => 0 | .ecx => 1 | .edx => 2 | .ebx => 3 | .esp => 4 | .ebp => 5 | .esi => 6 | .edi => 7

def Reg32.ofNum (n : BitVec 3) : Reg32 :=
  match n.toNat with
  | 0 => .eax | 1 => .ecx | 2 => .edx | 3 => .ebx | 4 => .esp | 5 => .ebp | 6 => .esi | _ => .edi

def Reg8.num : Reg8 → BitVec 3
  | .al => 0 | .cl => 1 | .dl => 2 | .bl => 3 | .ah => 4 | .ch => 5 | .dh => 6 | .bh => 7

def Reg8.ofNum (n : BitVec 3) : Reg8 :=
  match n.toNat with
  | 0 => .al | 1 => .cl | 2 => .dl | 3 => .bl | 4 => .ah | 5 => .ch | 6 => .dh | _ => .bh

/-! ## The ModR/M byte (30_encoding R143) -/

def modrmMod (m : Byte) : BitVec 2 := m.extractLsb' 6 2
def modrmReg (m : Byte) : BitVec 3 := m.extractLsb' 3 3
def modrmRm (m : Byte) : BitVec 3 := m.extractLsb' 0 3
def modrmByte (mod : BitVec 2) (reg rm : BitVec 3) : Byte := mod ++ reg ++ rm

/-! ## Decoding as a sequence of reads -/

/-- Why an encoding is illegal, with the bytes that decide it (30_encoding R160, R162, log 15). -/
inductive DecodeReject where
  /-- R160 (a): the first byte is not in the opcode map. -/
  | unknownOpcode (op : Byte)
  /-- R160 (b): 0x0F followed by a byte that is not in the two-byte map. -/
  | unknownTwoByte (op2 : Byte)
  /-- R160 (c): a group sub-operation that is not defined; `op2` is the second opcode byte of 0x0F 0xC7. -/
  | invalidGroup (op : Byte) (op2 : Option Byte) (modrm : Byte)
  deriving DecidableEq, Repr

/-- The Decoder as the reads it makes, in order: each node reads the next byte or the next four bytes
of the instruction and goes on with what it read (30_encoding R180, R183). -/
inductive Fetch where
  | done (i : Instr)
  | reject (e : DecodeReject)
  | byte (k : Byte → Fetch)
  | dword (k : Word → Fetch)

/-- The r/m operand of a ModR/M byte that has been read (30_encoding R144, R181). -/
def modrmOperand {R : Type} (ofNum : BitVec 3 → R) (m : Byte) (k : Rm R → Fetch) : Fetch :=
  match (modrmMod m).toNat with
  | 0 =>
    if modrmRm m = 5 then .dword fun a => k (.mem (.abs a))
    else k (.mem (.ind (Reg32.ofNum (modrmRm m))))
  | 1 => .byte fun d => k (.mem (.disp8 (Reg32.ofNum (modrmRm m)) d))
  | 2 => .dword fun d => k (.mem (.disp32 (Reg32.ofNum (modrmRm m)) d))
  | _ => k (.reg (ofNum (modrmRm m)))

/-- ModR/M at width 1: the r/m operand and the reg operand (30_encoding R146, R181). -/
def modrm8 (k : Rm8 → Reg8 → Fetch) : Fetch :=
  .byte fun m => modrmOperand Reg8.ofNum m fun rm => k rm (Reg8.ofNum (modrmReg m))

/-- ModR/M at width 4. -/
def modrm32 (k : Rm32 → Reg32 → Fetch) : Fetch :=
  .byte fun m => modrmOperand Reg32.ofNum m fun rm => k rm (Reg32.ofNum (modrmReg m))

/-- ModR/M of a group opcode: the reg field is the sub-operation (30_encoding R146, R152). -/
def modrmGroup (k : Rm32 → BitVec 3 → Fetch) : Fetch :=
  .byte fun m => modrmOperand Reg32.ofNum m fun rm => k rm (modrmReg m)

/-- 0x81 /n (30_encoding R152). -/
def group81 (sub : BitVec 3) (rm : Rm32) (imm : Word) : Instr :=
  match sub.toNat with
  | 0 => .addRm32Imm32 rm imm
  | 1 => .orRm32Imm32 rm imm
  | 2 => .adcRm32Imm32 rm imm
  | 3 => .sbbRm32Imm32 rm imm
  | 4 => .andRm32Imm32 rm imm
  | 5 => .subRm32Imm32 rm imm
  | 6 => .xorRm32Imm32 rm imm
  | _ => .cmpRm32Imm32 rm imm

/-- 0x83 /n (30_encoding R152). -/
def group83 (sub : BitVec 3) (rm : Rm32) (imm : Byte) : Instr :=
  match sub.toNat with
  | 0 => .addRm32Imm8 rm imm
  | 1 => .orRm32Imm8 rm imm
  | 2 => .adcRm32Imm8 rm imm
  | 3 => .sbbRm32Imm8 rm imm
  | 4 => .andRm32Imm8 rm imm
  | 5 => .subRm32Imm8 rm imm
  | 6 => .xorRm32Imm8 rm imm
  | _ => .cmpRm32Imm8 rm imm

/-- 0xF7 /n: only TEST has an immediate (30_encoding R152, R180). -/
def groupF7 (sub : BitVec 3) (rm : Rm32) : Fetch :=
  match sub.toNat with
  | 0 => .dword fun imm => .done (.testRm32Imm32 rm imm)
  | 1 => .dword fun imm => .done (.testRm32Imm32Alt rm imm)
  | 2 => .done (.notRm32 rm)
  | 3 => .done (.negRm32 rm)
  | 4 => .done (.mulRm32 rm)
  | 5 => .done (.imulRm32 rm)
  | 6 => .done (.divRm32 rm)
  | _ => .done (.idivRm32 rm)

/-- 0xC1 and 0xD1: the sub-operation is checked on the ModR/M byte, before any later byte is read
(30_encoding R182). -/
def shiftGroup (op : Byte) (shl shr : Rm32 → Fetch) : Fetch :=
  .byte fun m =>
    match (modrmReg m).toNat with
    | 4 => modrmOperand Reg32.ofNum m shl
    | 5 => modrmOperand Reg32.ofNum m shr
    | _ => .reject (.invalidGroup op none m)

/-- 0x0F 0xC7: the sub-operation is checked as in `shiftGroup` (30_encoding R182). -/
def group0FC7 : Fetch :=
  .byte fun m =>
    match (modrmReg m).toNat with
    | 6 => modrmOperand Reg32.ofNum m fun rm => .done (.rdrandRm32 rm)
    | 7 => modrmOperand Reg32.ofNum m fun rm => .done (.rdseedRm32 rm)
    | _ => .reject (.invalidGroup 0x0F (some 0xC7) m)

/-- The two-byte opcode map (30_encoding R151). -/
def decodeTwoByte (op2 : Byte) : Fetch :=
  match op2.toNat with
  | 0x31 => .done .rdtsc
  | 0x8C => .dword fun t => .done (.jlTarget32 t)
  | 0xAF => modrm32 fun rm r => .done (.imul2R32Rm32 r rm)
  | 0xC7 => group0FC7
  | _ => .reject (.unknownTwoByte op2)

/-- The sixteen short conditional jumps (30_encoding R153). -/
def jccRel8 (cc : BitVec 4) (rel : Byte) : Instr :=
  match cc.toNat with
  | 0x0 => .joRel8 rel
  | 0x1 => .jnoRel8 rel
  | 0x2 => .jcRel8 rel
  | 0x3 => .jncRel8 rel
  | 0x4 => .jzRel8 rel
  | 0x5 => .jnzRel8 rel
  | 0x6 => .jbeRel8 rel
  | 0x7 => .jaRel8 rel
  | 0x8 => .jsRel8 rel
  | 0x9 => .jnsRel8 rel
  | 0xA => .jpRel8 rel
  | 0xB => .jnpRel8 rel
  | 0xC => .jlRel8 rel
  | 0xD => .jgeRel8 rel
  | 0xE => .jleRel8 rel
  | _ => .jgRel8 rel

/-- The one-byte opcode map (30_encoding R150). The forms that hold a register number in the low three
bits of the opcode, and 0x70+cc, come first (30_encoding R142). -/
def decodeOneByte (op : Byte) : Fetch :=
  match op.toNat / 8 with
  | 0x08 => .done (.incR32 (Reg32.ofNum (op.extractLsb' 0 3)))
  | 0x09 => .done (.decR32 (Reg32.ofNum (op.extractLsb' 0 3)))
  | 0x0A => .done (.pushR32 (Reg32.ofNum (op.extractLsb' 0 3)))
  | 0x0B => .done (.popR32 (Reg32.ofNum (op.extractLsb' 0 3)))
  | 0x0E => .byte fun rel => .done (jccRel8 (op.extractLsb' 0 4) rel)
  | 0x0F => .byte fun rel => .done (jccRel8 (op.extractLsb' 0 4) rel)
  | 0x16 => .byte fun imm => .done (.movR8Imm8 (Reg8.ofNum (op.extractLsb' 0 3)) imm)
  | 0x17 => .dword fun imm => .done (.movR32Imm32 (Reg32.ofNum (op.extractLsb' 0 3)) imm)
  | _ =>
    match op.toNat with
    | 0x00 => modrm8 fun rm r => .done (.addRm8R8 rm r)
    | 0x01 => modrm32 fun rm r => .done (.addRm32R32 rm r)
    | 0x02 => modrm8 fun rm r => .done (.addR8Rm8 r rm)
    | 0x03 => modrm32 fun rm r => .done (.addR32Rm32 r rm)
    | 0x08 => modrm8 fun rm r => .done (.orRm8R8 rm r)
    | 0x09 => modrm32 fun rm r => .done (.orRm32R32 rm r)
    | 0x0F => .byte decodeTwoByte
    | 0x20 => modrm8 fun rm r => .done (.andRm8R8 rm r)
    | 0x21 => modrm32 fun rm r => .done (.andRm32R32 rm r)
    | 0x25 => .dword fun imm => .done (.andEaxImm32 imm)
    | 0x28 => modrm8 fun rm r => .done (.subRm8R8 rm r)
    | 0x29 => modrm32 fun rm r => .done (.subRm32R32 rm r)
    | 0x30 => modrm8 fun rm r => .done (.xorRm8R8 rm r)
    | 0x31 => modrm32 fun rm r => .done (.xorRm32R32 rm r)
    | 0x35 => .dword fun imm => .done (.xorEaxImm32 imm)
    | 0x38 => modrm8 fun rm r => .done (.cmpRm8R8 rm r)
    | 0x39 => modrm32 fun rm r => .done (.cmpRm32R32 rm r)
    | 0x3D => .dword fun imm => .done (.cmpEaxImm32 imm)
    | 0x63 => modrm32 fun rm r => .done (.movsxdR32Rm32 r rm)
    | 0x81 => modrmGroup fun rm sub => .dword fun imm => .done (group81 sub rm imm)
    | 0x83 => modrmGroup fun rm sub => .byte fun imm => .done (group83 sub rm imm)
    | 0x85 => modrm32 fun rm r => .done (.testRm32R32 rm r)
    | 0x87 => modrm32 fun rm r => .done (.xchgRm32R32 rm r)
    | 0x88 => modrm8 fun rm r => .done (.movRm8R8 rm r)
    | 0x89 => modrm32 fun rm r => .done (.movRm32R32 rm r)
    | 0x90 => .done .nop
    | 0x9C => .done .pushf
    | 0x9D => .done .popf
    | 0xA3 => .dword fun a => .done (.movAddr32Eax a)
    | 0xC1 => shiftGroup op (fun rm => .byte fun c => .done (.shlRm32Imm8 rm c))
        (fun rm => .byte fun c => .done (.shrRm32Imm8 rm c))
    | 0xC3 => .done .ret
    | 0xCD => .byte fun v => .done (.intImm8 v)
    | 0xD1 => shiftGroup op (fun rm => .done (.shlRm32One rm)) (fun rm => .done (.shrRm32One rm))
    | 0xE8 => .dword fun t => .done (.callTarget32 t)
    | 0xE9 => .dword fun t => .done (.jmpTarget32 t)
    | 0xEB => .byte fun rel => .done (.jmpRel8 rel)
    | 0xF4 => .done .hlt
    | 0xF7 => modrmGroup fun rm sub => groupF7 sub rm
    | 0xFA => .done .cli
    | 0xFB => .done .sti
    | 0xFC => .done .cld
    | 0xFD => .done .std
    | _ => .reject (.unknownOpcode op)

/-- The whole decoder (30_encoding R180). -/
def decoder : Fetch := .byte decodeOneByte

/-! ## Decoding a list of bytes -/

/-- What decoding a list of bytes gives: an instruction and the bytes after it, a rejection, or the
list was too short. -/
inductive Decoded where
  | instr (i : Instr) (rest : List Byte)
  | reject (e : DecodeReject)
  | truncated
  deriving DecidableEq, Repr

/-- The reads of a decode taken from a list of bytes. -/
def Fetch.onBytes : Fetch → List Byte → Decoded
  | .done i, bs => .instr i bs
  | .reject e, _ => .reject e
  | .byte k, b :: bs => (k b).onBytes bs
  | .byte _, [] => .truncated
  | .dword k, b0 :: b1 :: b2 :: b3 :: bs => (k (wordOfBytes [b0, b1, b2, b3])).onBytes bs
  | .dword _, _ => .truncated

/-- Total on any bytes; rejects by name. -/
def decode (bs : List Byte) : Decoded := decoder.onBytes bs

/-! ## The encoder -/

/-- `mod`, `rm` and the displacement bytes of a memory operand (30_encoding R144). -/
def MemOp.encoding : MemOp → BitVec 2 × BitVec 3 × List Byte
  | .abs a => (0, 5, wordBytes 4 a)
  | .ind b => (0, b.num, [])
  | .disp8 b d => (1, b.num, [d])
  | .disp32 b d => (2, b.num, wordBytes 4 d)

/-- The ModR/M byte and the displacement of an r/m operand, with the given reg field. -/
def encodeRm {R : Type} (num : R → BitVec 3) (reg : BitVec 3) : Rm R → List Byte
  | .reg r => [modrmByte 3 reg (num r)]
  | .mem m => modrmByte m.encoding.1 reg m.encoding.2.1 :: m.encoding.2.2

def encodeRm8 (rm : Rm8) (r : Reg8) : List Byte := encodeRm Reg8.num r.num rm
def encodeRm32 (rm : Rm32) (r : Reg32) : List Byte := encodeRm Reg32.num r.num rm
/-- The r/m operand of a group opcode with sub-operation `sub` (30_encoding R152). -/
def encodeGroup (sub : BitVec 3) (rm : Rm32) : List Byte := encodeRm Reg32.num sub rm

/-- An opcode byte that holds a register number in its low three bits (30_encoding R142). -/
def opcodePlus (base : Byte) (n : BitVec 3) : Byte := base + n.setWidth 8

/-- The bytes of a well-formed instruction, by the rows of 30_encoding R150 and R151. -/
def encode : Instr → List Byte
  | .addRm8R8 rm r => [0x00] ++ encodeRm8 rm r
  | .addRm32R32 rm r => [0x01] ++ encodeRm32 rm r
  | .addR8Rm8 r rm => [0x02] ++ encodeRm8 rm r
  | .addR32Rm32 r rm => [0x03] ++ encodeRm32 rm r
  | .orRm8R8 rm r => [0x08] ++ encodeRm8 rm r
  | .orRm32R32 rm r => [0x09] ++ encodeRm32 rm r
  | .andRm8R8 rm r => [0x20] ++ encodeRm8 rm r
  | .andRm32R32 rm r => [0x21] ++ encodeRm32 rm r
  | .subRm8R8 rm r => [0x28] ++ encodeRm8 rm r
  | .subRm32R32 rm r => [0x29] ++ encodeRm32 rm r
  | .xorRm8R8 rm r => [0x30] ++ encodeRm8 rm r
  | .xorRm32R32 rm r => [0x31] ++ encodeRm32 rm r
  | .cmpRm8R8 rm r => [0x38] ++ encodeRm8 rm r
  | .cmpRm32R32 rm r => [0x39] ++ encodeRm32 rm r
  | .movsxdR32Rm32 r rm => [0x63] ++ encodeRm32 rm r
  | .testRm32R32 rm r => [0x85] ++ encodeRm32 rm r
  | .xchgRm32R32 rm r => [0x87] ++ encodeRm32 rm r
  | .movRm8R8 rm r => [0x88] ++ encodeRm8 rm r
  | .movRm32R32 rm r => [0x89] ++ encodeRm32 rm r
  | .andEaxImm32 imm => [0x25] ++ wordBytes 4 imm
  | .xorEaxImm32 imm => [0x35] ++ wordBytes 4 imm
  | .cmpEaxImm32 imm => [0x3D] ++ wordBytes 4 imm
  | .incR32 r => [opcodePlus 0x40 r.num]
  | .decR32 r => [opcodePlus 0x48 r.num]
  | .pushR32 r => [opcodePlus 0x50 r.num]
  | .popR32 r => [opcodePlus 0x58 r.num]
  | .joRel8 rel => [0x70] ++ [rel]
  | .jnoRel8 rel => [0x71] ++ [rel]
  | .jcRel8 rel => [0x72] ++ [rel]
  | .jncRel8 rel => [0x73] ++ [rel]
  | .jzRel8 rel => [0x74] ++ [rel]
  | .jnzRel8 rel => [0x75] ++ [rel]
  | .jbeRel8 rel => [0x76] ++ [rel]
  | .jaRel8 rel => [0x77] ++ [rel]
  | .jsRel8 rel => [0x78] ++ [rel]
  | .jnsRel8 rel => [0x79] ++ [rel]
  | .jpRel8 rel => [0x7A] ++ [rel]
  | .jnpRel8 rel => [0x7B] ++ [rel]
  | .jlRel8 rel => [0x7C] ++ [rel]
  | .jgeRel8 rel => [0x7D] ++ [rel]
  | .jleRel8 rel => [0x7E] ++ [rel]
  | .jgRel8 rel => [0x7F] ++ [rel]
  | .addRm32Imm32 rm imm => [0x81] ++ encodeGroup 0 rm ++ wordBytes 4 imm
  | .orRm32Imm32 rm imm => [0x81] ++ encodeGroup 1 rm ++ wordBytes 4 imm
  | .adcRm32Imm32 rm imm => [0x81] ++ encodeGroup 2 rm ++ wordBytes 4 imm
  | .sbbRm32Imm32 rm imm => [0x81] ++ encodeGroup 3 rm ++ wordBytes 4 imm
  | .andRm32Imm32 rm imm => [0x81] ++ encodeGroup 4 rm ++ wordBytes 4 imm
  | .subRm32Imm32 rm imm => [0x81] ++ encodeGroup 5 rm ++ wordBytes 4 imm
  | .xorRm32Imm32 rm imm => [0x81] ++ encodeGroup 6 rm ++ wordBytes 4 imm
  | .cmpRm32Imm32 rm imm => [0x81] ++ encodeGroup 7 rm ++ wordBytes 4 imm
  | .addRm32Imm8 rm imm => [0x83] ++ encodeGroup 0 rm ++ [imm]
  | .orRm32Imm8 rm imm => [0x83] ++ encodeGroup 1 rm ++ [imm]
  | .adcRm32Imm8 rm imm => [0x83] ++ encodeGroup 2 rm ++ [imm]
  | .sbbRm32Imm8 rm imm => [0x83] ++ encodeGroup 3 rm ++ [imm]
  | .andRm32Imm8 rm imm => [0x83] ++ encodeGroup 4 rm ++ [imm]
  | .subRm32Imm8 rm imm => [0x83] ++ encodeGroup 5 rm ++ [imm]
  | .xorRm32Imm8 rm imm => [0x83] ++ encodeGroup 6 rm ++ [imm]
  | .cmpRm32Imm8 rm imm => [0x83] ++ encodeGroup 7 rm ++ [imm]
  | .shlRm32Imm8 rm count => [0xC1] ++ encodeGroup 4 rm ++ [count]
  | .shrRm32Imm8 rm count => [0xC1] ++ encodeGroup 5 rm ++ [count]
  | .shlRm32One rm => [0xD1] ++ encodeGroup 4 rm
  | .shrRm32One rm => [0xD1] ++ encodeGroup 5 rm
  | .testRm32Imm32 rm imm => [0xF7] ++ encodeGroup 0 rm ++ wordBytes 4 imm
  | .testRm32Imm32Alt rm imm => [0xF7] ++ encodeGroup 1 rm ++ wordBytes 4 imm
  | .notRm32 rm => [0xF7] ++ encodeGroup 2 rm
  | .negRm32 rm => [0xF7] ++ encodeGroup 3 rm
  | .mulRm32 rm => [0xF7] ++ encodeGroup 4 rm
  | .imulRm32 rm => [0xF7] ++ encodeGroup 5 rm
  | .divRm32 rm => [0xF7] ++ encodeGroup 6 rm
  | .idivRm32 rm => [0xF7] ++ encodeGroup 7 rm
  | .nop => [0x90]
  | .pushf => [0x9C]
  | .popf => [0x9D]
  | .ret => [0xC3]
  | .hlt => [0xF4]
  | .cli => [0xFA]
  | .sti => [0xFB]
  | .cld => [0xFC]
  | .std => [0xFD]
  | .movAddr32Eax addr => [0xA3] ++ wordBytes 4 addr
  | .movR8Imm8 r imm => [opcodePlus 0xB0 r.num] ++ [imm]
  | .movR32Imm32 r imm => [opcodePlus 0xB8 r.num] ++ wordBytes 4 imm
  | .intImm8 vector => [0xCD] ++ [vector]
  | .callTarget32 target => [0xE8] ++ wordBytes 4 target
  | .jmpTarget32 target => [0xE9] ++ wordBytes 4 target
  | .jmpRel8 rel => [0xEB] ++ [rel]
  | .rdtsc => [0x0F, 0x31]
  | .jlTarget32 target => [0x0F, 0x8C] ++ wordBytes 4 target
  | .imul2R32Rm32 r rm => [0x0F, 0xAF] ++ encodeRm32 rm r
  | .rdrandRm32 rm => [0x0F, 0xC7] ++ encodeGroup 6 rm
  | .rdseedRm32 rm => [0x0F, 0xC7] ++ encodeGroup 7 rm

/-! ## The Instruction record (30_encoding R170 to R174) -/

/-- `d`, the displacement bytes of an r/m operand (30_encoding R144). -/
def Rm.dispBytes {R : Type} : Rm R → Nat
  | .reg _ => 0
  | .mem (.abs _) => 4
  | .mem (.ind _) => 0
  | .mem (.disp8 _ _) => 1
  | .mem (.disp32 _ _) => 4

/-- The instruction's length in bytes: the Len column of 30_encoding R150 and R151 (R172). -/
def Instr.size : Instr → Nat
  | .addRm8R8 rm _ => 2 + rm.dispBytes
  | .addRm32R32 rm _ => 2 + rm.dispBytes
  | .addR8Rm8 _ rm => 2 + rm.dispBytes
  | .addR32Rm32 _ rm => 2 + rm.dispBytes
  | .orRm8R8 rm _ => 2 + rm.dispBytes
  | .orRm32R32 rm _ => 2 + rm.dispBytes
  | .andRm8R8 rm _ => 2 + rm.dispBytes
  | .andRm32R32 rm _ => 2 + rm.dispBytes
  | .subRm8R8 rm _ => 2 + rm.dispBytes
  | .subRm32R32 rm _ => 2 + rm.dispBytes
  | .xorRm8R8 rm _ => 2 + rm.dispBytes
  | .xorRm32R32 rm _ => 2 + rm.dispBytes
  | .cmpRm8R8 rm _ => 2 + rm.dispBytes
  | .cmpRm32R32 rm _ => 2 + rm.dispBytes
  | .movsxdR32Rm32 _ rm => 2 + rm.dispBytes
  | .testRm32R32 rm _ => 2 + rm.dispBytes
  | .xchgRm32R32 rm _ => 2 + rm.dispBytes
  | .movRm8R8 rm _ => 2 + rm.dispBytes
  | .movRm32R32 rm _ => 2 + rm.dispBytes
  | .andEaxImm32 _ => 5
  | .xorEaxImm32 _ => 5
  | .cmpEaxImm32 _ => 5
  | .incR32 _ => 1
  | .decR32 _ => 1
  | .pushR32 _ => 1
  | .popR32 _ => 1
  | .joRel8 _ => 2
  | .jnoRel8 _ => 2
  | .jcRel8 _ => 2
  | .jncRel8 _ => 2
  | .jzRel8 _ => 2
  | .jnzRel8 _ => 2
  | .jbeRel8 _ => 2
  | .jaRel8 _ => 2
  | .jsRel8 _ => 2
  | .jnsRel8 _ => 2
  | .jpRel8 _ => 2
  | .jnpRel8 _ => 2
  | .jlRel8 _ => 2
  | .jgeRel8 _ => 2
  | .jleRel8 _ => 2
  | .jgRel8 _ => 2
  | .addRm32Imm32 rm _ => 6 + rm.dispBytes
  | .orRm32Imm32 rm _ => 6 + rm.dispBytes
  | .adcRm32Imm32 rm _ => 6 + rm.dispBytes
  | .sbbRm32Imm32 rm _ => 6 + rm.dispBytes
  | .andRm32Imm32 rm _ => 6 + rm.dispBytes
  | .subRm32Imm32 rm _ => 6 + rm.dispBytes
  | .xorRm32Imm32 rm _ => 6 + rm.dispBytes
  | .cmpRm32Imm32 rm _ => 6 + rm.dispBytes
  | .addRm32Imm8 rm _ => 3 + rm.dispBytes
  | .orRm32Imm8 rm _ => 3 + rm.dispBytes
  | .adcRm32Imm8 rm _ => 3 + rm.dispBytes
  | .sbbRm32Imm8 rm _ => 3 + rm.dispBytes
  | .andRm32Imm8 rm _ => 3 + rm.dispBytes
  | .subRm32Imm8 rm _ => 3 + rm.dispBytes
  | .xorRm32Imm8 rm _ => 3 + rm.dispBytes
  | .cmpRm32Imm8 rm _ => 3 + rm.dispBytes
  | .shlRm32Imm8 rm _ => 3 + rm.dispBytes
  | .shrRm32Imm8 rm _ => 3 + rm.dispBytes
  | .shlRm32One rm => 2 + rm.dispBytes
  | .shrRm32One rm => 2 + rm.dispBytes
  | .testRm32Imm32 rm _ => 6 + rm.dispBytes
  | .testRm32Imm32Alt rm _ => 6 + rm.dispBytes
  | .notRm32 rm => 2 + rm.dispBytes
  | .negRm32 rm => 2 + rm.dispBytes
  | .mulRm32 rm => 2 + rm.dispBytes
  | .imulRm32 rm => 2 + rm.dispBytes
  | .divRm32 rm => 2 + rm.dispBytes
  | .idivRm32 rm => 2 + rm.dispBytes
  | .nop => 1
  | .pushf => 1
  | .popf => 1
  | .ret => 1
  | .hlt => 1
  | .cli => 1
  | .sti => 1
  | .cld => 1
  | .std => 1
  | .movAddr32Eax _ => 5
  | .movR8Imm8 _ _ => 2
  | .movR32Imm32 _ _ => 5
  | .intImm8 _ => 2
  | .callTarget32 _ => 5
  | .jmpTarget32 _ => 5
  | .jmpRel8 _ => 2
  | .rdtsc => 2
  | .jlTarget32 _ => 6
  | .imul2R32Rm32 _ rm => 3 + rm.dispBytes
  | .rdrandRm32 rm => 3 + rm.dispBytes
  | .rdseedRm32 rm => 3 + rm.dispBytes

/-- The mnemonic (30_encoding R174); JL and JMP each come from two rows. -/
def Instr.mnemonic : Instr → Mnemonic
  | .addRm8R8 _ _ => .add
  | .addRm32R32 _ _ => .add
  | .addR8Rm8 _ _ => .add
  | .addR32Rm32 _ _ => .add
  | .orRm8R8 _ _ => .or
  | .orRm32R32 _ _ => .or
  | .andRm8R8 _ _ => .and
  | .andRm32R32 _ _ => .and
  | .subRm8R8 _ _ => .sub
  | .subRm32R32 _ _ => .sub
  | .xorRm8R8 _ _ => .xor
  | .xorRm32R32 _ _ => .xor
  | .cmpRm8R8 _ _ => .cmp
  | .cmpRm32R32 _ _ => .cmp
  | .movsxdR32Rm32 _ _ => .movsxd
  | .testRm32R32 _ _ => .test
  | .xchgRm32R32 _ _ => .xchg
  | .movRm8R8 _ _ => .mov
  | .movRm32R32 _ _ => .mov
  | .andEaxImm32 _ => .and
  | .xorEaxImm32 _ => .xor
  | .cmpEaxImm32 _ => .cmp
  | .incR32 _ => .inc
  | .decR32 _ => .dec
  | .pushR32 _ => .push
  | .popR32 _ => .pop
  | .joRel8 _ => .jo
  | .jnoRel8 _ => .jno
  | .jcRel8 _ => .jc
  | .jncRel8 _ => .jnc
  | .jzRel8 _ => .jz
  | .jnzRel8 _ => .jnz
  | .jbeRel8 _ => .jbe
  | .jaRel8 _ => .ja
  | .jsRel8 _ => .js
  | .jnsRel8 _ => .jns
  | .jpRel8 _ => .jp
  | .jnpRel8 _ => .jnp
  | .jlRel8 _ => .jl
  | .jgeRel8 _ => .jge
  | .jleRel8 _ => .jle
  | .jgRel8 _ => .jg
  | .addRm32Imm32 _ _ => .add
  | .orRm32Imm32 _ _ => .or
  | .adcRm32Imm32 _ _ => .adc
  | .sbbRm32Imm32 _ _ => .sbb
  | .andRm32Imm32 _ _ => .and
  | .subRm32Imm32 _ _ => .sub
  | .xorRm32Imm32 _ _ => .xor
  | .cmpRm32Imm32 _ _ => .cmp
  | .addRm32Imm8 _ _ => .add
  | .orRm32Imm8 _ _ => .or
  | .adcRm32Imm8 _ _ => .adc
  | .sbbRm32Imm8 _ _ => .sbb
  | .andRm32Imm8 _ _ => .and
  | .subRm32Imm8 _ _ => .sub
  | .xorRm32Imm8 _ _ => .xor
  | .cmpRm32Imm8 _ _ => .cmp
  | .shlRm32Imm8 _ _ => .shl
  | .shrRm32Imm8 _ _ => .shr
  | .shlRm32One _ => .shl
  | .shrRm32One _ => .shr
  | .testRm32Imm32 _ _ => .test
  | .testRm32Imm32Alt _ _ => .test
  | .notRm32 _ => .not
  | .negRm32 _ => .neg
  | .mulRm32 _ => .mul
  | .imulRm32 _ => .imul
  | .divRm32 _ => .div
  | .idivRm32 _ => .idiv
  | .nop => .nop
  | .pushf => .pushf
  | .popf => .popf
  | .ret => .ret
  | .hlt => .hlt
  | .cli => .cli
  | .sti => .sti
  | .cld => .cld
  | .std => .std
  | .movAddr32Eax _ => .mov
  | .movR8Imm8 _ _ => .mov
  | .movR32Imm32 _ _ => .mov
  | .intImm8 _ => .int
  | .callTarget32 _ => .call
  | .jmpTarget32 _ => .jmp
  | .jmpRel8 _ => .jmp
  | .rdtsc => .rdtsc
  | .jlTarget32 _ => .jl
  | .imul2R32Rm32 _ _ => .imul2
  | .rdrandRm32 _ => .rdrand
  | .rdseedRm32 _ => .rdseed

/-- The upper-case string of a mnemonic (30_encoding R174). -/
def Mnemonic.name : Mnemonic → String
  | .add => "ADD"
  | .or => "OR"
  | .and => "AND"
  | .sub => "SUB"
  | .xor => "XOR"
  | .cmp => "CMP"
  | .movsxd => "MOVSXD"
  | .test => "TEST"
  | .xchg => "XCHG"
  | .mov => "MOV"
  | .inc => "INC"
  | .dec => "DEC"
  | .push => "PUSH"
  | .pop => "POP"
  | .jo => "JO"
  | .jno => "JNO"
  | .jc => "JC"
  | .jnc => "JNC"
  | .jz => "JZ"
  | .jnz => "JNZ"
  | .jbe => "JBE"
  | .ja => "JA"
  | .js => "JS"
  | .jns => "JNS"
  | .jp => "JP"
  | .jnp => "JNP"
  | .jl => "JL"
  | .jge => "JGE"
  | .jle => "JLE"
  | .jg => "JG"
  | .adc => "ADC"
  | .sbb => "SBB"
  | .shl => "SHL"
  | .shr => "SHR"
  | .not => "NOT"
  | .neg => "NEG"
  | .mul => "MUL"
  | .imul => "IMUL"
  | .div => "DIV"
  | .idiv => "IDIV"
  | .nop => "NOP"
  | .pushf => "PUSHF"
  | .popf => "POPF"
  | .ret => "RET"
  | .hlt => "HLT"
  | .cli => "CLI"
  | .sti => "STI"
  | .cld => "CLD"
  | .std => "STD"
  | .int => "INT"
  | .call => "CALL"
  | .jmp => "JMP"
  | .rdtsc => "RDTSC"
  | .imul2 => "IMUL2"
  | .rdrand => "RDRAND"
  | .rdseed => "RDSEED"

/-- `opcode`: the first byte, or 0x0F00 plus the second byte (30_encoding R173). -/
def Instr.opcode : Instr → Nat
  | .addRm8R8 _ _ => 0x00
  | .addRm32R32 _ _ => 0x01
  | .addR8Rm8 _ _ => 0x02
  | .addR32Rm32 _ _ => 0x03
  | .orRm8R8 _ _ => 0x08
  | .orRm32R32 _ _ => 0x09
  | .andRm8R8 _ _ => 0x20
  | .andRm32R32 _ _ => 0x21
  | .subRm8R8 _ _ => 0x28
  | .subRm32R32 _ _ => 0x29
  | .xorRm8R8 _ _ => 0x30
  | .xorRm32R32 _ _ => 0x31
  | .cmpRm8R8 _ _ => 0x38
  | .cmpRm32R32 _ _ => 0x39
  | .movsxdR32Rm32 _ _ => 0x63
  | .testRm32R32 _ _ => 0x85
  | .xchgRm32R32 _ _ => 0x87
  | .movRm8R8 _ _ => 0x88
  | .movRm32R32 _ _ => 0x89
  | .andEaxImm32 _ => 0x25
  | .xorEaxImm32 _ => 0x35
  | .cmpEaxImm32 _ => 0x3D
  | .incR32 r => 0x40 + r.num.toNat
  | .decR32 r => 0x48 + r.num.toNat
  | .pushR32 r => 0x50 + r.num.toNat
  | .popR32 r => 0x58 + r.num.toNat
  | .joRel8 _ => 0x70
  | .jnoRel8 _ => 0x71
  | .jcRel8 _ => 0x72
  | .jncRel8 _ => 0x73
  | .jzRel8 _ => 0x74
  | .jnzRel8 _ => 0x75
  | .jbeRel8 _ => 0x76
  | .jaRel8 _ => 0x77
  | .jsRel8 _ => 0x78
  | .jnsRel8 _ => 0x79
  | .jpRel8 _ => 0x7A
  | .jnpRel8 _ => 0x7B
  | .jlRel8 _ => 0x7C
  | .jgeRel8 _ => 0x7D
  | .jleRel8 _ => 0x7E
  | .jgRel8 _ => 0x7F
  | .addRm32Imm32 _ _ => 0x81
  | .orRm32Imm32 _ _ => 0x81
  | .adcRm32Imm32 _ _ => 0x81
  | .sbbRm32Imm32 _ _ => 0x81
  | .andRm32Imm32 _ _ => 0x81
  | .subRm32Imm32 _ _ => 0x81
  | .xorRm32Imm32 _ _ => 0x81
  | .cmpRm32Imm32 _ _ => 0x81
  | .addRm32Imm8 _ _ => 0x83
  | .orRm32Imm8 _ _ => 0x83
  | .adcRm32Imm8 _ _ => 0x83
  | .sbbRm32Imm8 _ _ => 0x83
  | .andRm32Imm8 _ _ => 0x83
  | .subRm32Imm8 _ _ => 0x83
  | .xorRm32Imm8 _ _ => 0x83
  | .cmpRm32Imm8 _ _ => 0x83
  | .shlRm32Imm8 _ _ => 0xC1
  | .shrRm32Imm8 _ _ => 0xC1
  | .shlRm32One _ => 0xD1
  | .shrRm32One _ => 0xD1
  | .testRm32Imm32 _ _ => 0xF7
  | .testRm32Imm32Alt _ _ => 0xF7
  | .notRm32 _ => 0xF7
  | .negRm32 _ => 0xF7
  | .mulRm32 _ => 0xF7
  | .imulRm32 _ => 0xF7
  | .divRm32 _ => 0xF7
  | .idivRm32 _ => 0xF7
  | .nop => 0x90
  | .pushf => 0x9C
  | .popf => 0x9D
  | .ret => 0xC3
  | .hlt => 0xF4
  | .cli => 0xFA
  | .sti => 0xFB
  | .cld => 0xFC
  | .std => 0xFD
  | .movAddr32Eax _ => 0xA3
  | .movR8Imm8 r _ => 0xB0 + r.num.toNat
  | .movR32Imm32 r _ => 0xB8 + r.num.toNat
  | .intImm8 _ => 0xCD
  | .callTarget32 _ => 0xE8
  | .jmpTarget32 _ => 0xE9
  | .jmpRel8 _ => 0xEB
  | .rdtsc => 0x0F31
  | .jlTarget32 _ => 0x0F8C
  | .imul2R32Rm32 _ _ => 0x0FAF
  | .rdrandRm32 _ => 0x0FC7
  | .rdseedRm32 _ => 0x0FC7

/-- The operand list in order (30_encoding R171; the implied count of 0xD1 is IMMEDIATE(1, 1), R170). -/
def Instr.operands : Instr → List Operand
  | .addRm8R8 rm r => [.place (Rm8.place rm), .place (.reg8 r)]
  | .addRm32R32 rm r => [.place (Rm32.place rm), .place (.reg32 r)]
  | .addR8Rm8 r rm => [.place (.reg8 r), .place (Rm8.place rm)]
  | .addR32Rm32 r rm => [.place (.reg32 r), .place (Rm32.place rm)]
  | .orRm8R8 rm r => [.place (Rm8.place rm), .place (.reg8 r)]
  | .orRm32R32 rm r => [.place (Rm32.place rm), .place (.reg32 r)]
  | .andRm8R8 rm r => [.place (Rm8.place rm), .place (.reg8 r)]
  | .andRm32R32 rm r => [.place (Rm32.place rm), .place (.reg32 r)]
  | .subRm8R8 rm r => [.place (Rm8.place rm), .place (.reg8 r)]
  | .subRm32R32 rm r => [.place (Rm32.place rm), .place (.reg32 r)]
  | .xorRm8R8 rm r => [.place (Rm8.place rm), .place (.reg8 r)]
  | .xorRm32R32 rm r => [.place (Rm32.place rm), .place (.reg32 r)]
  | .cmpRm8R8 rm r => [.place (Rm8.place rm), .place (.reg8 r)]
  | .cmpRm32R32 rm r => [.place (Rm32.place rm), .place (.reg32 r)]
  | .movsxdR32Rm32 r rm => [.place (.reg32 r), .place (Rm32.place rm)]
  | .testRm32R32 rm r => [.place (Rm32.place rm), .place (.reg32 r)]
  | .xchgRm32R32 rm r => [.place (Rm32.place rm), .place (.reg32 r)]
  | .movRm8R8 rm r => [.place (Rm8.place rm), .place (.reg8 r)]
  | .movRm32R32 rm r => [.place (Rm32.place rm), .place (.reg32 r)]
  | .andEaxImm32 imm => [.place (.reg32 .eax), .imm32 imm]
  | .xorEaxImm32 imm => [.place (.reg32 .eax), .imm32 imm]
  | .cmpEaxImm32 imm => [.place (.reg32 .eax), .imm32 imm]
  | .incR32 r => [.place (.reg32 r)]
  | .decR32 r => [.place (.reg32 r)]
  | .pushR32 r => [.place (.reg32 r)]
  | .popR32 r => [.place (.reg32 r)]
  | .joRel8 rel => [.imm8 rel]
  | .jnoRel8 rel => [.imm8 rel]
  | .jcRel8 rel => [.imm8 rel]
  | .jncRel8 rel => [.imm8 rel]
  | .jzRel8 rel => [.imm8 rel]
  | .jnzRel8 rel => [.imm8 rel]
  | .jbeRel8 rel => [.imm8 rel]
  | .jaRel8 rel => [.imm8 rel]
  | .jsRel8 rel => [.imm8 rel]
  | .jnsRel8 rel => [.imm8 rel]
  | .jpRel8 rel => [.imm8 rel]
  | .jnpRel8 rel => [.imm8 rel]
  | .jlRel8 rel => [.imm8 rel]
  | .jgeRel8 rel => [.imm8 rel]
  | .jleRel8 rel => [.imm8 rel]
  | .jgRel8 rel => [.imm8 rel]
  | .addRm32Imm32 rm imm => [.place (Rm32.place rm), .imm32 imm]
  | .orRm32Imm32 rm imm => [.place (Rm32.place rm), .imm32 imm]
  | .adcRm32Imm32 rm imm => [.place (Rm32.place rm), .imm32 imm]
  | .sbbRm32Imm32 rm imm => [.place (Rm32.place rm), .imm32 imm]
  | .andRm32Imm32 rm imm => [.place (Rm32.place rm), .imm32 imm]
  | .subRm32Imm32 rm imm => [.place (Rm32.place rm), .imm32 imm]
  | .xorRm32Imm32 rm imm => [.place (Rm32.place rm), .imm32 imm]
  | .cmpRm32Imm32 rm imm => [.place (Rm32.place rm), .imm32 imm]
  | .addRm32Imm8 rm imm => [.place (Rm32.place rm), .imm8 imm]
  | .orRm32Imm8 rm imm => [.place (Rm32.place rm), .imm8 imm]
  | .adcRm32Imm8 rm imm => [.place (Rm32.place rm), .imm8 imm]
  | .sbbRm32Imm8 rm imm => [.place (Rm32.place rm), .imm8 imm]
  | .andRm32Imm8 rm imm => [.place (Rm32.place rm), .imm8 imm]
  | .subRm32Imm8 rm imm => [.place (Rm32.place rm), .imm8 imm]
  | .xorRm32Imm8 rm imm => [.place (Rm32.place rm), .imm8 imm]
  | .cmpRm32Imm8 rm imm => [.place (Rm32.place rm), .imm8 imm]
  | .shlRm32Imm8 rm count => [.place (Rm32.place rm), .imm8 count]
  | .shrRm32Imm8 rm count => [.place (Rm32.place rm), .imm8 count]
  | .shlRm32One rm => [.place (Rm32.place rm), .imm8 1]
  | .shrRm32One rm => [.place (Rm32.place rm), .imm8 1]
  | .testRm32Imm32 rm imm => [.place (Rm32.place rm), .imm32 imm]
  | .testRm32Imm32Alt rm imm => [.place (Rm32.place rm), .imm32 imm]
  | .notRm32 rm => [.place (Rm32.place rm)]
  | .negRm32 rm => [.place (Rm32.place rm)]
  | .mulRm32 rm => [.place (Rm32.place rm)]
  | .imulRm32 rm => [.place (Rm32.place rm)]
  | .divRm32 rm => [.place (Rm32.place rm)]
  | .idivRm32 rm => [.place (Rm32.place rm)]
  | .nop => []
  | .pushf => []
  | .popf => []
  | .ret => []
  | .hlt => []
  | .cli => []
  | .sti => []
  | .cld => []
  | .std => []
  | .movAddr32Eax addr => [.place (.mem .dword (.abs addr)), .place (.reg32 .eax)]
  | .movR8Imm8 r imm => [.place (.reg8 r), .imm8 imm]
  | .movR32Imm32 r imm => [.place (.reg32 r), .imm32 imm]
  | .intImm8 vector => [.imm8 vector]
  | .callTarget32 target => [.imm32 target]
  | .jmpTarget32 target => [.imm32 target]
  | .jmpRel8 rel => [.imm8 rel]
  | .rdtsc => []
  | .jlTarget32 target => [.imm32 target]
  | .imul2R32Rm32 r rm => [.place (.reg32 r), .place (Rm32.place rm)]
  | .rdrandRm32 rm => [.place (Rm32.place rm)]
  | .rdseedRm32 rm => [.place (Rm32.place rm)]

/-- The record the Decoder returns (30_encoding R170). -/
structure Instruction where
  opcode : Nat
  mnemonic : Mnemonic
  operands : List Operand
  size : Nat
  deriving DecidableEq, Repr

def Instr.record (i : Instr) : Instruction :=
  { opcode := i.opcode, mnemonic := i.mnemonic, operands := i.operands, size := i.size }

/-- The number of parts of an encoding, each read by one `MemRead`: escape, opcode, ModR/M,
displacement, immediate (30_encoding R140, R183). -/
def Instr.parts : Instr → Nat
  | .addRm8R8 rm _ => 2 + min rm.dispBytes 1
  | .addRm32R32 rm _ => 2 + min rm.dispBytes 1
  | .addR8Rm8 _ rm => 2 + min rm.dispBytes 1
  | .addR32Rm32 _ rm => 2 + min rm.dispBytes 1
  | .orRm8R8 rm _ => 2 + min rm.dispBytes 1
  | .orRm32R32 rm _ => 2 + min rm.dispBytes 1
  | .andRm8R8 rm _ => 2 + min rm.dispBytes 1
  | .andRm32R32 rm _ => 2 + min rm.dispBytes 1
  | .subRm8R8 rm _ => 2 + min rm.dispBytes 1
  | .subRm32R32 rm _ => 2 + min rm.dispBytes 1
  | .xorRm8R8 rm _ => 2 + min rm.dispBytes 1
  | .xorRm32R32 rm _ => 2 + min rm.dispBytes 1
  | .cmpRm8R8 rm _ => 2 + min rm.dispBytes 1
  | .cmpRm32R32 rm _ => 2 + min rm.dispBytes 1
  | .movsxdR32Rm32 _ rm => 2 + min rm.dispBytes 1
  | .testRm32R32 rm _ => 2 + min rm.dispBytes 1
  | .xchgRm32R32 rm _ => 2 + min rm.dispBytes 1
  | .movRm8R8 rm _ => 2 + min rm.dispBytes 1
  | .movRm32R32 rm _ => 2 + min rm.dispBytes 1
  | .andEaxImm32 _ => 2
  | .xorEaxImm32 _ => 2
  | .cmpEaxImm32 _ => 2
  | .incR32 _ => 1
  | .decR32 _ => 1
  | .pushR32 _ => 1
  | .popR32 _ => 1
  | .joRel8 _ => 2
  | .jnoRel8 _ => 2
  | .jcRel8 _ => 2
  | .jncRel8 _ => 2
  | .jzRel8 _ => 2
  | .jnzRel8 _ => 2
  | .jbeRel8 _ => 2
  | .jaRel8 _ => 2
  | .jsRel8 _ => 2
  | .jnsRel8 _ => 2
  | .jpRel8 _ => 2
  | .jnpRel8 _ => 2
  | .jlRel8 _ => 2
  | .jgeRel8 _ => 2
  | .jleRel8 _ => 2
  | .jgRel8 _ => 2
  | .addRm32Imm32 rm _ => 3 + min rm.dispBytes 1
  | .orRm32Imm32 rm _ => 3 + min rm.dispBytes 1
  | .adcRm32Imm32 rm _ => 3 + min rm.dispBytes 1
  | .sbbRm32Imm32 rm _ => 3 + min rm.dispBytes 1
  | .andRm32Imm32 rm _ => 3 + min rm.dispBytes 1
  | .subRm32Imm32 rm _ => 3 + min rm.dispBytes 1
  | .xorRm32Imm32 rm _ => 3 + min rm.dispBytes 1
  | .cmpRm32Imm32 rm _ => 3 + min rm.dispBytes 1
  | .addRm32Imm8 rm _ => 3 + min rm.dispBytes 1
  | .orRm32Imm8 rm _ => 3 + min rm.dispBytes 1
  | .adcRm32Imm8 rm _ => 3 + min rm.dispBytes 1
  | .sbbRm32Imm8 rm _ => 3 + min rm.dispBytes 1
  | .andRm32Imm8 rm _ => 3 + min rm.dispBytes 1
  | .subRm32Imm8 rm _ => 3 + min rm.dispBytes 1
  | .xorRm32Imm8 rm _ => 3 + min rm.dispBytes 1
  | .cmpRm32Imm8 rm _ => 3 + min rm.dispBytes 1
  | .shlRm32Imm8 rm _ => 3 + min rm.dispBytes 1
  | .shrRm32Imm8 rm _ => 3 + min rm.dispBytes 1
  | .shlRm32One rm => 2 + min rm.dispBytes 1
  | .shrRm32One rm => 2 + min rm.dispBytes 1
  | .testRm32Imm32 rm _ => 3 + min rm.dispBytes 1
  | .testRm32Imm32Alt rm _ => 3 + min rm.dispBytes 1
  | .notRm32 rm => 2 + min rm.dispBytes 1
  | .negRm32 rm => 2 + min rm.dispBytes 1
  | .mulRm32 rm => 2 + min rm.dispBytes 1
  | .imulRm32 rm => 2 + min rm.dispBytes 1
  | .divRm32 rm => 2 + min rm.dispBytes 1
  | .idivRm32 rm => 2 + min rm.dispBytes 1
  | .nop => 1
  | .pushf => 1
  | .popf => 1
  | .ret => 1
  | .hlt => 1
  | .cli => 1
  | .sti => 1
  | .cld => 1
  | .std => 1
  | .movAddr32Eax _ => 2
  | .movR8Imm8 _ _ => 2
  | .movR32Imm32 _ _ => 2
  | .intImm8 _ => 2
  | .callTarget32 _ => 2
  | .jmpTarget32 _ => 2
  | .jmpRel8 _ => 2
  | .rdtsc => 2
  | .jlTarget32 _ => 3
  | .imul2R32Rm32 _ rm => 3 + min rm.dispBytes 1
  | .rdrandRm32 rm => 3 + min rm.dispBytes 1
  | .rdseedRm32 rm => 3 + min rm.dispBytes 1

/-! ## The opcode table -/

/-- `match` and `mask` bytes of a row of spec/opcode_table.json, paired byte by byte. -/
abbrev OpcodeRow := List (Byte × Byte)

/-- The row of spec/opcode_table.json each constructor stands for. -/
def Instr.row : Instr → OpcodeRow
  | .addRm8R8 _ _ => [(0x00, 0xFF)]
  | .addRm32R32 _ _ => [(0x01, 0xFF)]
  | .addR8Rm8 _ _ => [(0x02, 0xFF)]
  | .addR32Rm32 _ _ => [(0x03, 0xFF)]
  | .orRm8R8 _ _ => [(0x08, 0xFF)]
  | .orRm32R32 _ _ => [(0x09, 0xFF)]
  | .andRm8R8 _ _ => [(0x20, 0xFF)]
  | .andRm32R32 _ _ => [(0x21, 0xFF)]
  | .subRm8R8 _ _ => [(0x28, 0xFF)]
  | .subRm32R32 _ _ => [(0x29, 0xFF)]
  | .xorRm8R8 _ _ => [(0x30, 0xFF)]
  | .xorRm32R32 _ _ => [(0x31, 0xFF)]
  | .cmpRm8R8 _ _ => [(0x38, 0xFF)]
  | .cmpRm32R32 _ _ => [(0x39, 0xFF)]
  | .movsxdR32Rm32 _ _ => [(0x63, 0xFF)]
  | .testRm32R32 _ _ => [(0x85, 0xFF)]
  | .xchgRm32R32 _ _ => [(0x87, 0xFF)]
  | .movRm8R8 _ _ => [(0x88, 0xFF)]
  | .movRm32R32 _ _ => [(0x89, 0xFF)]
  | .andEaxImm32 _ => [(0x25, 0xFF)]
  | .xorEaxImm32 _ => [(0x35, 0xFF)]
  | .cmpEaxImm32 _ => [(0x3D, 0xFF)]
  | .incR32 _ => [(0x40, 0xF8)]
  | .decR32 _ => [(0x48, 0xF8)]
  | .pushR32 _ => [(0x50, 0xF8)]
  | .popR32 _ => [(0x58, 0xF8)]
  | .joRel8 _ => [(0x70, 0xFF)]
  | .jnoRel8 _ => [(0x71, 0xFF)]
  | .jcRel8 _ => [(0x72, 0xFF)]
  | .jncRel8 _ => [(0x73, 0xFF)]
  | .jzRel8 _ => [(0x74, 0xFF)]
  | .jnzRel8 _ => [(0x75, 0xFF)]
  | .jbeRel8 _ => [(0x76, 0xFF)]
  | .jaRel8 _ => [(0x77, 0xFF)]
  | .jsRel8 _ => [(0x78, 0xFF)]
  | .jnsRel8 _ => [(0x79, 0xFF)]
  | .jpRel8 _ => [(0x7A, 0xFF)]
  | .jnpRel8 _ => [(0x7B, 0xFF)]
  | .jlRel8 _ => [(0x7C, 0xFF)]
  | .jgeRel8 _ => [(0x7D, 0xFF)]
  | .jleRel8 _ => [(0x7E, 0xFF)]
  | .jgRel8 _ => [(0x7F, 0xFF)]
  | .addRm32Imm32 _ _ => [(0x81, 0xFF), (0x00, 0x38)]
  | .orRm32Imm32 _ _ => [(0x81, 0xFF), (0x08, 0x38)]
  | .adcRm32Imm32 _ _ => [(0x81, 0xFF), (0x10, 0x38)]
  | .sbbRm32Imm32 _ _ => [(0x81, 0xFF), (0x18, 0x38)]
  | .andRm32Imm32 _ _ => [(0x81, 0xFF), (0x20, 0x38)]
  | .subRm32Imm32 _ _ => [(0x81, 0xFF), (0x28, 0x38)]
  | .xorRm32Imm32 _ _ => [(0x81, 0xFF), (0x30, 0x38)]
  | .cmpRm32Imm32 _ _ => [(0x81, 0xFF), (0x38, 0x38)]
  | .addRm32Imm8 _ _ => [(0x83, 0xFF), (0x00, 0x38)]
  | .orRm32Imm8 _ _ => [(0x83, 0xFF), (0x08, 0x38)]
  | .adcRm32Imm8 _ _ => [(0x83, 0xFF), (0x10, 0x38)]
  | .sbbRm32Imm8 _ _ => [(0x83, 0xFF), (0x18, 0x38)]
  | .andRm32Imm8 _ _ => [(0x83, 0xFF), (0x20, 0x38)]
  | .subRm32Imm8 _ _ => [(0x83, 0xFF), (0x28, 0x38)]
  | .xorRm32Imm8 _ _ => [(0x83, 0xFF), (0x30, 0x38)]
  | .cmpRm32Imm8 _ _ => [(0x83, 0xFF), (0x38, 0x38)]
  | .shlRm32Imm8 _ _ => [(0xC1, 0xFF), (0x20, 0x38)]
  | .shrRm32Imm8 _ _ => [(0xC1, 0xFF), (0x28, 0x38)]
  | .shlRm32One _ => [(0xD1, 0xFF), (0x20, 0x38)]
  | .shrRm32One _ => [(0xD1, 0xFF), (0x28, 0x38)]
  | .testRm32Imm32 _ _ => [(0xF7, 0xFF), (0x00, 0x38)]
  | .testRm32Imm32Alt _ _ => [(0xF7, 0xFF), (0x08, 0x38)]
  | .notRm32 _ => [(0xF7, 0xFF), (0x10, 0x38)]
  | .negRm32 _ => [(0xF7, 0xFF), (0x18, 0x38)]
  | .mulRm32 _ => [(0xF7, 0xFF), (0x20, 0x38)]
  | .imulRm32 _ => [(0xF7, 0xFF), (0x28, 0x38)]
  | .divRm32 _ => [(0xF7, 0xFF), (0x30, 0x38)]
  | .idivRm32 _ => [(0xF7, 0xFF), (0x38, 0x38)]
  | .nop => [(0x90, 0xFF)]
  | .pushf => [(0x9C, 0xFF)]
  | .popf => [(0x9D, 0xFF)]
  | .ret => [(0xC3, 0xFF)]
  | .hlt => [(0xF4, 0xFF)]
  | .cli => [(0xFA, 0xFF)]
  | .sti => [(0xFB, 0xFF)]
  | .cld => [(0xFC, 0xFF)]
  | .std => [(0xFD, 0xFF)]
  | .movAddr32Eax _ => [(0xA3, 0xFF)]
  | .movR8Imm8 _ _ => [(0xB0, 0xF8)]
  | .movR32Imm32 _ _ => [(0xB8, 0xF8)]
  | .intImm8 _ => [(0xCD, 0xFF)]
  | .callTarget32 _ => [(0xE8, 0xFF)]
  | .jmpTarget32 _ => [(0xE9, 0xFF)]
  | .jmpRel8 _ => [(0xEB, 0xFF)]
  | .rdtsc => [(0x0F, 0xFF), (0x31, 0xFF)]
  | .jlTarget32 _ => [(0x0F, 0xFF), (0x8C, 0xFF)]
  | .imul2R32Rm32 _ _ => [(0x0F, 0xFF), (0xAF, 0xFF)]
  | .rdrandRm32 _ => [(0x0F, 0xFF), (0xC7, 0xFF), (0x30, 0x38)]
  | .rdseedRm32 _ => [(0x0F, 0xFF), (0xC7, 0xFF), (0x38, 0x38)]

/-- Whether the leading bytes of an encoding match a row. -/
def OpcodeRow.fits : OpcodeRow → List Byte → Bool
  | [], _ => true
  | _ :: _, [] => false
  | (pat, mask) :: row, b :: bs => b &&& mask == pat && OpcodeRow.fits row bs

/-! ## The host's probe -/

/-- The longest instruction is ten bytes (30_encoding R140). -/
def longestInstr : Nat := 10

/-- The bytes of a table word: byte `j` is bits `8j+7 .. 8j`, bits at or above `nbits` are 0. -/
def tableWordBytes (nbits w : Nat) : List Byte :=
  (List.range longestInstr).map fun j => BitVec.ofNat 8 ((w % 2 ^ nbits) >>> (8 * j))

/-- The instruction the decoder reads from a table word. -/
def decodeTableWord (nbits w : Nat) : Option Instr :=
  match decode (tableWordBytes nbits w) with
  | .instr i _ => some i
  | .reject _ => none
  | .truncated => none

end Sys2Proof
end

