-- ==== Sys2Proof/Machine/Parameters.lean ====
section
/-! DEFINITION. The parameter values of the machine after reset (spec/00_scope.md R10; logs 2 to 8, 10). -/

namespace Sys2Proof.Machine

/-- The defaults of 00_scope R10, but `P_ADC_SBB = IA32`: the one of its two admissible values under
which ADC and SBB have an effect (DESIGN CHOICE, log 2). Statements hold for every `Params`. -/
def initialParams : Params :=
  { memSize := 65536
    disp8Ea := .sext
    flags8 := .u32
    adcSbb := .ia32
    idiv := .trunc
    shiftCorner := .reference
    l2Fill := .none
    l2Cap := some 2048
    frameFill := .keep }

end Sys2Proof.Machine
end

