-- ==== Sys2Proof/Machine/State.lean ====
section
/-! DEFINITION. The state of the CPU and the MMU (spec/10_state.md), the reasons a step stops
(spec/60_exceptions.md R400, R406), and the state after reset. -/

namespace Sys2Proof.Machine

/-- The eight general registers (10_state R30). -/
structure Regs where
  eax : Word
  ecx : Word
  edx : Word
  ebx : Word
  esp : Word
  ebp : Word
  esi : Word
  edi : Word
  deriving DecidableEq, Repr

/-- The nine flags (10_state R37). -/
structure Flags where
  cf : Bool
  pf : Bool
  af : Bool
  zf : Bool
  sf : Bool
  tf : Bool
  intf : Bool
  df : Bool
  of : Bool
  deriving DecidableEq, Repr

/-- Physical memory: the listed bytes; every other address reads as `Memory.unlisted`. -/
abbrev Memory := List Host.Cell

/-- What a physical byte that nothing has written reads as: `P_MEM_INIT = ZERO` (10_state R48, log 9). -/
def Memory.unlisted : Byte := 0

/-- The canonical form: addresses strictly rising, no entry equal to what an unlisted address reads as. -/
abbrev Memory.wf (m : Memory) : Prop :=
  m.Pairwise (fun x y => x.1 < y.1) ∧ ∀ c ∈ m, c.2 ≠ Memory.unlisted

/-- A page-directory entry (10_state R49). -/
structure PageTableEntry where
  present : Bool
  writable : Bool
  userMode : Bool
  writeThrough : Bool
  cacheDisabled : Bool
  accessed : Bool
  dirty : Bool
  frameNumber : Nat
  deriving DecidableEq, Repr

/-- A cache entry (10_state R50); the caches hold no data (20_memory R94). -/
structure CacheEntry where
  valid : Bool
  dirty : Bool
  lastAccess : Nat
  deriving DecidableEq, Repr

/-- The MMU counters (10_state R45). -/
structure MmuCounters where
  tlbHits : Nat
  tlbMisses : Nat
  pageFaults : Nat
  cacheHits : Nat
  cacheMisses : Nat
  deriving DecidableEq, Repr

/-- The state of the MMU (10_state R48). -/
structure Mmu where
  phys : Memory
  /-- Page number to entry, in insertion order (20_memory R85). -/
  pageDir : List (Nat × PageTableEntry)
  /-- A set of frame numbers, ascending (log 19). -/
  freeFrames : List Nat
  /-- A set of page numbers, ascending (log 19). -/
  protectedPages : List Nat
  /-- Page number to frame number, oldest insertion first (10_state R51). -/
  tlb : List (Nat × Nat)
  /-- Line address to entry, ascending (log 19). -/
  l1 : List (Nat × CacheEntry)
  l2 : List (Nat × CacheEntry)
  cacheClock : Nat
  counters : MmuCounters
  /-- The model's own: how many frames have been filled by draws (log 8). -/
  fillDraws : Nat
  deriving DecidableEq, Repr

/-- Everything the spec gives the machine (10_state R30 to R53). -/
structure State where
  /-- The parameters of this machine; nothing writes them (10_state R54, log 1). -/
  params : Params
  regs : Regs
  eip : Word
  flags : Flags
  halted : Bool
  interruptEnabled : Bool
  instructionCount : Nat
  cycleCount : Nat
  interrupts : Nat
  /-- Inert (10_state R46, log 16). -/
  segmentRegisters : Nat
  /-- Inert (10_state R46, log 16). -/
  controlRegisters : Nat
  /-- A set of virtual addresses, ascending (10_state R47, log 19). -/
  breakpoints : List Word
  mmu : Mmu
  /-- The model's own: how many CLOCK draws were taken (log 11). -/
  clockDraws : Nat
  /-- The model's own: the last CLOCK value, which the next one is not below (log 11). -/
  clockLast : BitVec 64
  /-- The model's own: how many RAND draws were taken (log 12). -/
  randDraws : Nat
  deriving DecidableEq, Repr

/-- The error kinds of 60_exceptions R400. An error goes to the caller of `step`: there is no trap
entry (R411). Each carries the state left at the raise, from which the machine can be stepped again
(R408, log 14). -/
inductive Fault where
  /-- Raised by the Decoder (R401). Safe: the spec names this error. -/
  | decodeError (address : Word) (cause : DecodeReject) (left : State)
  /-- Raised by the MMU's physical bounds check (R402). Safe: the spec names this error. -/
  | memoryAccessViolation (vaddr : Word) (paddr width : Nat) (left : State)
  /-- Raised by the frame allocator (R403). Safe: the spec names this error. -/
  | outOfPhysicalMemory (left : State)
  /-- Raised by DIV and IDIV (R404). Safe: the spec names this error. -/
  | divideByZero (address : Word) (left : State)
  /-- Raised by IDIV (R405). Safe: the spec names this error. -/
  | divideOverflow (address : Word) (left : State)
  /-- Raised by the host's by-name register accessor, by no step (R407). Safe: the spec names this error. -/
  | unknownRegister (name : String) (left : State)
  deriving DecidableEq, Repr

/-- Where the spec gives no meaning (60_exceptions R406). -/
inductive Refusal where
  /-- An arm of `exec` that has no meaning yet; no arm is left so. Safe. -/
  | notModelled (mnemonic : String)
  /-- Raised by ADC under `P_ADC_SBB = REFUSE` (42_arith_logic R272). Safe: the spec refuses. -/
  | adcHasNoSemantics
  /-- Raised by SBB under `P_ADC_SBB = REFUSE` (42_arith_logic R273). Safe: the spec refuses. -/
  | sbbHasNoSemantics
  /-- Raised by the host's `loadProgram` past 2^32 (20_memory R125). Safe: the spec refuses. -/
  | loadPastAddressSpace
  deriving DecidableEq, Repr

def Regs.reset : Regs :=
  { eax := 0, ecx := 0, edx := 0, ebx := 0, esp := 0xFFFF, ebp := 0, esi := 0, edi := 0 }

def Flags.clear : Flags :=
  { cf := false, pf := false, af := false, zf := false, sf := false, tf := false, intf := false,
    df := false, of := false }

def MmuCounters.zero : MmuCounters :=
  { tlbHits := 0, tlbMisses := 0, pageFaults := 0, cacheHits := 0, cacheMisses := 0 }

/-- The MMU at creation, with the given contents of physical memory (10_state R48). -/
def Mmu.create (p : Params) (phys : Memory) : Mmu :=
  { phys := phys
    pageDir := []
    freeFrames := List.range p.nframes
    protectedPages := []
    tlb := []
    l1 := []
    l2 := []
    cacheClock := 0
    counters := .zero
    fillDraws := 0 }

/-- The machine at creation, which is the reset state (70_reset R440); `phys` is what `P_MEM_INIT` gives. -/
def State.create (p : Params) (phys : Memory) : State :=
  { params := p
    regs := .reset
    eip := 0
    flags := .clear
    halted := false
    interruptEnabled := false
    instructionCount := 0
    cycleCount := 0
    interrupts := 0
    segmentRegisters := 0
    controlRegisters := 0
    breakpoints := []
    mmu := .create p phys
    clockDraws := 0
    clockLast := 0
    randDraws := 0 }

/-- The machine right after reset, with `P_MEM_INIT = ZERO` (70_reset R440, R441). -/
def State.reset : State := .create initialParams []

end Sys2Proof.Machine
end

