-- ==== Sys2Proof/Machine/Mmu.lean ====
section
/-! DEFINITION. The MMU: physical store, translation, frame allocation, caches, and the two access
transactions (spec/20_memory.md R80 to R102). -/

namespace Sys2Proof.Machine

/-! ## Tables -/

/-- The first entry of a key in a list of pairs. -/
def tableFind {α : Type} : List (Nat × α) → Nat → Option α
  | [], _ => none
  | (k, x) :: rest, a => if k = a then some x else tableFind rest a

/-- A list of pairs without the entries of a key. -/
def tableErase {α : Type} (t : List (Nat × α)) (a : Nat) : List (Nat × α) :=
  t.filter fun e => e.1 ≠ a

/-- Puts an entry into an ascending list of pairs, in place of one with its key. -/
def tableInsert {α : Type} : List (Nat × α) → Nat → α → List (Nat × α)
  | [], a, x => [(a, x)]
  | (k, y) :: rest, a, x =>
    if k < a then (k, y) :: tableInsert rest a x
    else if k = a then (a, x) :: rest
    else (a, x) :: (k, y) :: rest

/-- Puts an element into a list ascending by `key`, which stands for a set (log 19). -/
def setInsertBy {α : Type} (key : α → Nat) : List α → α → List α
  | [], a => [a]
  | k :: rest, a =>
    if key k < key a then k :: setInsertBy key rest a
    else if key k = key a then k :: rest
    else a :: k :: rest

def setInsert (s : List Nat) (a : Nat) : List Nat := setInsertBy id s a

def setErase (s : List Nat) (a : Nat) : List Nat := s.filter fun k => k ≠ a

/-! ## Physical store (20_memory R97, R101) -/

/-- One byte of physical memory. -/
def Memory.read (m : Memory) (a : Nat) : Byte := (tableFind m a).getD Memory.unlisted

/-- Writes one byte and keeps the canonical form. -/
def Memory.write (m : Memory) (a : Nat) (b : Byte) : Memory :=
  if b = Memory.unlisted then tableErase m a else tableInsert m a b

/-- `n` bytes from address `a` on. -/
def Memory.readBytes (m : Memory) (a : Nat) : Nat → List Byte
  | 0 => []
  | n + 1 => m.read a :: m.readBytes (a + 1) n

/-- Writes bytes from address `a` on. -/
def Memory.writeBytes (m : Memory) (a : Nat) : List Byte → Memory
  | [] => m
  | b :: bs => (m.write a b).writeBytes (a + 1) bs

/-- Sets `n` bytes from address `a` on to zero. -/
def Memory.clear (m : Memory) (a n : Nat) : Memory :=
  m.filter fun c => c.1 < a ∨ a + n ≤ c.1

/-! ## Results of MMU operations -/

/-- The errors the MMU raises (60_exceptions R402, R403). -/
inductive MmuError where
  | memoryAccessViolation (vaddr : Word) (paddr width : Nat)
  | outOfPhysicalMemory
  deriving DecidableEq, Repr

/-- An MMU operation gives a value or raises; either way the changes made so far stay (40_execution R202). -/
inductive MmuResult (α : Type) where
  | ok (val : α) (m : Mmu)
  | err (e : MmuError) (m : Mmu)
  deriving DecidableEq, Repr

def MmuResult.bind {α β : Type} : MmuResult α → (α → Mmu → MmuResult β) → MmuResult β
  | .ok x m, k => k x m
  | .err e m, _ => .err e m

/-- The MMU after an operation, whether it raised or not. -/
def MmuResult.mmu {α : Type} : MmuResult α → Mmu
  | .ok _ m => m
  | .err _ m => m

/-! ## Counters (10_state R45) -/

def Mmu.countTlbHit (m : Mmu) : Mmu :=
  { m with counters := { m.counters with tlbHits := m.counters.tlbHits + 1 } }
def Mmu.countTlbMiss (m : Mmu) : Mmu :=
  { m with counters := { m.counters with tlbMisses := m.counters.tlbMisses + 1 } }
def Mmu.countPageFault (m : Mmu) : Mmu :=
  { m with counters := { m.counters with pageFaults := m.counters.pageFaults + 1 } }
def Mmu.countCacheHit (m : Mmu) : Mmu :=
  { m with counters := { m.counters with cacheHits := m.counters.cacheHits + 1 } }
def Mmu.countCacheMiss (m : Mmu) : Mmu :=
  { m with counters := { m.counters with cacheMisses := m.counters.cacheMisses + 1 } }

/-! ## Frame allocation (20_memory R90 to R92) -/

/-- `pageNumber = floor(vaddr / 4096)` (20_memory R80). -/
def pageOf (v : Word) : Nat := v.toNat / 4096
/-- `offset = vaddr mod 4096` (20_memory R80). -/
def offsetOf (v : Word) : Nat := v.toNat % 4096
/-- The physical address of an offset in a frame (20_memory R88). -/
def frameAddr (frame offset : Nat) : Nat := frame * 4096 + offset

/-- Removes a page's directory and TLB entries and frees its frame; its bytes and cache lines stay
(20_memory R91). -/
def Mmu.evict (m : Mmu) (page : Nat) : Mmu :=
  match tableFind m.pageDir page with
  | none => m
  | some e =>
    { m with
      pageDir := tableErase m.pageDir page
      tlb := tableErase m.tlb page
      freeFrames := setInsert m.freeFrames e.frameNumber }

/-- The first page of the directory, in insertion order, that is not protected (20_memory R90). -/
def Mmu.victim (m : Mmu) : Option (Nat × PageTableEntry) :=
  m.pageDir.find? fun e => e.1 ∉ m.protectedPages

/-- The smallest free frame, or the frame of a victim page (20_memory R90). -/
def Mmu.allocFrame (m : Mmu) : MmuResult Nat :=
  match m.freeFrames with
  | f :: rest => .ok f { m with freeFrames := rest }
  | [] =>
    match m.victim with
    | none => .err .outOfPhysicalMemory m
    | some (page, e) =>
      let m := m.evict page
      .ok e.frameNumber { m with freeFrames := setErase m.freeFrames e.frameNumber }

/-- The contents of a frame that is given to a new page, by `P_FRAME_FILL` (20_memory R92, log 8). -/
def Mmu.fillFrame (p : Params) (frame : Nat) (m : Mmu) : Mmu :=
  match p.frameFill with
  | .keep => m
  | .zero => { m with phys := m.phys.clear (frameAddr frame 0) 4096 }
  | .draw =>
    { m with
      phys := m.phys.writeBytes (frameAddr frame 0) ((List.range 4096).map (Config.frameByte m.fillDraws))
      fillDraws := m.fillDraws + 1 }

/-- A new directory entry (10_state R49, 92_eei_decisions D27). -/
def newEntry (frame : Nat) : PageTableEntry :=
  { present := true, writable := true, userMode := true, writeThrough := false,
    cacheDisabled := false, accessed := false, dirty := false, frameNumber := frame }

/-- Creates the page's directory entry as the last one (20_memory R85, R88, log 24). -/
def Mmu.mapPage (page frame : Nat) (m : Mmu) : Mmu :=
  { m with pageDir := tableErase m.pageDir page ++ [(page, newEntry frame)] }

/-! ## Translation (20_memory R88, R89) -/

/-- `TLB_CAP` (00_scope R10). -/
def tlbCap : Nat := 64

/-- Appends the newest entry and removes the oldest one when there are more than 64 (20_memory R89). -/
def Mmu.tlbInsert (page frame : Nat) (m : Mmu) : Mmu :=
  let t := tableErase m.tlb page ++ [(page, frame)]
  { m with tlb := if t.length > tlbCap then t.tail else t }

/-- The frame the page directory gives a page; a non-present entry counts as missing (20_memory R88). -/
def Mmu.residentFrame (m : Mmu) (page : Nat) : Option Nat :=
  match tableFind m.pageDir page with
  | some e => if e.present then some e.frameNumber else none
  | none => none

/-- Gives a page that is not resident a frame: the page fault of 20_memory R88. -/
def Mmu.pageFault (p : Params) (page : Nat) (m : Mmu) : MmuResult Nat :=
  m.countPageFault.allocFrame.bind fun frame m =>
    .ok frame ((m.fillFrame p frame).mapPage page frame)

/-- The frame of a page that is not in the TLB, and its TLB entry (20_memory R88). -/
def Mmu.walk (p : Params) (page : Nat) (m : Mmu) : MmuResult Nat :=
  (match m.residentFrame page with
    | some frame => MmuResult.ok frame m
    | none => m.pageFault p page).bind fun frame m => .ok frame (m.tlbInsert page frame)

/-- The physical address of a virtual address (20_memory R88). -/
def Mmu.translate (p : Params) (v : Word) (m : Mmu) : MmuResult Nat :=
  match tableFind m.tlb (pageOf v) with
  | some frame => .ok (frameAddr frame (offsetOf v)) m.countTlbHit
  | none => (m.countTlbMiss.walk p (pageOf v)).bind fun frame m => .ok (frameAddr frame (offsetOf v)) m

/-! ## Caches (20_memory R94 to R99) -/

/-- `L1_CAP` (00_scope R10). -/
def l1Cap : Nat := 256

/-- The line of a physical address (10_state R50). -/
def lineOf (paddr : Nat) : Nat := paddr / 64 * 64

/-- A new cache entry (20_memory R96, R99). -/
def freshEntry (t : Nat) : CacheEntry := { valid := true, dirty := false, lastAccess := t }

/-- The least recently used entry of a cache: the smallest `lastAccess` (20_memory R96). -/
def lruEntry : List (Nat × CacheEntry) → Option (Nat × CacheEntry)
  | [] => none
  | e :: rest =>
    match lruEntry rest with
    | none => some e
    | some e' => if e.2.lastAccess ≤ e'.2.lastAccess then some e else some e'

/-- A cache without its least recently used entry. -/
def dropLru (c : List (Nat × CacheEntry)) : List (Nat × CacheEntry) :=
  match lruEntry c with
  | none => c
  | some e => tableErase c e.1

/-- 20_memory R99. -/
def Mmu.l2Insert (p : Params) (line t : Nat) (m : Mmu) : Mmu :=
  let c := if tableFind m.l2 line = none ∧ some m.l2.length = p.l2Cap then dropLru m.l2 else m.l2
  { m with l2 := tableInsert c line (freshEntry t) }

/-- Where a line evicted from L1 goes (20_memory R98). -/
def Mmu.l2Fill (p : Params) (e : Nat × CacheEntry) (m : Mmu) : Mmu :=
  match p.l2Fill with
  | .none => m
  | .l1Victim => m.l2Insert p e.1 e.2.lastAccess

/-- Makes room in a full L1 for a line it does not hold (20_memory R96). -/
def Mmu.l1MakeRoom (p : Params) (line : Nat) (m : Mmu) : Mmu :=
  if tableFind m.l1 line = none ∧ m.l1.length = l1Cap then
    match lruEntry m.l1 with
    | none => m
    | some e => Mmu.l2Fill p e { m with l1 := tableErase m.l1 e.1 }
  else m

/-- 20_memory R96. -/
def Mmu.l1Insert (p : Params) (line : Nat) (m : Mmu) : Mmu :=
  let m := m.l1MakeRoom p line
  { m with l1 := tableInsert m.l1 line (freshEntry m.cacheClock) }

/-! ## The access transactions (20_memory R95, R100) -/

/-- The bounds check of 20_memory R97 and R101, made before any byte moves. -/
def Mmu.checkBounds (p : Params) (v : Word) (paddr : Nat) (w : Width) (m : Mmu) : MmuResult Unit :=
  if paddr + w.bytes > p.memSize then .err (.memoryAccessViolation v paddr (w.bytes)) m
  else .ok () m

/-- 20_memory R97. -/
def Mmu.physRead (p : Params) (v : Word) (paddr : Nat) (w : Width) (m : Mmu) : MmuResult Word :=
  (m.checkBounds p v paddr w).bind fun _ m => .ok (wordOfBytes (m.phys.readBytes paddr (w.bytes))) m

/-- 20_memory R101. -/
def Mmu.physWrite (p : Params) (v : Word) (paddr : Nat) (w : Width) (x : Word) (m : Mmu) :
    MmuResult Unit :=
  (m.checkBounds p v paddr w).bind fun _ m =>
    .ok () { m with phys := m.phys.writeBytes paddr (wordBytes (w.bytes) x) }

/-- The read path of the caches, after translation (20_memory R95). -/
def Mmu.readAt (p : Params) (v : Word) (paddr : Nat) (w : Width) (m : Mmu) : MmuResult Word :=
  let line := lineOf paddr
  let m := { m with cacheClock := m.cacheClock + 1 }
  match tableFind m.l1 line with
  | some e =>
    let m := m.countCacheHit
    Mmu.physRead p v paddr w { m with l1 := tableInsert m.l1 line { e with lastAccess := m.cacheClock } }
  | none =>
    match tableFind m.l2 line with
    | some e =>
      let m := m.countCacheHit
      let m := { m with l2 := tableInsert m.l2 line { e with lastAccess := m.cacheClock } }
      (m.l1Insert p line).physRead p v paddr w
    | none =>
      (m.countCacheMiss.physRead p v paddr w).bind fun x m => .ok x (m.l1Insert p line)

/-- The write path, after translation: write-through, then the line is invalidated (20_memory R100). -/
def Mmu.writeAt (p : Params) (v : Word) (paddr : Nat) (w : Width) (x : Word) (m : Mmu) :
    MmuResult Unit :=
  (m.physWrite p v paddr w x).bind fun _ m =>
    .ok () { m with
      l1 := tableErase m.l1 (lineOf paddr)
      l2 := tableErase m.l2 (lineOf paddr) }

/-- `MemRead(vaddr, n)` (20_memory R95). -/
def Mmu.read (p : Params) (v : Word) (w : Width) (m : Mmu) : MmuResult Word :=
  (m.translate p v).bind fun paddr m => m.readAt p v paddr w

/-- `MemWrite(vaddr, n, x)` (20_memory R100). -/
def Mmu.write (p : Params) (v : Word) (w : Width) (x : Word) (m : Mmu) : MmuResult Unit :=
  (m.translate p v).bind fun paddr m => m.writeAt p v paddr w x

end Sys2Proof.Machine
end

