-- ==== Sys2Proof/Machine/Ops.lean ====
section
/-! DEFINITION. The shared operations: registers, memory accesses of the CPU, raising an error, the
stack, jumps, draws, the fetch, and the end of a step (spec/40_execution.md R200 to R211). -/

namespace Sys2Proof.Machine

/-! ## Results -/

/-- What an operation of a meaning gives: a value and the next state, or the fault it raised. -/
inductive Res (α : Type) where
  | ok (val : α) (s : State)
  | fault (f : Fault)
  deriving DecidableEq, Repr

def Res.bind {α β : Type} : Res α → (α → State → Res β) → Res β
  | .ok x s, k => k x s
  | .fault f, _ => .fault f

/-- The outcome of an instruction. -/
abbrev Outcome := Host.Outcome State Fault Refusal

def Res.outcome : Res Unit → Outcome
  | .ok _ s => .next s
  | .fault f => .fault f

/-- The state a fault leaves: the one at the raise (60_exceptions R408). -/
def Fault.left : Fault → State
  | .decodeError _ _ s => s
  | .memoryAccessViolation _ _ _ s => s
  | .outOfPhysicalMemory s => s
  | .divideByZero _ s => s
  | .divideOverflow _ s => s
  | .unknownRegister _ s => s

/-! ## Taking an error: it ends the step and returns to the caller with the state at the raise, every
write made before it in place (40_execution R202, 60_exceptions R408, R411). There is no return from
one (R412): the caller steps again from `Fault.left`. -/

/-- `raise E(info)` (00_scope R13): the error kind applied to the state at the raise. -/
def raise {α : Type} (kind : State → Fault) (s : State) : Res α := .fault (kind s)

/-- The fault an MMU error is. -/
def MmuError.fault : MmuError → State → Fault
  | .memoryAccessViolation v paddr n => .memoryAccessViolation v paddr n
  | .outOfPhysicalMemory => .outOfPhysicalMemory

/-! ## Registers (10_state R30 to R33) -/

def Regs.get (g : Regs) : Reg32 → Word
  | .eax => g.eax
  | .ecx => g.ecx
  | .edx => g.edx
  | .ebx => g.ebx
  | .esp => g.esp
  | .ebp => g.ebp
  | .esi => g.esi
  | .edi => g.edi

def Regs.set (g : Regs) (r : Reg32) (v : Word) : Regs :=
  match r with
  | .eax => { g with eax := v }
  | .ecx => { g with ecx := v }
  | .edx => { g with edx := v }
  | .ebx => { g with ebx := v }
  | .esp => { g with esp := v }
  | .ebp => { g with ebp := v }
  | .esi => { g with esi := v }
  | .edi => { g with edi := v }

/-- The 32-bit register an 8-bit register is a byte of (10_state R32). -/
def Reg8.parent : Reg8 → Reg32
  | .al => .eax
  | .cl => .ecx
  | .dl => .edx
  | .bl => .ebx
  | .ah => .eax
  | .ch => .ecx
  | .dh => .edx
  | .bh => .ebx

/-- The bit an 8-bit register starts at in its parent (10_state R32). -/
def Reg8.shift : Reg8 → Nat
  | .al => 0
  | .cl => 0
  | .dl => 0
  | .bl => 0
  | .ah => 8
  | .ch => 8
  | .dh => 8
  | .bh => 8

def Regs.get8 (g : Regs) (r : Reg8) : Byte := (g.get (Reg8.parent r)).extractLsb' (Reg8.shift r) 8

/-- Replaces the byte of `x` that starts at bit `n` (10_state R33). -/
def replaceByte (x : Word) (n : Nat) (v : Byte) : Word :=
  (x &&& ~~~(0xFF#32 <<< n)) ||| (v.setWidth 32 <<< n)

/-- Writes one byte of the parent register and keeps its other bits (10_state R33). -/
def Regs.set8 (g : Regs) (r : Reg8) (v : Byte) : Regs :=
  g.set (Reg8.parent r) (replaceByte (g.get (Reg8.parent r)) (Reg8.shift r) v)

def State.reg (s : State) (r : Reg32) : Word := s.regs.get r
def State.setReg (s : State) (r : Reg32) (v : Word) : State := { s with regs := s.regs.set r v }
def State.setReg8 (s : State) (r : Reg8) (v : Byte) : State := { s with regs := s.regs.set8 r v }
def State.setFlags (s : State) (f : Flags) : State := { s with flags := f }
def State.setEip (s : State) (v : Word) : State := { s with eip := v }
def State.setMmu (s : State) (m : Mmu) : State := { s with mmu := m }

/-! ## Memory accesses of the CPU and the Decoder -/

/-- The result of an MMU transaction made from a state: only the MMU part of the state has changed. -/
def liftMmu {α : Type} (s : State) : MmuResult α → Res α
  | .ok x m => .ok x (s.setMmu m)
  | .err e m => raise (MmuError.fault e) (s.setMmu m)

/-- `MemRead(vaddr, n)` (20_memory R95). -/
def memRead (v : Word) (w : Width) (s : State) : Res Word := liftMmu s (s.mmu.read s.params v w)

/-- `MemWrite(vaddr, n, x)` (20_memory R100). -/
def memWrite (v : Word) (w : Width) (x : Word) (s : State) : Res Unit :=
  liftMmu s (s.mmu.write s.params v w x)

/-! ## Stack (40_execution R210, R211) -/

/-- ESP is decremented before the write and stays so when the write raises (40_execution R210). -/
def push (v : Word) (s : State) : Res Unit :=
  memWrite (s.reg .esp - 4) .dword v (s.setReg .esp (s.reg .esp - 4))

/-- ESP is unchanged when the read raises (40_execution R211). -/
def pop (s : State) : Res Word :=
  (memRead (s.reg .esp) .dword s).bind fun v s => .ok v (s.setReg .esp (s.reg .esp + 4))

/-! ## Jumps (44_control R330): during execute EIP still is EIP0 (10_state R36) -/

/-- A rel8 is added, sign-extended, to EIP0 (44_control R330). -/
def jumpRel8 (rel : Byte) (s : State) : State := s.setEip (s.eip + rel.signExtend 32)

/-- A 32-bit target is absolute (44_control R330). -/
def jumpAbs (target : Word) (s : State) : State := s.setEip target

/-! ## Draws (00_scope R13) -/

/-- `draw CLOCK`: any value that is not below the last one (45_system R377, log 11). -/
def clockDraw (s : State) : BitVec 64 :=
  if s.clockLast ≤ Config.clock s.clockDraws then Config.clock s.clockDraws else s.clockLast

def afterClockDraw (s : State) : State :=
  { s with clockDraws := s.clockDraws + 1, clockLast := clockDraw s }

/-- `draw RAND`: any 32-bit value (45_system R378, log 12). -/
def randDraw (s : State) : Word := Config.rand s.randDraws

def afterRandDraw (s : State) : State := { s with randDraws := s.randDraws + 1 }

/-! ## The Decoder over the MMU (30_encoding R180, R183, R184) -/

/-- The reads of a decode made through the MMU from address `a` on, for the instruction at `start`. -/
def Fetch.onMmu (start : Word) : Fetch → Word → State → Res Instr
  | .done i, _, s => .ok i s
  | .reject e, _, s => raise (Fault.decodeError start e) s
  | .byte k, a, s => (memRead a .byte s).bind fun v s => Fetch.onMmu start (k (v.setWidth 8)) (a + 1) s
  | .dword k, a, s => (memRead a .dword s).bind fun v s => Fetch.onMmu start (k v) (a + 4) s

/-- `decode(a)` (30_encoding R180). -/
def decodeAt (a : Word) (s : State) : Res Instr := Fetch.onMmu a decoder a s

/-- The decode of the instruction at EIP (40_execution R200). -/
def fetch (s : State) : Res Instr := decodeAt s.eip s

/-! ## The end of a step (40_execution R200) -/

/-- `CYCLE_COST` (70_reset R460). -/
def cycleCost : Mnemonic → Nat
  | .shl => 2 | .shr => 2 | .push => 2 | .pop => 2
  | .call => 3 | .ret => 3
  | .int => 10
  | .nop => 1 | .mov => 1 | .movsxd => 1 | .xchg => 1 | .add => 1 | .or => 1 | .adc => 1 | .sbb => 1
  | .and => 1 | .sub => 1 | .xor => 1 | .cmp => 1 | .test => 1 | .inc => 1 | .dec => 1 | .not => 1
  | .neg => 1 | .mul => 1 | .imul => 1 | .imul2 => 1 | .div => 1 | .idiv => 1
  | .jo => 1 | .jno => 1 | .jc => 1 | .jnc => 1 | .jz => 1 | .jnz => 1 | .jbe => 1 | .ja => 1
  | .js => 1 | .jns => 1 | .jp => 1 | .jnp => 1 | .jl => 1 | .jge => 1 | .jle => 1 | .jg => 1
  | .jmp => 1 | .hlt => 1 | .cli => 1 | .sti => 1 | .cld => 1 | .std => 1 | .pushf => 1 | .popf => 1
  | .rdtsc => 1 | .rdrand => 1 | .rdseed => 1

/-- Counts the instruction and advances EIP if it still is EIP0; the comparison is of values
(40_execution R200, 44_control R353). -/
def retire (i : Instr) (eip0 : Word) (s : State) : State :=
  { s with
    instructionCount := s.instructionCount + 1
    cycleCount := s.cycleCount + cycleCost i.mnemonic
    eip := if s.eip = eip0 then eip0 + BitVec.ofNat 32 i.size else s.eip }

/-! ## Placing an instruction for the next fetch (log 17) -/

/-- The MMU after writing bytes where the next fetch from `v` reads them: from the physical address of
`v` on, and, for those that lie in the next virtual page, also in that page's frame, since a field that
starts there is translated on its own (70_reset R453). The counters and the cache clock stay. -/
def Mmu.place (p : Params) (v : Word) (bs : List Byte) (m : Mmu) : Mmu :=
  match m.translate p v with
  | .err _ _ => m
  | .ok paddr m1 =>
    let m1 := { m1 with phys := m1.phys.writeBytes paddr bs, counters := m.counters }
    if offsetOf v + bs.length ≤ 4096 then m1
    else
      let first := 4096 - offsetOf v
      match m1.translate p (v + BitVec.ofNat 32 first) with
      | .err _ _ => m1
      | .ok paddr2 m2 =>
        { m2 with phys := m2.phys.writeBytes paddr2 (bs.drop first), counters := m.counters }

end Sys2Proof.Machine
end

