-- ==== Sys2Proof/Machine/Flags.lean ====
section
/-! DEFINITION. The flag-computing ALU (spec/40_execution.md R215 to R226) and the flags word
(spec/10_state.md R41). -/

namespace Sys2Proof.Machine

/-! ## The flags word (10_state R41) -/

def Flags.pack (f : Flags) : Word :=
  (BitVec.ofBool f.cf).setWidth 32
    ||| 1#32 <<< 1
    ||| (BitVec.ofBool f.pf).setWidth 32 <<< 2
    ||| (BitVec.ofBool f.af).setWidth 32 <<< 4
    ||| (BitVec.ofBool f.zf).setWidth 32 <<< 6
    ||| (BitVec.ofBool f.sf).setWidth 32 <<< 7
    ||| (BitVec.ofBool f.tf).setWidth 32 <<< 8
    ||| (BitVec.ofBool f.intf).setWidth 32 <<< 9
    ||| (BitVec.ofBool f.df).setWidth 32 <<< 10
    ||| (BitVec.ofBool f.of).setWidth 32 <<< 11

def Flags.unpack (w : Word) : Flags :=
  { cf := w.getLsbD 0, pf := w.getLsbD 2, af := w.getLsbD 4, zf := w.getLsbD 6, sf := w.getLsbD 7,
    tf := w.getLsbD 8, intf := w.getLsbD 9, df := w.getLsbD 10, of := w.getLsbD 11 }

/-! ## Result flags (40_execution R215) -/

/-- The number of bits the flags of an operation are computed on: 8 only for a width-1 operation under
`P_FLAGS8 = WIDTH8` (40_execution R219). -/
def flagBits (p : Params) (w : Width) : Nat :=
  if w = .byte ∧ p.flags8 = .width8 then 8 else 32

/-- An even number of 1 bits among bits 7..0 (00_scope R12). -/
def parity8 (r : Word) : Bool :=
  !(r.getLsbD 0 ^^ r.getLsbD 1 ^^ r.getLsbD 2 ^^ r.getLsbD 3 ^^ r.getLsbD 4 ^^ r.getLsbD 5
    ^^ r.getLsbD 6 ^^ r.getLsbD 7)

/-- `setZSP` on `n` bits (40_execution R215, R219). -/
def setZSP (n : Nat) (r : Word) (f : Flags) : Flags :=
  { f with zf := r.toNat % 2 ^ n == 0, sf := r.getLsbD (n - 1), pf := parity8 r }

/-- A carry or borrow as an addend. -/
def carryWord (c : Bool) : Word := (BitVec.ofBool c).setWidth 32

/-- `addFlags(a, b, c)` on `n` bits (40_execution R216, R219). -/
def addFlags (n : Nat) (a b : Word) (c : Bool) (f : Flags) : Flags :=
  let r := a + b + carryWord c
  { setZSP n r f with
    cf := decide (2 ^ n ≤ a.toNat + b.toNat + c.toNat)
    of := ((a ^^^ r) &&& (b ^^^ r)).getLsbD (n - 1)
    af := decide (0xF < a.toNat % 16 + b.toNat % 16 + c.toNat) }

/-- `subFlags(a, b, c)` on `n` bits (40_execution R217, R219). -/
def subFlags (n : Nat) (a b : Word) (c : Bool) (f : Flags) : Flags :=
  let r := a - b - carryWord c
  { setZSP n r f with
    cf := decide (a.toNat < b.toNat + c.toNat)
    of := ((a ^^^ b) &&& (a ^^^ r)).getLsbD (n - 1)
    af := decide (a.toNat % 16 < b.toNat % 16 + c.toNat) }

/-- `logicFlags(r)` on `n` bits (40_execution R218, R219). -/
def logicFlags (n : Nat) (r : Word) (f : Flags) : Flags :=
  { setZSP n r f with cf := false, of := false, af := false }

/-- `mulFlags(p, fits)`, from the low 32 bits of the product (40_execution R224). -/
def mulFlags (low : Word) (fits : Bool) (f : Flags) : Flags :=
  { setZSP 32 low f with cf := !fits, of := !fits }

/-! ## The two-operand ALU operations (40_execution R225) -/

inductive AluOp where
  | add | or | adc | sbb | and | sub | xor
  deriving DecidableEq, Repr

/-- The result before masking; `c` is CF before the instruction (40_execution R225). -/
def AluOp.result (op : AluOp) (a b : Word) (c : Bool) : Word :=
  match op with
  | .add => a + b
  | .or => a ||| b
  | .adc => a + b + carryWord c
  | .sbb => a - b - carryWord c
  | .and => a &&& b
  | .sub => a - b
  | .xor => a ^^^ b

/-- The flags, computed on `n` bits (40_execution R225). -/
def AluOp.flags (op : AluOp) (n : Nat) (a b : Word) (c : Bool) (f : Flags) : Flags :=
  match op with
  | .add => addFlags n a b false f
  | .or => logicFlags n (a ||| b) f
  | .adc => addFlags n a b c f
  | .sbb => subFlags n a b c f
  | .and => logicFlags n (a &&& b) f
  | .sub => subFlags n a b false f
  | .xor => logicFlags n (a ^^^ b) f

/-! ## Shifts (40_execution R221 to R223) -/

/-- The reference configuration (the table of 40_execution R223, log 6). -/
def referenceCorner (a : Word) (c : Byte) : ShiftCorner :=
  if c = 0 then { result := a, cf := none, of := none }
  else { result := 0, cf := some false, of := none }

/-- `SHIFT_CORNER`; at count 32 its CF is the bit the source gives (40_execution R221, R222, R223). -/
def shiftCorner (p : Params) (op : ShiftOp) (a : Word) (c : Byte) : ShiftCorner :=
  let k := match p.shiftCorner with
    | .reference => referenceCorner a c
    | .other n => Config.shiftCorner n op a c
  if c = 32 then
    { k with cf := some (match op with | .shl => a.getLsbD 0 | .shr => a.getLsbD 31) }
  else k

/-- `shl(a, c)` (40_execution R221) and `shr(a, c)` (R222): the result, and CF and OF, `none` for
unchanged. -/
def shift (p : Params) (op : ShiftOp) (a : Word) (c : Byte) : ShiftCorner :=
  let k := c.toNat
  if 1 ≤ k ∧ k ≤ 31 then
    match op with
    | .shl =>
      { result := a <<< k
        cf := some (a.getLsbD (32 - k))
        of := if k = 1 then some (a.getLsbD 31 != a.getLsbD 30) else (shiftCorner p op a c).of }
    | .shr =>
      { result := a >>> k
        cf := some (a.getLsbD (k - 1))
        of := if k = 1 then some (a.getLsbD 31) else (shiftCorner p op a c).of }
  else shiftCorner p op a c

/-- The flags after a shift; AF stays (40_execution R221, R222). -/
def shiftFlags (k : ShiftCorner) (f : Flags) : Flags :=
  { setZSP 32 k.result f with cf := k.cf.getD f.cf, of := k.of.getD f.of }

/-! ## Conditions (44_control R331) -/

inductive Cond where
  | o | no | c | nc | z | nz | be | a | s | ns | p | np | l | ge | le | g
  deriving DecidableEq, Repr

def Cond.holds (f : Flags) : Cond → Bool
  | .o => f.of
  | .no => !f.of
  | .c => f.cf
  | .nc => !f.cf
  | .z => f.zf
  | .nz => !f.zf
  | .be => f.cf || f.zf
  | .a => !f.cf && !f.zf
  | .s => f.sf
  | .ns => !f.sf
  | .p => f.pf
  | .np => !f.pf
  | .l => f.sf != f.of
  | .ge => f.sf == f.of
  | .le => f.zf || f.sf != f.of
  | .g => !f.zf && f.sf == f.of

end Sys2Proof.Machine
end

