-- ==== Sys2Proof/Machine/Operands.lean ====
section
/-! DEFINITION. Effective addresses, reading and writing operands, and the shapes of instruction that
several meanings share (spec/40_execution.md R205 to R209). -/

namespace Sys2Proof.Machine

/-- A disp8 as an addend, by `P_DISP8_EA` (40_execution R206). -/
def disp8Addend (p : Params) (d : Byte) : Word :=
  match p.disp8Ea with
  | .sext => d.signExtend 32
  | .zext => d.setWidth 32

/-- `EA(op)`, modulo 2^32 (40_execution R206). -/
def effectiveAddress (m : MemOp) (s : State) : Word :=
  match m with
  | .abs a => a
  | .ind b => s.reg b
  | .disp8 b d => s.reg b + disp8Addend s.params d
  | .disp32 b d => s.reg b + d

/-- `read` of a register or memory operand, as a U32 (40_execution R205, R207). -/
def readPlace (p : Place) (s : State) : Res Word :=
  match p with
  | .reg8 r => .ok ((s.regs.get8 r).setWidth 32) s
  | .reg32 r => .ok (s.reg r) s
  | .mem w m => memRead (effectiveAddress m s) w s

/-- `read(op)` (40_execution R207): an imm8 is its raw byte, not sign-extended (R205). -/
def readOperand (o : Operand) (s : State) : Res Word :=
  match o with
  | .place p => readPlace p s
  | .imm8 v => .ok (v.setWidth 32) s
  | .imm32 v => .ok v s

/-- `write(op, v)`: the low bits the place holds (40_execution R208). -/
def writePlace (p : Place) (v : Word) (s : State) : Res Unit :=
  match p with
  | .reg8 r => .ok () (s.setReg8 r (v.setWidth 8))
  | .reg32 r => .ok () (s.setReg r v)
  | .mem w m => memWrite (effectiveAddress m s) w v s

/-! ## Shapes: read operand0, read operand1, compute, write, then the flags (40_execution R209) -/

/-- A two-operand operation that writes its first operand (40_execution R209, R225). -/
def aluWrite (op : AluOp) (w : Width) (dst : Place) (src : Operand) (s : State) : Res Unit :=
  (readPlace dst s).bind fun a s =>
  (readOperand src s).bind fun b s =>
  (writePlace dst (op.result a b s.flags.cf) s).bind fun _ s =>
  .ok () (s.setFlags (op.flags (flagBits s.params w) a b s.flags.cf s.flags))

/-- A two-operand operation that only writes flags: CMP and TEST (40_execution R225). -/
def aluTest (op : AluOp) (w : Width) (dst : Place) (src : Operand) (s : State) : Res Unit :=
  (readPlace dst s).bind fun a s =>
  (readOperand src s).bind fun b s =>
  .ok () (s.setFlags (op.flags (flagBits s.params w) a b s.flags.cf s.flags))

/-- MOV and MOVSXD: read operand1, write operand0 (41_data_transfer R241 to R245). -/
def move (dst : Place) (src : Operand) (s : State) : Res Unit :=
  (readOperand src s).bind fun v s => writePlace dst v s

/-- A one-operand operation: read, write, then the flags of the value read. -/
def unaryWrite (f : Word → Word) (g : Word → Flags → Flags) (dst : Place) (s : State) : Res Unit :=
  (readPlace dst s).bind fun a s =>
  (writePlace dst (f a) s).bind fun _ s =>
  .ok () (s.setFlags (g a s.flags))

/-- SHL and SHR: the count is used as it is (42_arith_logic R283, R284). -/
def shiftWrite (op : ShiftOp) (dst : Place) (count : Byte) (s : State) : Res Unit :=
  (readPlace dst s).bind fun a s =>
  (writePlace dst (shift s.params op a count).result s).bind fun _ s =>
  .ok () (s.setFlags (shiftFlags (shift s.params op a count) s.flags))

/-- A conditional jump to a rel8 (44_control R356). -/
def jumpRel8If (cond : Cond) (rel : Byte) (s : State) : Res Unit :=
  if cond.holds s.flags then .ok () (jumpRel8 rel s) else .ok () s

/-- RDRAND and RDSEED: the draw, the write, then the six flags (45_system R378, R379). -/
def drawInto (dst : Place) (s : State) : Res Unit :=
  (writePlace dst (randDraw s) (afterRandDraw s)).bind fun _ s =>
  .ok () (s.setFlags
    { s.flags with cf := true, of := false, sf := false, zf := false, af := false, pf := false })

end Sys2Proof.Machine
end

