-- ==== Sys2Proof/Machine/ArithLogic.lean ====
section
/-! DEFINITION. Arithmetic, logic and shift instructions (spec/42_arith_logic.md). -/

namespace Sys2Proof.Machine

/-- `00` ADD r/m8, r8 (42_arith_logic R270). -/
def execAddRm8R8 (rm : Rm8) (r : Reg8) (s : State) : Outcome :=
  (aluWrite .add .byte (Rm8.place rm) (.place (.reg8 r)) s).outcome

/-- `01` ADD r/m32, r32 (42_arith_logic R270). -/
def execAddRm32R32 (rm : Rm32) (r : Reg32) (s : State) : Outcome :=
  (aluWrite .add .dword (Rm32.place rm) (.place (.reg32 r)) s).outcome

/-- `02` ADD r8, r/m8 (42_arith_logic R270). -/
def execAddR8Rm8 (r : Reg8) (rm : Rm8) (s : State) : Outcome :=
  (aluWrite .add .byte (.reg8 r) (.place (Rm8.place rm)) s).outcome

/-- `03` ADD r32, r/m32 (42_arith_logic R270). -/
def execAddR32Rm32 (r : Reg32) (rm : Rm32) (s : State) : Outcome :=
  (aluWrite .add .dword (.reg32 r) (.place (Rm32.place rm)) s).outcome

/-- `08` OR r/m8, r8 (42_arith_logic R271). -/
def execOrRm8R8 (rm : Rm8) (r : Reg8) (s : State) : Outcome :=
  (aluWrite .or .byte (Rm8.place rm) (.place (.reg8 r)) s).outcome

/-- `09` OR r/m32, r32 (42_arith_logic R271). -/
def execOrRm32R32 (rm : Rm32) (r : Reg32) (s : State) : Outcome :=
  (aluWrite .or .dword (Rm32.place rm) (.place (.reg32 r)) s).outcome

/-- `20` AND r/m8, r8 (42_arith_logic R274). -/
def execAndRm8R8 (rm : Rm8) (r : Reg8) (s : State) : Outcome :=
  (aluWrite .and .byte (Rm8.place rm) (.place (.reg8 r)) s).outcome

/-- `21` AND r/m32, r32 (42_arith_logic R274). -/
def execAndRm32R32 (rm : Rm32) (r : Reg32) (s : State) : Outcome :=
  (aluWrite .and .dword (Rm32.place rm) (.place (.reg32 r)) s).outcome

/-- `28` SUB r/m8, r8 (42_arith_logic R275). -/
def execSubRm8R8 (rm : Rm8) (r : Reg8) (s : State) : Outcome :=
  (aluWrite .sub .byte (Rm8.place rm) (.place (.reg8 r)) s).outcome

/-- `29` SUB r/m32, r32 (42_arith_logic R275). -/
def execSubRm32R32 (rm : Rm32) (r : Reg32) (s : State) : Outcome :=
  (aluWrite .sub .dword (Rm32.place rm) (.place (.reg32 r)) s).outcome

/-- `30` XOR r/m8, r8 (42_arith_logic R276). -/
def execXorRm8R8 (rm : Rm8) (r : Reg8) (s : State) : Outcome :=
  (aluWrite .xor .byte (Rm8.place rm) (.place (.reg8 r)) s).outcome

/-- `31` XOR r/m32, r32 (42_arith_logic R276). -/
def execXorRm32R32 (rm : Rm32) (r : Reg32) (s : State) : Outcome :=
  (aluWrite .xor .dword (Rm32.place rm) (.place (.reg32 r)) s).outcome

/-- `38` CMP r/m8, r8 (42_arith_logic R277). -/
def execCmpRm8R8 (rm : Rm8) (r : Reg8) (s : State) : Outcome :=
  (aluTest .sub .byte (Rm8.place rm) (.place (.reg8 r)) s).outcome

/-- `39` CMP r/m32, r32 (42_arith_logic R277). -/
def execCmpRm32R32 (rm : Rm32) (r : Reg32) (s : State) : Outcome :=
  (aluTest .sub .dword (Rm32.place rm) (.place (.reg32 r)) s).outcome

/-- `85` TEST r/m32, r32 (42_arith_logic R280). -/
def execTestRm32R32 (rm : Rm32) (r : Reg32) (s : State) : Outcome :=
  (aluTest .and .dword (Rm32.place rm) (.place (.reg32 r)) s).outcome

/-- `25` AND EAX, imm32 (42_arith_logic R274). -/
def execAndEaxImm32 (imm : Word) (s : State) : Outcome :=
  (aluWrite .and .dword (.reg32 .eax) (.imm32 imm) s).outcome

/-- `35` XOR EAX, imm32 (42_arith_logic R276). -/
def execXorEaxImm32 (imm : Word) (s : State) : Outcome :=
  (aluWrite .xor .dword (.reg32 .eax) (.imm32 imm) s).outcome

/-- `3D` CMP EAX, imm32 (42_arith_logic R277). -/
def execCmpEaxImm32 (imm : Word) (s : State) : Outcome :=
  (aluTest .sub .dword (.reg32 .eax) (.imm32 imm) s).outcome

/-- `40` INC r32 (42_arith_logic R278). -/
def execIncR32 (r : Reg32) (s : State) : Outcome :=
  (unaryWrite (fun a => a + 1) (fun a f => addFlags 32 a 1 false f) (.reg32 r) s).outcome

/-- `48` DEC r32 (42_arith_logic R279). -/
def execDecR32 (r : Reg32) (s : State) : Outcome :=
  (unaryWrite (fun a => a - 1) (fun a f => subFlags 32 a 1 false f) (.reg32 r) s).outcome

/-- `81 00` ADD r/m32, imm32 (42_arith_logic R270). -/
def execAddRm32Imm32 (rm : Rm32) (imm : Word) (s : State) : Outcome :=
  (aluWrite .add .dword (Rm32.place rm) (.imm32 imm) s).outcome

/-- `81 08` OR r/m32, imm32 (42_arith_logic R271). -/
def execOrRm32Imm32 (rm : Rm32) (imm : Word) (s : State) : Outcome :=
  (aluWrite .or .dword (Rm32.place rm) (.imm32 imm) s).outcome

/-- `81 10` ADC r/m32, imm32 (42_arith_logic R272). -/
def execAdcRm32Imm32 (rm : Rm32) (imm : Word) (s : State) : Outcome :=
  match s.params.adcSbb with
  | .refuse => .refused .adcHasNoSemantics
  | .ia32 => (aluWrite .adc .dword (Rm32.place rm) (.imm32 imm) s).outcome

/-- `81 18` SBB r/m32, imm32 (42_arith_logic R273). -/
def execSbbRm32Imm32 (rm : Rm32) (imm : Word) (s : State) : Outcome :=
  match s.params.adcSbb with
  | .refuse => .refused .sbbHasNoSemantics
  | .ia32 => (aluWrite .sbb .dword (Rm32.place rm) (.imm32 imm) s).outcome

/-- `81 20` AND r/m32, imm32 (42_arith_logic R274). -/
def execAndRm32Imm32 (rm : Rm32) (imm : Word) (s : State) : Outcome :=
  (aluWrite .and .dword (Rm32.place rm) (.imm32 imm) s).outcome

/-- `81 28` SUB r/m32, imm32 (42_arith_logic R275). -/
def execSubRm32Imm32 (rm : Rm32) (imm : Word) (s : State) : Outcome :=
  (aluWrite .sub .dword (Rm32.place rm) (.imm32 imm) s).outcome

/-- `81 30` XOR r/m32, imm32 (42_arith_logic R276). -/
def execXorRm32Imm32 (rm : Rm32) (imm : Word) (s : State) : Outcome :=
  (aluWrite .xor .dword (Rm32.place rm) (.imm32 imm) s).outcome

/-- `81 38` CMP r/m32, imm32 (42_arith_logic R277). -/
def execCmpRm32Imm32 (rm : Rm32) (imm : Word) (s : State) : Outcome :=
  (aluTest .sub .dword (Rm32.place rm) (.imm32 imm) s).outcome

/-- `83 00` ADD r/m32, imm8 (42_arith_logic R270). -/
def execAddRm32Imm8 (rm : Rm32) (imm : Byte) (s : State) : Outcome :=
  (aluWrite .add .dword (Rm32.place rm) (.imm8 imm) s).outcome

/-- `83 08` OR r/m32, imm8 (42_arith_logic R271). -/
def execOrRm32Imm8 (rm : Rm32) (imm : Byte) (s : State) : Outcome :=
  (aluWrite .or .dword (Rm32.place rm) (.imm8 imm) s).outcome

/-- `83 10` ADC r/m32, imm8 (42_arith_logic R272). -/
def execAdcRm32Imm8 (rm : Rm32) (imm : Byte) (s : State) : Outcome :=
  match s.params.adcSbb with
  | .refuse => .refused .adcHasNoSemantics
  | .ia32 => (aluWrite .adc .dword (Rm32.place rm) (.imm8 imm) s).outcome

/-- `83 18` SBB r/m32, imm8 (42_arith_logic R273). -/
def execSbbRm32Imm8 (rm : Rm32) (imm : Byte) (s : State) : Outcome :=
  match s.params.adcSbb with
  | .refuse => .refused .sbbHasNoSemantics
  | .ia32 => (aluWrite .sbb .dword (Rm32.place rm) (.imm8 imm) s).outcome

/-- `83 20` AND r/m32, imm8 (42_arith_logic R274). -/
def execAndRm32Imm8 (rm : Rm32) (imm : Byte) (s : State) : Outcome :=
  (aluWrite .and .dword (Rm32.place rm) (.imm8 imm) s).outcome

/-- `83 28` SUB r/m32, imm8 (42_arith_logic R275). -/
def execSubRm32Imm8 (rm : Rm32) (imm : Byte) (s : State) : Outcome :=
  (aluWrite .sub .dword (Rm32.place rm) (.imm8 imm) s).outcome

/-- `83 30` XOR r/m32, imm8 (42_arith_logic R276). -/
def execXorRm32Imm8 (rm : Rm32) (imm : Byte) (s : State) : Outcome :=
  (aluWrite .xor .dword (Rm32.place rm) (.imm8 imm) s).outcome

/-- `83 38` CMP r/m32, imm8 (42_arith_logic R277). -/
def execCmpRm32Imm8 (rm : Rm32) (imm : Byte) (s : State) : Outcome :=
  (aluTest .sub .dword (Rm32.place rm) (.imm8 imm) s).outcome

/-- `C1 20` SHL r/m32, imm8 (42_arith_logic R283). -/
def execShlRm32Imm8 (rm : Rm32) (count : Byte) (s : State) : Outcome :=
  (shiftWrite .shl (Rm32.place rm) count s).outcome

/-- `C1 28` SHR r/m32, imm8 (42_arith_logic R284). -/
def execShrRm32Imm8 (rm : Rm32) (count : Byte) (s : State) : Outcome :=
  (shiftWrite .shr (Rm32.place rm) count s).outcome

/-- `D1 20` SHL r/m32, 1 (implied) (42_arith_logic R283). -/
def execShlRm32One (rm : Rm32) (s : State) : Outcome :=
  (shiftWrite .shl (Rm32.place rm) 1 s).outcome

/-- `D1 28` SHR r/m32, 1 (implied) (42_arith_logic R284). -/
def execShrRm32One (rm : Rm32) (s : State) : Outcome :=
  (shiftWrite .shr (Rm32.place rm) 1 s).outcome

/-- `F7 00` TEST r/m32, imm32 (42_arith_logic R280). -/
def execTestRm32Imm32 (rm : Rm32) (imm : Word) (s : State) : Outcome :=
  (aluTest .and .dword (Rm32.place rm) (.imm32 imm) s).outcome

/-- `F7 08` TEST r/m32, imm32 (42_arith_logic R280). -/
def execTestRm32Imm32Alt (rm : Rm32) (imm : Word) (s : State) : Outcome :=
  (aluTest .and .dword (Rm32.place rm) (.imm32 imm) s).outcome

/-- `F7 10` NOT r/m32 (42_arith_logic R281). -/
def execNotRm32 (rm : Rm32) (s : State) : Outcome :=
  (unaryWrite (fun a => ~~~a) (fun _ f => f) (Rm32.place rm) s).outcome

/-- `F7 18` NEG r/m32 (42_arith_logic R282). -/
def execNegRm32 (rm : Rm32) (s : State) : Outcome :=
  (unaryWrite (fun a => 0 - a) (fun a f => subFlags 32 0 a false f) (Rm32.place rm) s).outcome

end Sys2Proof.Machine
end

