-- ==== Sys2Proof/Machine/Control.lean ====
section
/-! DEFINITION. Control transfer instructions (spec/44_control.md). -/

namespace Sys2Proof.Machine

/-- `70` JO (44_control R332). -/
def execJoRel8 (rel : Byte) (s : State) : Outcome :=
  (jumpRel8If .o rel s).outcome

/-- `71` JNO (44_control R333). -/
def execJnoRel8 (rel : Byte) (s : State) : Outcome :=
  (jumpRel8If .no rel s).outcome

/-- `72` JC (44_control R334). -/
def execJcRel8 (rel : Byte) (s : State) : Outcome :=
  (jumpRel8If .c rel s).outcome

/-- `73` JNC (44_control R335). -/
def execJncRel8 (rel : Byte) (s : State) : Outcome :=
  (jumpRel8If .nc rel s).outcome

/-- `74` JZ (44_control R336). -/
def execJzRel8 (rel : Byte) (s : State) : Outcome :=
  (jumpRel8If .z rel s).outcome

/-- `75` JNZ (44_control R337). -/
def execJnzRel8 (rel : Byte) (s : State) : Outcome :=
  (jumpRel8If .nz rel s).outcome

/-- `76` JBE (44_control R338). -/
def execJbeRel8 (rel : Byte) (s : State) : Outcome :=
  (jumpRel8If .be rel s).outcome

/-- `77` JA (44_control R339). -/
def execJaRel8 (rel : Byte) (s : State) : Outcome :=
  (jumpRel8If .a rel s).outcome

/-- `78` JS (44_control R340). -/
def execJsRel8 (rel : Byte) (s : State) : Outcome :=
  (jumpRel8If .s rel s).outcome

/-- `79` JNS (44_control R341). -/
def execJnsRel8 (rel : Byte) (s : State) : Outcome :=
  (jumpRel8If .ns rel s).outcome

/-- `7A` JP (44_control R342). -/
def execJpRel8 (rel : Byte) (s : State) : Outcome :=
  (jumpRel8If .p rel s).outcome

/-- `7B` JNP (44_control R343). -/
def execJnpRel8 (rel : Byte) (s : State) : Outcome :=
  (jumpRel8If .np rel s).outcome

/-- `7C` JL (44_control R344). -/
def execJlRel8 (rel : Byte) (s : State) : Outcome :=
  (jumpRel8If .l rel s).outcome

/-- `7D` JGE (44_control R345). -/
def execJgeRel8 (rel : Byte) (s : State) : Outcome :=
  (jumpRel8If .ge rel s).outcome

/-- `7E` JLE (44_control R346). -/
def execJleRel8 (rel : Byte) (s : State) : Outcome :=
  (jumpRel8If .le rel s).outcome

/-- `7F` JG (44_control R347). -/
def execJgRel8 (rel : Byte) (s : State) : Outcome :=
  (jumpRel8If .g rel s).outcome

/-- `0F 8C` JL (44_control R348). -/
def execJlTarget32 (target : Word) (s : State) : Outcome :=
  if Cond.l.holds s.flags then .next (jumpAbs target s) else .next s

/-- `EB` JMP (44_control R349). -/
def execJmpRel8 (rel : Byte) (s : State) : Outcome :=
  .next (jumpRel8 rel s)

/-- `E9` JMP (44_control R350). -/
def execJmpTarget32 (target : Word) (s : State) : Outcome :=
  .next (jumpAbs target s)

/-- `E8` CALL (44_control R351). -/
def execCallTarget32 (target : Word) (s : State) : Outcome :=
  ((push s.eip s).bind fun _ s => .ok () (jumpAbs target s)).outcome

/-- `C3` RET (44_control R352). -/
def execRet (s : State) : Outcome :=
  ((pop s).bind fun v s => .ok () (s.setEip v)).outcome

end Sys2Proof.Machine
end

