-- ==== Sys2Proof/Machine/DataTransfer.lean ====
section
/-! DEFINITION. Data transfer instructions (spec/41_data_transfer.md). -/

namespace Sys2Proof.Machine

/-- `63` MOVSXD r32, r/m32 (41_data_transfer R245). -/
def execMovsxdR32Rm32 (r : Reg32) (rm : Rm32) (s : State) : Outcome :=
  (move (.reg32 r) (.place (Rm32.place rm)) s).outcome

/-- `87` XCHG r/m32, r32 (41_data_transfer R246). -/
def execXchgRm32R32 (rm : Rm32) (r : Reg32) (s : State) : Outcome :=
  (readPlace (Rm32.place rm) s).bind (fun a s =>
    (readPlace (.reg32 r) s).bind fun b s =>
    (writePlace (Rm32.place rm) b s).bind fun _ s =>
    writePlace (.reg32 r) a s) |>.outcome

/-- `88` MOV r/m8, r8 (41_data_transfer R241). -/
def execMovRm8R8 (rm : Rm8) (r : Reg8) (s : State) : Outcome :=
  (move (Rm8.place rm) (.place (.reg8 r)) s).outcome

/-- `89` MOV r/m32, r32 (41_data_transfer R241). -/
def execMovRm32R32 (rm : Rm32) (r : Reg32) (s : State) : Outcome :=
  (move (Rm32.place rm) (.place (.reg32 r)) s).outcome

/-- `A3` MOV [addr32], EAX (41_data_transfer R244). -/
def execMovAddr32Eax (addr : Word) (s : State) : Outcome :=
  (memWrite addr .dword (s.reg .eax) s).outcome

/-- `B0` MOV r8, imm8 (41_data_transfer R242). -/
def execMovR8Imm8 (r : Reg8) (imm : Byte) (s : State) : Outcome :=
  (move (.reg8 r) (.imm8 imm) s).outcome

/-- `B8` MOV r32, imm32 (41_data_transfer R243). -/
def execMovR32Imm32 (r : Reg32) (imm : Word) (s : State) : Outcome :=
  (move (.reg32 r) (.imm32 imm) s).outcome

/-- `50` PUSH r32 (41_data_transfer R247). -/
def execPushR32 (r : Reg32) (s : State) : Outcome :=
  (push (s.reg r) s).outcome

/-- `58` POP r32 (41_data_transfer R248). -/
def execPopR32 (r : Reg32) (s : State) : Outcome :=
  ((pop s).bind fun v s => .ok () (s.setReg r v)).outcome

/-- `9C` PUSHF (41_data_transfer R249). -/
def execPushf (s : State) : Outcome :=
  (push s.flags.pack s).outcome

/-- `9D` POPF (41_data_transfer R250). -/
def execPopf (s : State) : Outcome :=
  ((pop s).bind fun v s =>
    .ok () { s with flags := Flags.unpack v, interruptEnabled := (Flags.unpack v).intf }).outcome

end Sys2Proof.Machine
end

