-- ==== Sys2Proof/Machine/MulDiv.lean ====
section
/-! DEFINITION. Multiply and divide instructions (spec/43_mul_div.md). -/

namespace Sys2Proof.Machine

/-- Whether a true product is in the signed 32-bit range (43_mul_div R311, R312). -/
def fitsSigned32 (p : Int) : Bool := decide (-2 ^ 31 ≤ p ∧ p ≤ 2 ^ 31 - 1)

/-- The IDIV quotient, by `P_IDIV` (43_mul_div R314, log 5). -/
def idivQuotient (p : Params) (n d : Int) : Int :=
  match p.idiv with
  | .trunc => n.tdiv d
  | .floor => n.fdiv d

/-- `F7 20` MUL r/m32 (43_mul_div R310). -/
def execMulRm32 (rm : Rm32) (s : State) : Outcome :=
  ((readPlace (Rm32.place rm) s).bind fun x s =>
    let p := (s.reg .eax).toNat * x.toNat
    let low := BitVec.ofNat 32 p
    let s := (s.setReg .eax low).setReg .edx 0
    .ok () (s.setFlags (mulFlags low (decide (p ≤ 0xFFFFFFFF)) s.flags))).outcome

/-- `F7 28` IMUL r/m32 (43_mul_div R311). -/
def execImulRm32 (rm : Rm32) (s : State) : Outcome :=
  ((readPlace (Rm32.place rm) s).bind fun x s =>
    let p := (s.reg .eax).toInt * x.toInt
    let low := BitVec.ofInt 32 p
    let s := (s.setReg .eax low).setReg .edx 0
    .ok () (s.setFlags (mulFlags low (fitsSigned32 p) s.flags))).outcome

/-- `0F AF` IMUL2 r32, r/m32 (43_mul_div R312). -/
def execImul2R32Rm32 (r : Reg32) (rm : Rm32) (s : State) : Outcome :=
  ((readPlace (.reg32 r) s).bind fun a s =>
    (readPlace (Rm32.place rm) s).bind fun b s =>
    let p := a.toInt * b.toInt
    let low := BitVec.ofInt 32 p
    (writePlace (.reg32 r) low s).bind fun _ s =>
    .ok () (s.setFlags (mulFlags low (fitsSigned32 p) s.flags))).outcome

/-- `F7 30` DIV r/m32 (43_mul_div R313). -/
def execDivRm32 (rm : Rm32) (s : State) : Outcome :=
  ((readPlace (Rm32.place rm) s).bind fun x s =>
    let a := s.reg .eax
    if x = 0 then raise (Fault.divideByZero s.eip) s
    else .ok () ((s.setReg .eax (BitVec.ofNat 32 (a.toNat / x.toNat))).setReg .edx
      (BitVec.ofNat 32 (a.toNat % x.toNat)))).outcome

/-- `F7 38` IDIV r/m32 (43_mul_div R314). -/
def execIdivRm32 (rm : Rm32) (s : State) : Outcome :=
  ((readPlace (Rm32.place rm) s).bind fun x s =>
    let n := (s.reg .eax).toInt
    let d := x.toInt
    let q := idivQuotient s.params n d
    if x = 0 then raise (Fault.divideByZero s.eip) s
    else if fitsSigned32 q then
      .ok () ((s.setReg .eax (BitVec.ofInt 32 q)).setReg .edx (BitVec.ofInt 32 (n - q * d)))
    else raise (Fault.divideOverflow s.eip) s).outcome

end Sys2Proof.Machine
end

