-- ==== Sys2Proof/Machine/System.lean ====
section
/-! DEFINITION. System, flag-control and counter instructions (spec/45_system.md). -/

namespace Sys2Proof.Machine

/-- `90` NOP (45_system R370). -/
def execNop (s : State) : Outcome :=
  .next s

/-- `F4` HLT (45_system R371). -/
def execHlt (s : State) : Outcome :=
  .next { s with halted := true }

/-- `CD` INT (45_system R372). -/
def execIntImm8 (_vector : Byte) (s : State) : Outcome :=
  .next { s with interrupts := s.interrupts + 1 }

/-- `FA` CLI (45_system R373). -/
def execCli (s : State) : Outcome :=
  .next { s with flags := { s.flags with intf := false }, interruptEnabled := false }

/-- `FB` STI (45_system R374). -/
def execSti (s : State) : Outcome :=
  .next { s with flags := { s.flags with intf := true }, interruptEnabled := true }

/-- `FC` CLD (45_system R375). -/
def execCld (s : State) : Outcome :=
  .next (s.setFlags { s.flags with df := false })

/-- `FD` STD (45_system R376). -/
def execStd (s : State) : Outcome :=
  .next (s.setFlags { s.flags with df := true })

/-- `0F 31` RDTSC (45_system R377). -/
def execRdtsc (s : State) : Outcome :=
  .next (((afterClockDraw s).setReg .eax ((clockDraw s).extractLsb' 0 32)).setReg .edx
    ((clockDraw s).extractLsb' 32 32))

/-- `0F C7 30` RDRAND r/m32 (45_system R378). -/
def execRdrandRm32 (rm : Rm32) (s : State) : Outcome :=
  (drawInto (Rm32.place rm) s).outcome

/-- `0F C7 38` RDSEED r/m32 (45_system R379). -/
def execRdseedRm32 (rm : Rm32) (s : State) : Outcome :=
  (drawInto (Rm32.place rm) s).outcome

end Sys2Proof.Machine
end

