-- ==== Sys2Proof/Machine/Dispatch.lean ====
section
/-! DEFINITION. `execute(ins, EIP0)`: one arm per constructor of `Instr` (spec/40_execution.md R204). -/

namespace Sys2Proof.Machine

def exec (i : Instr) (s : State) : Host.Outcome State Fault Refusal :=
  match i with
  | .addRm8R8 rm r => Sys2Proof.Machine.execAddRm8R8 rm r s
  | .addRm32R32 rm r => Sys2Proof.Machine.execAddRm32R32 rm r s
  | .addR8Rm8 r rm => Sys2Proof.Machine.execAddR8Rm8 r rm s
  | .addR32Rm32 r rm => Sys2Proof.Machine.execAddR32Rm32 r rm s
  | .orRm8R8 rm r => Sys2Proof.Machine.execOrRm8R8 rm r s
  | .orRm32R32 rm r => Sys2Proof.Machine.execOrRm32R32 rm r s
  | .andRm8R8 rm r => Sys2Proof.Machine.execAndRm8R8 rm r s
  | .andRm32R32 rm r => Sys2Proof.Machine.execAndRm32R32 rm r s
  | .subRm8R8 rm r => Sys2Proof.Machine.execSubRm8R8 rm r s
  | .subRm32R32 rm r => Sys2Proof.Machine.execSubRm32R32 rm r s
  | .xorRm8R8 rm r => Sys2Proof.Machine.execXorRm8R8 rm r s
  | .xorRm32R32 rm r => Sys2Proof.Machine.execXorRm32R32 rm r s
  | .cmpRm8R8 rm r => Sys2Proof.Machine.execCmpRm8R8 rm r s
  | .cmpRm32R32 rm r => Sys2Proof.Machine.execCmpRm32R32 rm r s
  | .movsxdR32Rm32 r rm => Sys2Proof.Machine.execMovsxdR32Rm32 r rm s
  | .testRm32R32 rm r => Sys2Proof.Machine.execTestRm32R32 rm r s
  | .xchgRm32R32 rm r => Sys2Proof.Machine.execXchgRm32R32 rm r s
  | .movRm8R8 rm r => Sys2Proof.Machine.execMovRm8R8 rm r s
  | .movRm32R32 rm r => Sys2Proof.Machine.execMovRm32R32 rm r s
  | .andEaxImm32 imm => Sys2Proof.Machine.execAndEaxImm32 imm s
  | .xorEaxImm32 imm => Sys2Proof.Machine.execXorEaxImm32 imm s
  | .cmpEaxImm32 imm => Sys2Proof.Machine.execCmpEaxImm32 imm s
  | .incR32 r => Sys2Proof.Machine.execIncR32 r s
  | .decR32 r => Sys2Proof.Machine.execDecR32 r s
  | .pushR32 r => Sys2Proof.Machine.execPushR32 r s
  | .popR32 r => Sys2Proof.Machine.execPopR32 r s
  | .joRel8 rel => Sys2Proof.Machine.execJoRel8 rel s
  | .jnoRel8 rel => Sys2Proof.Machine.execJnoRel8 rel s
  | .jcRel8 rel => Sys2Proof.Machine.execJcRel8 rel s
  | .jncRel8 rel => Sys2Proof.Machine.execJncRel8 rel s
  | .jzRel8 rel => Sys2Proof.Machine.execJzRel8 rel s
  | .jnzRel8 rel => Sys2Proof.Machine.execJnzRel8 rel s
  | .jbeRel8 rel => Sys2Proof.Machine.execJbeRel8 rel s
  | .jaRel8 rel => Sys2Proof.Machine.execJaRel8 rel s
  | .jsRel8 rel => Sys2Proof.Machine.execJsRel8 rel s
  | .jnsRel8 rel => Sys2Proof.Machine.execJnsRel8 rel s
  | .jpRel8 rel => Sys2Proof.Machine.execJpRel8 rel s
  | .jnpRel8 rel => Sys2Proof.Machine.execJnpRel8 rel s
  | .jlRel8 rel => Sys2Proof.Machine.execJlRel8 rel s
  | .jgeRel8 rel => Sys2Proof.Machine.execJgeRel8 rel s
  | .jleRel8 rel => Sys2Proof.Machine.execJleRel8 rel s
  | .jgRel8 rel => Sys2Proof.Machine.execJgRel8 rel s
  | .addRm32Imm32 rm imm => Sys2Proof.Machine.execAddRm32Imm32 rm imm s
  | .orRm32Imm32 rm imm => Sys2Proof.Machine.execOrRm32Imm32 rm imm s
  | .adcRm32Imm32 rm imm => Sys2Proof.Machine.execAdcRm32Imm32 rm imm s
  | .sbbRm32Imm32 rm imm => Sys2Proof.Machine.execSbbRm32Imm32 rm imm s
  | .andRm32Imm32 rm imm => Sys2Proof.Machine.execAndRm32Imm32 rm imm s
  | .subRm32Imm32 rm imm => Sys2Proof.Machine.execSubRm32Imm32 rm imm s
  | .xorRm32Imm32 rm imm => Sys2Proof.Machine.execXorRm32Imm32 rm imm s
  | .cmpRm32Imm32 rm imm => Sys2Proof.Machine.execCmpRm32Imm32 rm imm s
  | .addRm32Imm8 rm imm => Sys2Proof.Machine.execAddRm32Imm8 rm imm s
  | .orRm32Imm8 rm imm => Sys2Proof.Machine.execOrRm32Imm8 rm imm s
  | .adcRm32Imm8 rm imm => Sys2Proof.Machine.execAdcRm32Imm8 rm imm s
  | .sbbRm32Imm8 rm imm => Sys2Proof.Machine.execSbbRm32Imm8 rm imm s
  | .andRm32Imm8 rm imm => Sys2Proof.Machine.execAndRm32Imm8 rm imm s
  | .subRm32Imm8 rm imm => Sys2Proof.Machine.execSubRm32Imm8 rm imm s
  | .xorRm32Imm8 rm imm => Sys2Proof.Machine.execXorRm32Imm8 rm imm s
  | .cmpRm32Imm8 rm imm => Sys2Proof.Machine.execCmpRm32Imm8 rm imm s
  | .shlRm32Imm8 rm count => Sys2Proof.Machine.execShlRm32Imm8 rm count s
  | .shrRm32Imm8 rm count => Sys2Proof.Machine.execShrRm32Imm8 rm count s
  | .shlRm32One rm => Sys2Proof.Machine.execShlRm32One rm s
  | .shrRm32One rm => Sys2Proof.Machine.execShrRm32One rm s
  | .testRm32Imm32 rm imm => Sys2Proof.Machine.execTestRm32Imm32 rm imm s
  | .testRm32Imm32Alt rm imm => Sys2Proof.Machine.execTestRm32Imm32Alt rm imm s
  | .notRm32 rm => Sys2Proof.Machine.execNotRm32 rm s
  | .negRm32 rm => Sys2Proof.Machine.execNegRm32 rm s
  | .mulRm32 rm => Sys2Proof.Machine.execMulRm32 rm s
  | .imulRm32 rm => Sys2Proof.Machine.execImulRm32 rm s
  | .divRm32 rm => Sys2Proof.Machine.execDivRm32 rm s
  | .idivRm32 rm => Sys2Proof.Machine.execIdivRm32 rm s
  | .nop => Sys2Proof.Machine.execNop s
  | .pushf => Sys2Proof.Machine.execPushf s
  | .popf => Sys2Proof.Machine.execPopf s
  | .ret => Sys2Proof.Machine.execRet s
  | .hlt => Sys2Proof.Machine.execHlt s
  | .cli => Sys2Proof.Machine.execCli s
  | .sti => Sys2Proof.Machine.execSti s
  | .cld => Sys2Proof.Machine.execCld s
  | .std => Sys2Proof.Machine.execStd s
  | .movAddr32Eax addr => Sys2Proof.Machine.execMovAddr32Eax addr s
  | .movR8Imm8 r imm => Sys2Proof.Machine.execMovR8Imm8 r imm s
  | .movR32Imm32 r imm => Sys2Proof.Machine.execMovR32Imm32 r imm s
  | .intImm8 vector => Sys2Proof.Machine.execIntImm8 vector s
  | .callTarget32 target => Sys2Proof.Machine.execCallTarget32 target s
  | .jmpTarget32 target => Sys2Proof.Machine.execJmpTarget32 target s
  | .jmpRel8 rel => Sys2Proof.Machine.execJmpRel8 rel s
  | .rdtsc => Sys2Proof.Machine.execRdtsc s
  | .jlTarget32 target => Sys2Proof.Machine.execJlTarget32 target s
  | .imul2R32Rm32 r rm => Sys2Proof.Machine.execImul2R32Rm32 r rm s
  | .rdrandRm32 rm => Sys2Proof.Machine.execRdrandRm32 rm s
  | .rdseedRm32 rm => Sys2Proof.Machine.execRdseedRm32 rm s

end Sys2Proof.Machine
end

