-- ==== Sys2Proof/Machine/Step.lean ====
section
/-! DEFINITION. `step()` (spec/40_execution.md R200, R201, R202), and the placing of an instruction for
the next step (log 17). -/

namespace Sys2Proof.Machine

/-- One step: nothing while halted (R201); else decode, execute, retire (R200). -/
def step (s : State) : Host.Outcome State Fault Refusal :=
  if s.halted then .next s
  else
    match fetch s with
    | .fault f => .fault f
    | .ok i s1 =>
      match exec i s1 with
      | .next s2 => .next (retire i s.eip s2)
      | .fault f => .fault f
      | .refused r => .refused r

/-- Stands for loading a program at EIP from outside (70_reset R443, log 17): the table word's bytes are
where the next fetch reads, their page is mapped, and the machine is not halted. -/
def State.withFetchWord (s : State) (nbits w : Nat) : State :=
  { s with halted := false, mmu := s.mmu.place s.params s.eip (tableWordBytes nbits w) }

end Sys2Proof.Machine
end

