-- ==== Sys2Proof/Machine/HostOps.lean ====
section
/-! DEFINITION. The operations the host calls between steps (spec/20_memory.md R125 to R133,
spec/30_encoding.md R191, spec/60_exceptions.md R407, R428 to R436, spec/70_reset_and_hazards.md R440 to
R442; log 18). -/

namespace Sys2Proof.Machine

/-! ## Creation and reset -/

/-- `CPU::new(memorySize)` (70_reset R440); `phys` is what `P_MEM_INIT` gives. -/
def cpuNew (p : Params) (memorySize : Nat) (phys : Memory) : State :=
  .create { p with memSize := memorySize } phys

/-- `reset()`: everything but physical memory, breakpoints, the parameters and the draws
(70_reset R441, logs 8, 11, 12). -/
def hostReset (s : State) : State :=
  { State.create s.params s.mmu.phys with
    breakpoints := s.breakpoints
    mmu := { Mmu.create s.params s.mmu.phys with fillDraws := s.mmu.fillDraws }
    clockDraws := s.clockDraws
    clockLast := s.clockLast
    randDraws := s.randDraws }

/-- `setEIP`, the spec's own extension (70_reset R442). -/
def setEip (a : Word) (s : State) : State := s.setEip a

/-! ## Operations on the MMU -/

def onMmu (f : Mmu → Mmu) (s : State) : State := s.setMmu (f s.mmu)

/-- 20_memory R126. -/
def protectPage (page : Nat) : State → State :=
  onMmu fun m => { m with protectedPages := setInsert m.protectedPages page }

/-- 20_memory R127. -/
def unprotectPage (page : Nat) : State → State :=
  onMmu fun m => { m with protectedPages := setErase m.protectedPages page }

/-- 20_memory R128. -/
def unprotectAllPages : State → State := onMmu fun m => { m with protectedPages := [] }

/-- 20_memory R129. -/
def freePage (page : Nat) : State → State := onMmu fun m => m.evict page

/-- 20_memory R130. -/
def clearCaches (s : State) : State :=
  onMmu (fun m => { m with
    tlb := [], l1 := [], l2 := [], pageDir := []
    freeFrames := List.range s.params.nframes
    cacheClock := 0 }) s

/-- 20_memory R131. -/
def resetStatistics : State → State := onMmu fun m => { m with counters := .zero }

/-- `readByte`, `readWord`, `readDWord` (20_memory R133). -/
def hostRead (v : Word) (w : Width) (s : State) : Res Word := memRead v w s

/-- `writeByte`, `writeWord`, `writeDWord` (20_memory R133). -/
def hostWrite (v : Word) (w : Width) (x : Word) (s : State) : Res Unit := memWrite v w x s

/-- One `MemWrite` for each byte of a program (20_memory R125). -/
def loadBytes : List Byte → Word → State → Res Unit
  | [], _, s => .ok () s
  | b :: bs, a, s => (memWrite a .byte (b.setWidth 32) s).bind fun _ s => loadBytes bs (a + 1) s

/-- The pages that `len` bytes from `start` on overlap (20_memory R125). -/
def spannedPages (start : Word) (len : Nat) : List Nat :=
  if len = 0 then []
  else List.range' (start.toNat / 4096) ((start.toNat + len - 1) / 4096 - start.toNat / 4096 + 1)

/-- `loadProgram(bytes, startAddr)`: the writes, then the protection (20_memory R125). -/
def loadProgram (bytes : List Byte) (start : Word) (s : State) : Outcome :=
  if start.toNat + bytes.length > 2 ^ 32 then .refused .loadPastAddressSpace
  else
    ((loadBytes bytes start s).bind fun _ s =>
      .ok () ((spannedPages start bytes.length).foldl (fun s p => protectPage p s) s)).outcome

/-! ## Breakpoints and running (60_exceptions R430 to R432) -/

def setBreakpoint (a : Word) (s : State) : State :=
  { s with breakpoints := setInsertBy BitVec.toNat s.breakpoints a }

def removeBreakpoint (a : Word) (s : State) : State :=
  { s with breakpoints := s.breakpoints.filter fun b => b ≠ a }

def clearBreakpoints (s : State) : State := { s with breakpoints := [] }

def isAtBreakpoint (s : State) : Bool := decide (s.eip ∈ s.breakpoints)

def isHalted (s : State) : Bool := s.halted

/-- How a bounded run ends: by its own test, at the step bound, or by an error or refusal. -/
inductive RunResult where
  | stopped (s : State)
  | outOfSteps (s : State)
  | fault (f : Fault)
  | refused (r : Refusal)
  deriving DecidableEq, Repr

/-- `runUntilBreakpoint()` with at most `bound` steps; the test is made before every step
(60_exceptions R431, log 23). -/
def runUntilBreakpoint : Nat → State → RunResult
  | bound, s =>
    if s.halted ∨ s.eip ∈ s.breakpoints then .stopped s
    else
      match bound with
      | 0 => .outOfSteps s
      | n + 1 =>
        match step s with
        | .next s => runUntilBreakpoint n s
        | .fault f => .fault f
        | .refused r => .refused r

/-! ## Snapshots and statistics -/

/-- `CPUState` (60_exceptions R433). -/
structure CpuState where
  regs : Regs
  eip : Word
  flags : Flags
  halted : Bool
  instructionCount : Nat
  cycleCount : Nat
  interrupts : Nat
  interruptEnabled : Bool
  segmentRegisters : Nat
  controlRegisters : Nat
  deriving DecidableEq, Repr

def getState (s : State) : CpuState :=
  { regs := s.regs, eip := s.eip, flags := s.flags, halted := s.halted
    instructionCount := s.instructionCount, cycleCount := s.cycleCount, interrupts := s.interrupts
    interruptEnabled := s.interruptEnabled
    segmentRegisters := s.segmentRegisters, controlRegisters := s.controlRegisters }

/-- A ratio, 0 when its denominator is 0 (20_memory R132, 60_exceptions R428). -/
def ratio (n d : Nat) : Rat := if d = 0 then 0 else (n : Rat) / (d : Rat)

/-- What the MMU's `getStatistics()` returns (20_memory R132). -/
structure MmuStatistics where
  counters : MmuCounters
  cacheHitRate : Rat
  tlbHitRate : Rat
  deriving DecidableEq, Repr

def getMmuStatistics (s : State) : MmuStatistics :=
  let c := s.mmu.counters
  { counters := c
    cacheHitRate := ratio c.cacheHits (c.cacheHits + c.cacheMisses)
    tlbHitRate := ratio c.tlbHits (c.tlbHits + c.tlbMisses) }

/-- What the CPU's `getStatistics()` returns (60_exceptions R428). -/
structure Statistics where
  instructionCount : Nat
  cycleCount : Nat
  interrupts : Nat
  mmu : MmuStatistics
  utilization : Rat
  deriving DecidableEq, Repr

def getStatistics (s : State) : Statistics :=
  { instructionCount := s.instructionCount
    cycleCount := s.cycleCount
    interrupts := s.interrupts
    mmu := getMmuStatistics s
    utilization := ratio s.instructionCount s.cycleCount * 100 }

/-- 60_exceptions R436. -/
def getMmu (s : State) : Mmu := s.mmu
/-- 60_exceptions R436; the Decoder has no state (10_state R54). -/
def getDecoder (_ : State) : Fetch := decoder

/-! ## Disassembly (30_encoding R191) -/

/-- `getInstructionAt(addr)`. -/
def getInstructionAt (a : Word) (s : State) : Res Instruction :=
  (decodeAt a s).bind fun i s => .ok i.record s

/-- `getInstructionsAt(addr, count)`: a `DecodeError` ends the list, another error propagates. -/
def getInstructionsAt : Nat → Word → State → Res (List Instruction)
  | 0, _, s => .ok [] s
  | n + 1, a, s =>
    match decodeAt a s with
    | .ok i s =>
      (getInstructionsAt n (a + BitVec.ofNat 32 i.size) s).bind fun rest s => .ok (i.record :: rest) s
    | .fault (.decodeError _ _ left) => .ok [] left
    | .fault f => .fault f

/-! ## Registers by name (60_exceptions R407) -/

/-- The names of the 32-bit registers (10_state R31). -/
def Reg32.name : Reg32 → String
  | .eax => "EAX" | .ecx => "ECX" | .edx => "EDX" | .ebx => "EBX"
  | .esp => "ESP" | .ebp => "EBP" | .esi => "ESI" | .edi => "EDI"

/-- The names of the 8-bit registers (10_state R32). -/
def Reg8.name : Reg8 → String
  | .al => "AL" | .cl => "CL" | .dl => "DL" | .bl => "BL"
  | .ah => "AH" | .ch => "CH" | .dh => "DH" | .bh => "BH"

def allReg32 : List Reg32 := [.eax, .ecx, .edx, .ebx, .esp, .ebp, .esi, .edi]
def allReg8 : List Reg8 := [.al, .cl, .dl, .bl, .ah, .ch, .dh, .bh]

/-- A read of a register by its name; the sixteen names are the only ones (60_exceptions R407). -/
def readRegisterByName (name : String) (s : State) : Res Word :=
  match allReg32.find? fun r => Reg32.name r == name with
  | some r => .ok (s.reg r) s
  | none =>
    match allReg8.find? fun r => Reg8.name r == name with
    | some r => .ok ((s.regs.get8 r).setWidth 32) s
    | none => raise (Fault.unknownRegister name) s

end Sys2Proof.Machine
end

