-- ==== Sys2Proof/Safety.lean ====
section
/-! DEFINITION. The terms claims are stated in: what an access or an operand gives, the invariant of the
machine, what stays unchanged, and the meaning of the flags as numbers. -/

namespace Sys2Proof.Machine

/-! ## Memory as a claim sees it -/

/-- One byte of physical memory: the model's read of one byte. -/
def State.byteAt (s : State) (a : Nat) : Byte := s.mmu.phys.read a

/-- The physical address an access at `v` moves its bytes from or to (20_memory R82, R88). -/
def physAddr (v : Word) (s : State) : Option Nat :=
  match s.mmu.translate s.params v with
  | .ok a _ => some a
  | .err _ _ => none

/-- An access of width `w` at `v` completes: its page has or gets a frame, and its bytes lie in memory. -/
def Accessible (v : Word) (w : Width) (s : State) : Prop :=
  ∃ a, physAddr v s = some a ∧ a + w.bytes ≤ s.params.memSize

/-- The value an access of width `w` at `v` reads (20_memory R95). -/
def loadedValue (v : Word) (w : Width) (s : State) : Word :=
  match s.mmu.translate s.params v with
  | .ok a m => wordOfBytes (m.phys.readBytes a w.bytes)
  | .err _ _ => 0

/-- `n` bytes where the fetch at EIP finds its first byte (30_encoding R180). -/
def codeBytes (n : Nat) (s : State) : List Byte :=
  match s.mmu.translate s.params s.eip with
  | .ok a m => m.phys.readBytes a n
  | .err _ _ => []

/-- The frame a page has without a page fault. -/
def frameOf (s : State) (page : Nat) : Option Nat :=
  match tableFind s.mmu.tlb page with
  | some f => some f
  | none => s.mmu.residentFrame page

/-- The bytes of an access of width `w` at `v`. -/
def accessBytes (v : Word) (w : Width) (s : State) (a : Nat) : Prop :=
  ∃ b, physAddr v s = some b ∧ b ≤ a ∧ a < b + w.bytes

/-! ## Operands as a claim sees them -/

/-- Reading and writing the place completes. -/
def placeReady (p : Place) (s : State) : Prop :=
  match p with
  | .reg8 _ => True
  | .reg32 _ => True
  | .mem w m => Accessible (effectiveAddress m s) w s

/-- The value of a place, as an unsigned number below 2^(8w) (40_execution R205). -/
def placeValue (p : Place) (s : State) : Word :=
  match p with
  | .reg8 r => (s.regs.get8 r).setWidth 32
  | .reg32 r => s.reg r
  | .mem w m => loadedValue (effectiveAddress m s) w s

def operandReady (o : Operand) (s : State) : Prop :=
  match o with
  | .place p => placeReady p s
  | .imm8 _ => True
  | .imm32 _ => True

/-- The value of an operand; an imm8 is 0 to 255 (40_execution R205). -/
def operandValue (o : Operand) (s : State) : Word :=
  match o with
  | .place p => placeValue p s
  | .imm8 v => v.setWidth 32
  | .imm32 v => v

/-- The bytes a write of the place stores. -/
def storedBytes (p : Place) (s : State) (a : Nat) : Prop :=
  match p with
  | .reg8 _ => False
  | .reg32 _ => False
  | .mem w m => accessBytes (effectiveAddress m s) w s a

/-- The 32-bit registers a write of the place changes. -/
def writtenRegs (p : Place) : List Reg32 :=
  match p with
  | .reg8 r => [Reg8.parent r]
  | .reg32 r => [r]
  | .mem _ _ => []

/-- A place or an operand in memory. -/
def placeInMemory : Place → Prop
  | .reg8 _ => False
  | .reg32 _ => False
  | .mem _ _ => True

def operandInMemory : Operand → Prop
  | .place p => placeInMemory p
  | .imm8 _ => False
  | .imm32 _ => False

/-- A value as a place of this width holds it. -/
def truncate (w : Width) (v : Word) : Word := BitVec.ofNat 32 (v.toNat % 2 ^ (8 * w.bytes))

/-! ## What stays unchanged -/

/-- The frame was given to a page between `s` and `t`. -/
def newlyMapped (s t : State) (frame : Nat) : Prop :=
  ∃ page, t.mmu.residentFrame page = some frame ∧ s.mmu.residentFrame page ≠ some frame

/-- Every byte outside `stored` reads as before; a frame that a page fault has just given to a page is
left out only where `P_FRAME_FILL` writes its contents (20_memory R92). -/
def MemoryKept (stored : Nat → Prop) (s t : State) : Prop :=
  ∀ a, ¬ stored a → (s.params.frameFill = .keep ∨ ¬ newlyMapped s t (a / 4096)) →
    t.byteAt a = s.byteAt a

/-- No memory byte is stored to. -/
def noBytes (_ : Nat) : Prop := False

/-- Every 32-bit register but those listed keeps its value. -/
def RegsKept (written : List Reg32) (s t : State) : Prop := ∀ r, r ∉ written → t.reg r = s.reg r

/-- An 8-bit place leaves the other bytes of its register alone (10_state R33). -/
def OtherBytesKept (p : Place) (s t : State) : Prop :=
  match p with
  | .reg8 r =>
    (t.reg (Reg8.parent r)).extractLsb' 16 16 = (s.reg (Reg8.parent r)).extractLsb' 16 16 ∧
      ∀ r', r' ≠ r → t.regs.get8 r' = s.regs.get8 r'
  | .reg32 _ => True
  | .mem _ _ => True

/-- Everything but registers, flags and the MMU is the same; EIP is among what is the same. -/
def OnlyRegsFlagsMmu (s t : State) : Prop := t = { s with regs := t.regs, flags := t.flags, mmu := t.mmu }

/-- The frame of an instruction that goes on at the next one: only the bytes `stored`, the registers
`written`, flags, and what an access does to the MMU can change. -/
def Kept (stored : Nat → Prop) (written : List Reg32) (s t : State) : Prop :=
  OnlyRegsFlagsMmu s t ∧ MemoryKept stored s t ∧ RegsKept written s t ∧
  t.mmu.protectedPages = s.mmu.protectedPages

/-- TF, IF and DF are the same. -/
def ControlFlagsKept (s t : State) : Prop :=
  t.flags.tf = s.flags.tf ∧ t.flags.intf = s.flags.intf ∧ t.flags.df = s.flags.df

/-! ## The flags as numbers (40_execution R215 to R219) -/

/-- The low `n` bits of a value as a two's-complement number. -/
def signedLow (n : Nat) (x : Word) : Int := (x.setWidth n).toInt

/-- A number is outside the signed `n`-bit range. -/
def outsideSigned (n : Nat) (x : Int) : Bool := decide (x < -2 ^ (n - 1) ∨ 2 ^ (n - 1) ≤ x)

/-- ZF, SF and PF of a result on `n` bits. -/
def ResultFlags (n : Nat) (r : Word) (f : Flags) : Prop :=
  f.zf = decide (r.toNat % 2 ^ n = 0) ∧
  f.sf = decide (2 ^ (n - 1) ≤ r.toNat % 2 ^ n) ∧
  f.pf = decide (((List.range 8).filter fun i => r.getLsbD i).length % 2 = 0)

/-- The flags of `a + b + c` on `n` bits (40_execution R216). -/
def SumFlags (n : Nat) (a b : Word) (c : Bool) (f : Flags) : Prop :=
  ResultFlags n (BitVec.ofNat 32 (a.toNat + b.toNat + c.toNat)) f ∧
  f.cf = decide (2 ^ n ≤ a.toNat + b.toNat + c.toNat) ∧
  f.of = outsideSigned n (signedLow n a + signedLow n b + c.toNat) ∧
  f.af = decide (15 < a.toNat % 16 + b.toNat % 16 + c.toNat)

/-- The flags of `a - b - c` on `n` bits (40_execution R217). -/
def DifferenceFlags (n : Nat) (a b : Word) (c : Bool) (f : Flags) : Prop :=
  ResultFlags n (BitVec.ofInt 32 ((a.toNat : Int) - b.toNat - c.toNat)) f ∧
  f.cf = decide (a.toNat < b.toNat + c.toNat) ∧
  f.of = outsideSigned n (signedLow n a - signedLow n b - c.toNat) ∧
  f.af = decide (a.toNat % 16 < b.toNat % 16 + c.toNat)

/-- The flags of a logic operation with result `r` on `n` bits (40_execution R218). -/
def BitwiseFlags (n : Nat) (r : Word) (f : Flags) : Prop :=
  ResultFlags n r f ∧ f.cf = false ∧ f.of = false ∧ f.af = false

/-- The exact meaning of a two-operand operation: its result as a number, and its flags. -/
def AluMeaning (op : AluOp) (n : Nat) (a b : Word) (c : Bool) (r : Word) (f : Flags) : Prop :=
  match op with
  | .add => r = BitVec.ofNat 32 (a.toNat + b.toNat) ∧ SumFlags n a b false f
  | .adc => r = BitVec.ofNat 32 (a.toNat + b.toNat + c.toNat) ∧ SumFlags n a b c f
  | .sub => r = BitVec.ofInt 32 ((a.toNat : Int) - b.toNat) ∧ DifferenceFlags n a b false f
  | .sbb => r = BitVec.ofInt 32 ((a.toNat : Int) - b.toNat - c.toNat) ∧ DifferenceFlags n a b c f
  | .and => (∀ i, r.getLsbD i = (a.getLsbD i && b.getLsbD i)) ∧ BitwiseFlags n r f
  | .or => (∀ i, r.getLsbD i = (a.getLsbD i || b.getLsbD i)) ∧ BitwiseFlags n r f
  | .xor => (∀ i, r.getLsbD i = (a.getLsbD i != b.getLsbD i)) ∧ BitwiseFlags n r f

/-! ## The forms of the two-operand operations (30_encoding R150, R152) -/

/-- Operation, width, destination and source of a form that writes its destination. -/
def aluForm : Instr → Option (AluOp × Width × Place × Operand)
  | .addRm8R8 rm r => some (.add, .byte, Rm8.place rm, .place (.reg8 r))
  | .addRm32R32 rm r => some (.add, .dword, Rm32.place rm, .place (.reg32 r))
  | .addR8Rm8 r rm => some (.add, .byte, .reg8 r, .place (Rm8.place rm))
  | .addR32Rm32 r rm => some (.add, .dword, .reg32 r, .place (Rm32.place rm))
  | .orRm8R8 rm r => some (.or, .byte, Rm8.place rm, .place (.reg8 r))
  | .orRm32R32 rm r => some (.or, .dword, Rm32.place rm, .place (.reg32 r))
  | .andRm8R8 rm r => some (.and, .byte, Rm8.place rm, .place (.reg8 r))
  | .andRm32R32 rm r => some (.and, .dword, Rm32.place rm, .place (.reg32 r))
  | .subRm8R8 rm r => some (.sub, .byte, Rm8.place rm, .place (.reg8 r))
  | .subRm32R32 rm r => some (.sub, .dword, Rm32.place rm, .place (.reg32 r))
  | .xorRm8R8 rm r => some (.xor, .byte, Rm8.place rm, .place (.reg8 r))
  | .xorRm32R32 rm r => some (.xor, .dword, Rm32.place rm, .place (.reg32 r))
  | .andEaxImm32 imm => some (.and, .dword, .reg32 .eax, .imm32 imm)
  | .xorEaxImm32 imm => some (.xor, .dword, .reg32 .eax, .imm32 imm)
  | .addRm32Imm32 rm imm => some (.add, .dword, Rm32.place rm, .imm32 imm)
  | .orRm32Imm32 rm imm => some (.or, .dword, Rm32.place rm, .imm32 imm)
  | .adcRm32Imm32 rm imm => some (.adc, .dword, Rm32.place rm, .imm32 imm)
  | .sbbRm32Imm32 rm imm => some (.sbb, .dword, Rm32.place rm, .imm32 imm)
  | .andRm32Imm32 rm imm => some (.and, .dword, Rm32.place rm, .imm32 imm)
  | .subRm32Imm32 rm imm => some (.sub, .dword, Rm32.place rm, .imm32 imm)
  | .xorRm32Imm32 rm imm => some (.xor, .dword, Rm32.place rm, .imm32 imm)
  | .addRm32Imm8 rm imm => some (.add, .dword, Rm32.place rm, .imm8 imm)
  | .orRm32Imm8 rm imm => some (.or, .dword, Rm32.place rm, .imm8 imm)
  | .adcRm32Imm8 rm imm => some (.adc, .dword, Rm32.place rm, .imm8 imm)
  | .sbbRm32Imm8 rm imm => some (.sbb, .dword, Rm32.place rm, .imm8 imm)
  | .andRm32Imm8 rm imm => some (.and, .dword, Rm32.place rm, .imm8 imm)
  | .subRm32Imm8 rm imm => some (.sub, .dword, Rm32.place rm, .imm8 imm)
  | .xorRm32Imm8 rm imm => some (.xor, .dword, Rm32.place rm, .imm8 imm)
  | _ => none

/-- Operation, width and operands of a form that only writes flags: CMP and TEST. -/
def testForm : Instr → Option (AluOp × Width × Place × Operand)
  | .cmpRm8R8 rm r => some (.sub, .byte, Rm8.place rm, .place (.reg8 r))
  | .cmpRm32R32 rm r => some (.sub, .dword, Rm32.place rm, .place (.reg32 r))
  | .cmpEaxImm32 imm => some (.sub, .dword, .reg32 .eax, .imm32 imm)
  | .cmpRm32Imm32 rm imm => some (.sub, .dword, Rm32.place rm, .imm32 imm)
  | .cmpRm32Imm8 rm imm => some (.sub, .dword, Rm32.place rm, .imm8 imm)
  | .testRm32R32 rm r => some (.and, .dword, Rm32.place rm, .place (.reg32 r))
  | .testRm32Imm32 rm imm => some (.and, .dword, Rm32.place rm, .imm32 imm)
  | .testRm32Imm32Alt rm imm => some (.and, .dword, Rm32.place rm, .imm32 imm)
  | _ => none

/-- Destination and source of the forms that copy: MOV and MOVSXD (41_data_transfer R241 to R245). -/
def moveForm : Instr → Option (Width × Place × Operand)
  | .movRm8R8 rm r => some (.byte, Rm8.place rm, .place (.reg8 r))
  | .movRm32R32 rm r => some (.dword, Rm32.place rm, .place (.reg32 r))
  | .movR8Imm8 r imm => some (.byte, .reg8 r, .imm8 imm)
  | .movR32Imm32 r imm => some (.dword, .reg32 r, .imm32 imm)
  | .movAddr32Eax a => some (.dword, .mem .dword (.abs a), .place (.reg32 .eax))
  | .movsxdR32Rm32 r rm => some (.dword, .reg32 r, .place (Rm32.place rm))
  | _ => none

/-- Operation, destination and count of the shift forms (42_arith_logic R283, R284). -/
def shiftForm : Instr → Option (ShiftOp × Rm32 × Byte)
  | .shlRm32Imm8 rm n => some (.shl, rm, n)
  | .shrRm32Imm8 rm n => some (.shr, rm, n)
  | .shlRm32One rm => some (.shl, rm, 1)
  | .shrRm32One rm => some (.shr, rm, 1)
  | _ => none

/-- The r/m32 operand of the other instructions that read one before they write anything
(41_data_transfer R246, 42_arith_logic R281 to R284, 43_mul_div R310 to R314). -/
def readForm : Instr → Option Rm32
  | .xchgRm32R32 rm _ => some rm
  | .imul2R32Rm32 _ rm => some rm
  | .shlRm32Imm8 rm _ => some rm
  | .shrRm32Imm8 rm _ => some rm
  | .shlRm32One rm => some rm
  | .shrRm32One rm => some rm
  | .notRm32 rm => some rm
  | .negRm32 rm => some rm
  | .mulRm32 rm => some rm
  | .imulRm32 rm => some rm
  | .divRm32 rm => some rm
  | .idivRm32 rm => some rm
  | _ => none

/-- The destination of RDRAND and RDSEED, which is written and not read (45_system R378, R379). -/
def drawForm : Instr → Option Rm32
  | .rdrandRm32 rm => some rm
  | .rdseedRm32 rm => some rm
  | _ => none

/-- The instructions that pop (41_data_transfer R248, R250, 44_control R352). -/
def popForm : Instr → Bool
  | .popR32 _ => true
  | .popf => true
  | .ret => true
  | _ => false

/-- An operand of the instruction, or the stack word it pops, is in memory and cannot be accessed. -/
def ReadsInaccessible (i : Instr) (s : State) : Prop :=
  (∃ w dst src, (moveForm i = some (w, dst, src) ∨ (∃ op, testForm i = some (op, w, dst, src)) ∨
      ∃ op, aluForm i = some (op, w, dst, src) ∧ (op = .adc ∨ op = .sbb → s.params.adcSbb = .ia32)) ∧
    (¬ placeReady dst s ∨ ¬ operandReady src s)) ∨
  (∃ rm, readForm i = some rm ∧ ¬ placeReady (Rm32.place rm) s) ∨
  (popForm i = true ∧ ¬ Accessible (s.reg .esp) .dword s)

/-- The error is one of the two a memory access raises (60_exceptions R402, R403). -/
def AccessError (f : Fault) : Prop :=
  f = .outOfPhysicalMemory f.left ∨ ∃ v a n, f = .memoryAccessViolation v a n f.left

/-- The condition of a short conditional jump as a test of the flags, and its rel8 (44_control R331). -/
def jccForm (f : Flags) : Instr → Option (Bool × Byte)
  | .joRel8 rel => some (f.of, rel)
  | .jnoRel8 rel => some (!f.of, rel)
  | .jcRel8 rel => some (f.cf, rel)
  | .jncRel8 rel => some (!f.cf, rel)
  | .jzRel8 rel => some (f.zf, rel)
  | .jnzRel8 rel => some (!f.zf, rel)
  | .jbeRel8 rel => some (f.cf || f.zf, rel)
  | .jaRel8 rel => some (!(f.cf || f.zf), rel)
  | .jsRel8 rel => some (f.sf, rel)
  | .jnsRel8 rel => some (!f.sf, rel)
  | .jpRel8 rel => some (f.pf, rel)
  | .jnpRel8 rel => some (!f.pf, rel)
  | .jlRel8 rel => some (decide (f.sf ≠ f.of), rel)
  | .jgeRel8 rel => some (decide (f.sf = f.of), rel)
  | .jleRel8 rel => some (f.zf || decide (f.sf ≠ f.of), rel)
  | .jgRel8 rel => some (!f.zf && decide (f.sf = f.of), rel)
  | _ => none

/-! ## The invariant (10_state R43, R48 to R52) -/

/-- The byte store: canonical, and inside `[0, MEM_SIZE)`. -/
abbrev PhysInv (p : Params) (m : Mmu) : Prop := m.phys.wf ∧ ∀ c ∈ m.phys, c.1 < p.memSize

/-- The frames the page directory's entries own. -/
def Mmu.ownedFrames (m : Mmu) : List Nat := m.pageDir.map fun e => e.2.frameNumber

/-- 10_state R52 (a), (b): one entry a page, one frame an entry, and the free frames are the others. -/
abbrev DirInv (p : Params) (m : Mmu) : Prop :=
  (m.pageDir.map fun e => e.1).Nodup ∧
  m.ownedFrames.Nodup ∧
  (∀ e ∈ m.pageDir, e.1 < 2 ^ 20 ∧ e.2.present = true ∧ e.2.frameNumber < p.nframes) ∧
  m.freeFrames = (List.range p.nframes).filter fun f => f ∉ m.ownedFrames

/-- 10_state R52 (c): at most 64 entries, one a page, each the frame the directory gives. -/
abbrev TlbInv (m : Mmu) : Prop :=
  (m.tlb.map fun e => e.1).Nodup ∧ m.tlb.length ≤ 64 ∧ ∀ e ∈ m.tlb, m.residentFrame e.1 = some e.2

/-- 10_state R50, 20_memory R94, R102: the caches are within their capacities, and no two lines hold the
same `lastAccess`. -/
abbrev CacheInv (p : Params) (m : Mmu) : Prop :=
  m.l1.Pairwise (fun x y => x.1 < y.1) ∧ m.l1.length ≤ 256 ∧
  m.l2.Pairwise (fun x y => x.1 < y.1) ∧ (∀ n ∈ p.l2Cap, m.l2.length ≤ n) ∧
  (∀ e ∈ m.l1 ++ m.l2, e.2.valid = true ∧ e.2.dirty = false ∧ e.2.lastAccess ≤ m.cacheClock ∧
    e.1 % 64 = 0) ∧
  ∀ e ∈ m.l1 ++ m.l2, ∀ e' ∈ m.l1 ++ m.l2, e.2.lastAccess = e'.2.lastAccess → e.1 = e'.1

abbrev Mmu.Inv (p : Params) (m : Mmu) : Prop :=
  PhysInv p m ∧ DirInv p m ∧ m.protectedPages.Pairwise (· < ·) ∧ TlbInv m ∧ CacheInv p m

/-- What every step keeps. -/
abbrev State.Inv (s : State) : Prop :=
  s.params.wf ∧ s.mmu.Inv s.params ∧ s.interruptEnabled = s.flags.intf ∧
  s.breakpoints.Pairwise (fun a b => a.toNat < b.toNat) ∧
  s.segmentRegisters = 0 ∧ s.controlRegisters = 0

/-! ## What the host can do between steps -/

/-- The state an operation leaves, whether it completed or raised. -/
def Res.left {α : Type} : Res α → State
  | .ok _ t => t
  | .fault f => f.left

/-- The states an operation of the host leads to, completed or raised, `step`, `runUntilBreakpoint` and
`reset` apart (60_exceptions R407, R430 to R436, 20_memory R125 to R133, 30_encoding R191; `setEip` is
the extension of log 18). -/
inductive HostLeaves (s : State) : State → Prop where
  /-- `isHalted`, `isAtBreakpoint`, `getState`, `getStatistics`, `getMMU`, `getDecoder`. -/
  | looked : HostLeaves s s
  | namedRegister (name : String) : HostLeaves s (readRegisterByName name s).left
  | pageProtected (page : Nat) : HostLeaves s (protectPage page s)
  | pageUnprotected (page : Nat) : HostLeaves s (unprotectPage page s)
  | pagesUnprotected : HostLeaves s (unprotectAllPages s)
  | freed (page : Nat) : HostLeaves s (freePage page s)
  | clearedCaches : HostLeaves s (clearCaches s)
  | resetCounters : HostLeaves s (resetStatistics s)
  | breakpointSet (a : Word) : HostLeaves s (setBreakpoint a s)
  | breakpointRemoved (a : Word) : HostLeaves s (removeBreakpoint a s)
  | breakpointsCleared : HostLeaves s (clearBreakpoints s)
  | eipSet (a : Word) : HostLeaves s (setEip a s)
  | read (v : Word) (w : Width) : HostLeaves s (hostRead v w s).left
  | wrote (v : Word) (w : Width) (x : Word) : HostLeaves s (hostWrite v w x s).left
  | disassembled (a : Word) : HostLeaves s (getInstructionAt a s).left
  | disassembledMany (n : Nat) (a : Word) : HostLeaves s (getInstructionsAt n a s).left
  | loaded (bytes : List Byte) (a : Word) {t : State} (h : loadProgram bytes a s = .next t) :
      HostLeaves s t
  | loadRaised (bytes : List Byte) (a : Word) {f : Fault} (h : loadProgram bytes a s = .fault f) :
      HostLeaves s f.left

/-- The property holds of the state a run leaves, however it ends; a refusal leaves none (log 22). -/
def RunResult.Leaves (P : State → Prop) : RunResult → Prop
  | .stopped t => P t
  | .outOfSteps t => P t
  | .fault f => P f.left
  | .refused _ => True

/-! ## What the hidden state cannot show (10_state R53) -/

/-- Two MMUs differ at most in the TLB, the caches, the cache clock and the counters. -/
def Mmu.SameData (m n : Mmu) : Prop :=
  m.phys = n.phys ∧ m.pageDir = n.pageDir ∧ m.freeFrames = n.freeFrames ∧
  m.protectedPages = n.protectedPages ∧ m.fillDraws = n.fillDraws

/-- Two states differ at most in the TLB, the caches, the cache clock and the counters of their MMUs. -/
def State.SameData (s t : State) : Prop := s.mmu.SameData t.mmu ∧ t = { s with mmu := t.mmu }

/-- Two outcomes are of the same kind and leave states that have the same data. -/
def SameOutcome : Outcome → Outcome → Prop
  | .next s, .next t => s.SameData t
  | .refused a, .refused b => a = b
  | .fault f, .fault g =>
    f.left.SameData g.left ∧
    match f, g with
    | .decodeError a c _, .decodeError b d _ => a = b ∧ c = d
    | .memoryAccessViolation a p n _, .memoryAccessViolation b q k _ => a = b ∧ p = q ∧ n = k
    | .outOfPhysicalMemory _, .outOfPhysicalMemory _ => True
    | .divideByZero a _, .divideByZero b _ => a = b
    | .divideOverflow a _, .divideOverflow b _ => a = b
    | .unknownRegister a _, .unknownRegister b _ => a = b
    | _, _ => False
  | _, _ => False

/-- Two states differ at most in TF, IF, DF and `interruptEnabled`. -/
def State.SameButControlFlags (s t : State) : Prop :=
  t = { s with
    flags := { s.flags with tf := t.flags.tf, intf := t.flags.intf, df := t.flags.df }
    interruptEnabled := t.interruptEnabled }

/-! ## Illegal encodings (30_encoding R160) -/

/-- 30_encoding R160 (a), as the rule lists the first bytes. -/
def illegalFirstByte (b : Byte) : Prop :=
  let n := b.toNat
  (0x04 ≤ n ∧ n ≤ 0x07) ∨ (0x0A ≤ n ∧ n ≤ 0x0E) ∨ (0x10 ≤ n ∧ n ≤ 0x1F) ∨ (0x22 ≤ n ∧ n ≤ 0x24) ∨
  (0x26 ≤ n ∧ n ≤ 0x27) ∨ (0x2A ≤ n ∧ n ≤ 0x2F) ∨ (0x32 ≤ n ∧ n ≤ 0x34) ∨ (0x36 ≤ n ∧ n ≤ 0x37) ∨
  (0x3A ≤ n ∧ n ≤ 0x3C) ∨ (0x3E ≤ n ∧ n ≤ 0x3F) ∨ (0x60 ≤ n ∧ n ≤ 0x62) ∨ (0x64 ≤ n ∧ n ≤ 0x6F) ∨
  n = 0x80 ∨ n = 0x82 ∨ n = 0x84 ∨ n = 0x86 ∨ (0x8A ≤ n ∧ n ≤ 0x8F) ∨ (0x91 ≤ n ∧ n ≤ 0x9B) ∨
  (0x9E ≤ n ∧ n ≤ 0xA2) ∨ (0xA4 ≤ n ∧ n ≤ 0xAF) ∨ n = 0xC0 ∨ n = 0xC2 ∨ (0xC4 ≤ n ∧ n ≤ 0xCC) ∨
  (0xCE ≤ n ∧ n ≤ 0xD0) ∨ (0xD2 ≤ n ∧ n ≤ 0xE7) ∨ n = 0xEA ∨ (0xEC ≤ n ∧ n ≤ 0xF3) ∨
  (0xF5 ≤ n ∧ n ≤ 0xF6) ∨ (0xF8 ≤ n ∧ n ≤ 0xF9) ∨ (0xFE ≤ n ∧ n ≤ 0xFF)

/-- The rejections of 30_encoding R160 (a), (b), (c), each with the bytes it is decided by. -/
def IllegalEncoding (bs : List Byte) (e : DecodeReject) : Prop :=
  (∃ op rest, bs = op :: rest ∧ illegalFirstByte op ∧ e = .unknownOpcode op) ∨
  (∃ op2 rest, bs = 0x0F :: op2 :: rest ∧ op2 ∉ [0x31, 0x8C, 0xAF, 0xC7] ∧ e = .unknownTwoByte op2) ∨
  (∃ op m rest, bs = op :: m :: rest ∧ op ∈ [0xC1, 0xD1] ∧ modrmReg m ∉ [4, 5] ∧
    e = .invalidGroup op none m) ∨
  ∃ m rest, bs = 0x0F :: 0xC7 :: m :: rest ∧ modrmReg m ∉ [6, 7] ∧
    e = .invalidGroup 0x0F (some 0xC7) m

/-! ## Safe runs -/

/-- `n` steps complete without an error or a refusal (a proof about a program holds for such runs,
60_exceptions R406). -/
def SafeFor (n : Nat) (s : State) : Prop := ∃ t : State, Host.Core.run Sys2Proof.core n s = Host.Outcome.next t

end Sys2Proof.Machine
end

