-- ==== Sys2Proof/Certificates/Slice0/Obligations.lean ====
section
/-! DEFINITION. The statements for the provers, over the terms of Sys2Proof/Safety.lean. Each docstring
names the rules it rests on. -/

open Sys2Proof Sys2Proof.Machine

/-! ## Encoding -/

/-- Decoding the encoding of a well-formed instruction gives it back, whatever bytes follow
(30_encoding R140 to R153, R180). -/
def Obligations.DecodeOfEncode : Prop :=
  ∀ (i : Instr) (rest : List Byte), i.wf → decode (encode i ++ rest) = .instr i rest

/-- Every instruction the decoder gives is well-formed, and the bytes it was read from are its encoding:
no two encodings give one instruction (30_encoding R140 to R153, R180). -/
def Obligations.EncodeOfDecode : Prop :=
  ∀ (bs rest : List Byte) (i : Instr), decode bs = .instr i rest → i.wf ∧ bs = encode i ++ rest

/-- An encoding matches its own row of the opcode table and no other row (30_encoding R150, R151). -/
def Obligations.EncodingMatchesOneRow : Prop :=
  ∀ i : Instr, OpcodeRow.fits i.row (encode i) = true ∧
    ∀ j : Instr, OpcodeRow.fits j.row (encode i) = true → j.row = i.row

/-- Words written out from the encodings of the spec decode to the instruction they stand for. -/
def Obligations.SpecWordsDecode : Prop :=
  decode [0x01, 0b11011000] = .instr (.addRm32R32 (.reg .eax) .ebx) [] ∧
  decode [0x00, 0b01001101, 0xF0] = .instr (.addRm8R8 (.mem (.disp8 .ebp 0xF0)) .cl) [] ∧
  decode [0x89, 0b00000101, 0x00, 0x20, 0x00, 0x00] =
    .instr (.movRm32R32 (.mem (.abs 0x2000)) .eax) [] ∧
  decode [0x83, 0b00000100, 0x05] = .instr (.addRm32Imm8 (.mem (.ind .esp)) 5) [] ∧
  decode [0xF7, 0b11110001] = .instr (.divRm32 (.reg .ecx)) [] ∧
  decode [0xB8, 0x2A, 0x00, 0x00, 0x00] = .instr (.movR32Imm32 .eax 0x2A) [] ∧
  decode [0x7C, 0x10] = .instr (.jlRel8 0x10) [] ∧
  decode [0x0F, 0x8C, 0x00, 0x30, 0x00, 0x00] = .instr (.jlTarget32 0x3000) [] ∧
  decode [0x0F, 0xC7, 0b11110000] = .instr (.rdrandRm32 (.reg .eax)) []

/-- The illegal encodings are exactly those of 30_encoding R160, each rejected by name, whatever bytes
follow the one that decides it (R162). -/
def Obligations.IllegalEncodingsExactly : Prop :=
  ∀ (bs : List Byte) (e : DecodeReject), decode bs = .reject e ↔ IllegalEncoding bs e

/-! ## The step -/

/-- When the bytes at EIP, in one page, decode to `i`, the step is `exec i` after the fetch, then the
counters and EIP of 40_execution R200; the fetch changes nothing but the MMU and stores no byte. -/
def Obligations.StepRunsDecodedInstruction : Prop :=
  ∀ (s : State) (i : Instr) (a : Nat), s.halted = false → physAddr s.eip s = some a →
    offsetOf s.eip + i.size ≤ 4096 → a + i.size ≤ s.params.memSize →
    decode (codeBytes i.size s) = .instr i [] →
    ∃ s1 : State, s1 = s.setMmu s1.mmu ∧ MemoryKept noBytes s s1 ∧ fetch s = .ok i s1 ∧
      step s = match exec i s1 with
        | .next t => .next { t with
            instructionCount := t.instructionCount + 1
            cycleCount := t.cycleCount + cycleCost i.mnemonic
            eip := if t.eip = s.eip then s.eip + BitVec.ofNat 32 i.size else t.eip }
        | .fault f => .fault f
        | .refused r => .refused r

/-- What a fetch gives, wherever the instruction lies: the instruction is well-formed, only the MMU has
changed, and exactly its parts were read, each as one transaction (30_encoding R183). -/
def Obligations.FetchReadsTheParts : Prop :=
  ∀ (s s1 : State) (i : Instr), fetch s = .ok i s1 →
    i.wf ∧ s1 = s.setMmu s1.mmu ∧
    (s.params.frameFill = .keep → ∀ a, s1.byteAt a = s.byteAt a) ∧
    s1.mmu.counters.tlbHits + s1.mmu.counters.tlbMisses =
      s.mmu.counters.tlbHits + s.mmu.counters.tlbMisses + i.parts ∧
    s1.mmu.counters.cacheHits + s1.mmu.counters.cacheMisses =
      s.mmu.counters.cacheHits + s.mmu.counters.cacheMisses + i.parts

/-- A halted step does nothing and a run of a halted machine makes no step; HLT is the only instruction
that halts; reset ends it, and nothing else does: no step that raises and no other operation of the
host, completed or raised (10_state R42, 40_execution R201, 60_exceptions R408, R434, R435; the host
operation `setEip` is the extension of log 18). -/
def Obligations.HaltedStepDoesNothing : Prop :=
  (∀ s : State, s.halted = true → step s = .next s) ∧
  (∀ (n : Nat) (s : State), s.halted = true → runUntilBreakpoint n s = .stopped s) ∧
  (∀ (i : Instr) (s t : State), exec i s = .next t → (t.halted = true ↔ s.halted = true ∨ i = .hlt)) ∧
  (∀ (s : State) (f : Fault), step s = .fault f → f.left.halted = s.halted) ∧
  (∀ s t : State, HostLeaves s t → t.halted = s.halted) ∧
  (∀ s : State, (hostReset s).halted = false) ∧ State.reset.halted = false

/-- What a step that raises leaves: only the MMU, the count of draws (log 12) and, below a failed push,
ESP have changed; no byte was stored (40_execution R202, R210, 60_exceptions R408). -/
def Obligations.FailedStepLeavesTheState : Prop :=
  ∀ (s : State) (f : Fault), step s = .fault f →
    f.left = { s with regs := f.left.regs, mmu := f.left.mmu, randDraws := f.left.randDraws } ∧
    (f.left.regs = s.regs ∨
      f.left.regs = s.regs.set .esp (s.reg .esp - 4) ∧
        ∃ (i : Instr) (s1 : State), fetch s = .ok i s1 ∧ i.mnemonic ∈ [.push, .pushf, .call]) ∧
    f.left.mmu.protectedPages = s.mmu.protectedPages ∧
    (s.params.frameFill = .keep → ∀ a, f.left.byteAt a = s.byteAt a)

/-- A failed fetch ends the step: nothing is executed (40_execution R200, R202; 60_exceptions R401). -/
def Obligations.FailedFetchEndsTheStep : Prop :=
  ∀ (s : State) (f : Fault), s.halted = false → fetch s = .fault f →
    step s = .fault f ∧ f.left = s.setMmu f.left.mmu ∧
    (∀ (a : Word) (e : DecodeReject) (t : State), f = .decodeError a e t → a = s.eip)

/-- No step writes the parameters, the breakpoints, the inert registers or the set of protected pages;
IF and `interruptEnabled` stay equal (10_state R43, R46, R47, R54, 20_memory R126 to R128); the last
clock value, a field of the model's own (log 11), never falls (45_system R377, 60_exceptions R420). -/
def Obligations.WhatNoStepWrites : Prop :=
  ∀ s t : State, (step s = .next t ∨ ∃ f, step s = .fault f ∧ t = f.left) →
    t.params = s.params ∧ t.breakpoints = s.breakpoints ∧
    t.segmentRegisters = s.segmentRegisters ∧ t.controlRegisters = s.controlRegisters ∧
    t.mmu.protectedPages = s.mmu.protectedPages ∧ s.clockLast ≤ t.clockLast ∧
    (s.interruptEnabled = s.flags.intf → t.interruptEnabled = t.flags.intf)

/-- The writers of each flag (10_state R38). -/
def Obligations.FlagWriters : Prop :=
  ∀ (i : Instr) (s t : State), exec i s = .next t →
    (t.flags.tf ≠ s.flags.tf → i.mnemonic = .popf) ∧
    (t.flags.intf ≠ s.flags.intf → i.mnemonic ∈ [.cli, .sti, .popf]) ∧
    (t.flags.df ≠ s.flags.df → i.mnemonic ∈ [.cld, .std, .popf]) ∧
    (t.flags.af ≠ s.flags.af → i.mnemonic ∈ [.add, .adc, .sub, .sbb, .cmp, .and, .or, .xor, .test,
      .inc, .dec, .neg, .popf, .rdrand, .rdseed]) ∧
    ((t.flags.cf ≠ s.flags.cf ∨ t.flags.zf ≠ s.flags.zf ∨ t.flags.sf ≠ s.flags.sf ∨
        t.flags.pf ≠ s.flags.pf ∨ t.flags.of ≠ s.flags.of) →
      i.mnemonic ∈ [.add, .adc, .sub, .sbb, .cmp, .and, .or, .xor, .test, .inc, .dec, .neg, .shl, .shr,
        .mul, .imul, .imul2, .popf, .rdrand, .rdseed])

/-- TF, IF and DF have no effect on any instruction but PUSHF (10_state R40). -/
def Obligations.ControlFlagsAreInert : Prop :=
  ∀ (i : Instr) (s s' t : State), i ≠ .pushf → s.SameButControlFlags s' → exec i s = .next t →
    ∃ t', exec i s' = .next t' ∧ t.SameButControlFlags t'

/-! ## Invariants -/

/-- The state after reset, and every newly created machine, whatever `P_MEM_INIT` puts into its physical
memory, meets the invariant (10_state R48, R52, 70_reset R440; the contents are a list of cells: log 9). -/
def Obligations.ResetMeetsInvariant : Prop :=
  State.reset.Inv ∧
  ∀ (p : Params) (memorySize : Nat) (phys : Memory), Params.wf { p with memSize := memorySize } →
    phys.wf → (∀ c ∈ phys, c.1 < memorySize) → (cpuNew p memorySize phys).Inv

/-- Every step keeps the invariant, whether it completes or raises (10_state R43, R48 to R52,
20_memory R94, R102). -/
def Obligations.StepKeepsInvariant : Prop :=
  ∀ s : State, s.Inv →
    (∀ t, step s = .next t → t.Inv) ∧ (∀ f, step s = .fault f → f.left.Inv)

/-- Every operation of the host keeps the invariant, whether it completes or raises (20_memory R125 to
R133, 30_encoding R191, 60_exceptions R407, R430, R431, R435, 70_reset R441, R457; `setEip` is the
extension of log 18, the step bound is log 23). -/
def Obligations.HostOperationsKeepInvariant : Prop :=
  ∀ s : State, s.Inv →
    (∀ t, HostLeaves s t → t.Inv) ∧ (hostReset s).Inv ∧
    ∀ n, (runUntilBreakpoint n s).Leaves State.Inv

/-- The TLB, the caches, the cache clock and the counters decide no value: states that differ only in
them take the same step (10_state R53). -/
def Obligations.HiddenStateDecidesNothing : Prop :=
  ∀ s t : State, s.Inv → t.Inv → s.SameData t → SameOutcome (step s) (step t)

/-! ## Memory -/

/-- A read of a page that has a frame gives the bytes of the byte store, little-endian, whatever the
caches hold, and changes no byte (20_memory R81, R82, R95, R97). -/
def Obligations.ReadGivesTheStoredBytes : Prop :=
  ∀ (s : State) (v : Word) (w : Width) (f : Nat), frameOf s (pageOf v) = some f →
    f * 4096 + offsetOf v + w.bytes ≤ s.params.memSize →
    ∃ t : State, memRead v w s = .ok (BitVec.ofNat 32
        (((List.range w.bytes).map fun i =>
          (s.byteAt (f * 4096 + offsetOf v + i)).toNat * 256 ^ i).sum)) t ∧
      t = s.setMmu t.mmu ∧ (∀ a, t.byteAt a = s.byteAt a) ∧ t.mmu.pageDir = s.mmu.pageDir ∧
      t.mmu.freeFrames = s.mmu.freeFrames

/-- A write that completes is read back at its own width, and changes no other byte
(20_memory R81, R100, R101). -/
def Obligations.WriteThenRead : Prop :=
  ∀ (s : State) (v x : Word) (w : Width), Accessible v w s →
    ∃ t u : State, memWrite v w x s = .ok () t ∧ memRead v w t = .ok (truncate w x) u ∧
      t = s.setMmu t.mmu ∧ MemoryKept (accessBytes v w s) s t ∧
      ∀ a, u.byteAt a = t.byteAt a

/-- A byte of a doubleword just written, in one page, reads as that byte of the value (20_memory R81). -/
def Obligations.BytesOfAWrittenDoubleword : Prop :=
  ∀ (s : State) (v x : Word) (i : Nat), Accessible v .dword s → offsetOf v + 4 ≤ 4096 → i < 4 →
    ∃ t u : State, memWrite v .dword x s = .ok () t ∧
      memRead (v + BitVec.ofNat 32 i) .byte t = .ok ((x >>> (8 * i)) &&& 0xFF) u

/-- An access whose bytes run past MEM_SIZE raises MemoryAccessViolation with its addresses, and moves
no byte (20_memory R97, R101; 60_exceptions R402). -/
def Obligations.AccessPastMemoryIsAViolation : Prop :=
  ∀ (s : State) (v x : Word) (w : Width) (a : Nat), physAddr v s = some a →
    s.params.memSize < a + w.bytes →
    (∃ t, memRead v w s = .fault (.memoryAccessViolation v a w.bytes t) ∧ t = s.setMmu t.mmu ∧
      MemoryKept noBytes s t) ∧
    (∃ t, memWrite v w x s = .fault (.memoryAccessViolation v a w.bytes t) ∧ t = s.setMmu t.mmu ∧
      MemoryKept noBytes s t)

/-- OutOfPhysicalMemory is raised exactly when the page has no frame, no frame is free and every
resident page is protected (20_memory R90; 60_exceptions R403). -/
def Obligations.OutOfMemoryExactly : Prop :=
  ∀ (s : State) (v x : Word) (w : Width),
    ((∃ t, memRead v w s = .fault (.outOfPhysicalMemory t)) ↔
      frameOf s (pageOf v) = none ∧ s.mmu.freeFrames = [] ∧
        ∀ e ∈ s.mmu.pageDir, e.1 ∈ s.mmu.protectedPages) ∧
    ((∃ t, memWrite v w x s = .fault (.outOfPhysicalMemory t)) ↔
      frameOf s (pageOf v) = none ∧ s.mmu.freeFrames = [] ∧
        ∀ e ∈ s.mmu.pageDir, e.1 ∈ s.mmu.protectedPages)

/-- A page fault takes the smallest free frame, which then is not free; when none is free it takes the
frame of the first page of the directory that is not protected, which loses its entry. The new page is
the last entry, and every other page keeps its frame. That the free frames are ascending is part of
`DirInv` (20_memory R85, R88, R90, R91, 10_state R52; log 19). -/
def Obligations.PageFaultTakesAFrame : Prop :=
  ∀ (s : State) (v : Word), frameOf s (pageOf v) = none →
    (∀ f, DirInv s.params s.mmu → f ∈ s.mmu.freeFrames → (∀ g ∈ s.mmu.freeFrames, f ≤ g) →
      ∃ m, s.mmu.translate s.params v = .ok (f * 4096 + offsetOf v) m ∧
        (∀ g, g ∈ m.freeFrames ↔ g ∈ s.mmu.freeFrames ∧ g ≠ f) ∧
        m.residentFrame (pageOf v) = some f ∧
        m.pageDir.getLast? = some (pageOf v, newEntry f) ∧
        ∀ q, q ≠ pageOf v → m.residentFrame q = s.mmu.residentFrame q) ∧
    (∀ pre page e post, s.mmu.freeFrames = [] → s.mmu.pageDir = pre ++ (page, e) :: post →
      (∀ d ∈ pre, d.1 ∈ s.mmu.protectedPages) → page ∉ s.mmu.protectedPages →
      ∃ m, s.mmu.translate s.params v = .ok (e.frameNumber * 4096 + offsetOf v) m ∧
        m.freeFrames = [] ∧
        m.residentFrame (pageOf v) = some e.frameNumber ∧
        (page ≠ pageOf v → m.residentFrame page = none) ∧
        m.pageDir.getLast? = some (pageOf v, newEntry e.frameNumber) ∧
        ∀ q, q ≠ pageOf v → q ≠ page → m.residentFrame q = s.mmu.residentFrame q)

/-- A protected page keeps its frame through every step (10_state R52 (d), 20_memory R90). -/
def Obligations.ProtectedPagesStay : Prop :=
  ∀ (s t : State) (page f : Nat), page ∈ s.mmu.protectedPages →
    s.mmu.residentFrame page = some f →
    (step s = .next t ∨ ∃ e, step s = .fault e ∧ t = e.left) →
    t.mmu.residentFrame page = some f

/-- The effective address of each memory shape, modulo 2^32 (40_execution R206). -/
def Obligations.EffectiveAddresses : Prop :=
  ∀ (s : State) (a d : Word) (b : Reg32) (k : Byte),
    effectiveAddress (.abs a) s = a ∧
    effectiveAddress (.ind b) s = s.reg b ∧
    (effectiveAddress (.disp32 b d) s).toNat = ((s.reg b).toNat + d.toNat) % 2 ^ 32 ∧
    (s.params.disp8Ea = .sext →
      effectiveAddress (.disp8 b k) s = BitVec.ofInt 32 ((s.reg b).toNat + k.toInt)) ∧
    (s.params.disp8Ea = .zext →
      effectiveAddress (.disp8 b k) s = BitVec.ofNat 32 ((s.reg b).toNat + k.toNat))

/-! ## Registers and the flags word -/

/-- A write of a 32-bit register stores the value; a write of an 8-bit register stores the low byte and
leaves the other 24 bits; a read of an 8-bit register is its byte, zero-extended (10_state R33). -/
def Obligations.RegisterWrites : Prop :=
  (∀ (s : State) (r : Reg32) (v : Word), ∃ t, writePlace (.reg32 r) v s = .ok () t ∧
    t = { s with regs := t.regs } ∧ t.reg r = v ∧ RegsKept [r] s t) ∧
  (∀ (s : State) (r : Reg8) (v : Word), ∃ t, writePlace (.reg8 r) v s = .ok () t ∧
    t = { s with regs := t.regs } ∧ RegsKept [Reg8.parent r] s t ∧
    ∀ i, i < 32 → (t.reg (Reg8.parent r)).getLsbD i =
      if Reg8.shift r ≤ i ∧ i < Reg8.shift r + 8 then v.getLsbD (i - Reg8.shift r)
      else (s.reg (Reg8.parent r)).getLsbD i) ∧
  (∀ (s : State) (r : Reg8), readPlace (.reg8 r) s =
    .ok (((s.reg (Reg8.parent r)) >>> Reg8.shift r) &&& 0xFF) s)

/-- The flags word bit by bit, and its two directions (10_state R41, D41). -/
def Obligations.FlagsWord : Prop :=
  (∀ (f : Flags) (i : Nat), f.pack.getLsbD i =
    if i = 0 then f.cf else if i = 1 then true else if i = 2 then f.pf else if i = 4 then f.af
    else if i = 6 then f.zf else if i = 7 then f.sf else if i = 8 then f.tf else if i = 9 then f.intf
    else if i = 10 then f.df else if i = 11 then f.of else false) ∧
  (∀ f : Flags, Flags.unpack f.pack = f) ∧
  (∀ w : Word, (Flags.unpack w).pack = (w &&& 0xFD5) ||| 2)

/-! ## Data transfer -/

/-- MOV and MOVSXD copy the source to the destination and change nothing else
(41_data_transfer R241 to R245). -/
def Obligations.MoveCopies : Prop :=
  ∀ (i : Instr) (w : Width) (dst : Place) (src : Operand) (s : State),
    moveForm i = some (w, dst, src) → placeReady dst s → operandReady src s →
    ∃ t, exec i s = .next t ∧ Kept (storedBytes dst s) (writtenRegs dst) s t ∧ OtherBytesKept dst s t ∧
      t.flags = s.flags ∧ placeValue dst t = operandValue src s ∧
      (¬ placeInMemory dst → ¬ operandInMemory src → t.mmu = s.mmu)

/-- XCHG exchanges its operands; the address of a memory operand is the one before the exchange
(41_data_transfer R246). -/
def Obligations.ExchangeSwaps : Prop :=
  ∀ (rm : Rm32) (r : Reg32) (s : State), placeReady (Rm32.place rm) s →
    ∃ t, exec (.xchgRm32R32 rm r) s = .next t ∧
      Kept (storedBytes (Rm32.place rm) s) (r :: writtenRegs (Rm32.place rm)) s t ∧
      t.flags = s.flags ∧ t.reg r = placeValue (Rm32.place rm) s ∧
      (∀ r', rm = .reg r' → t.reg r' = s.reg r ∧ t.mmu = s.mmu) ∧
      (∀ m, rm = .mem m → loadedValue (effectiveAddress m s) .dword t = s.reg r)

/-- PUSH and PUSHF lower ESP by 4 and store at it the register's value before that, or the flags word
(40_execution R210, 41_data_transfer R247, R249). -/
def Obligations.PushStores : Prop :=
  ∀ (i : Instr) (v : Word) (s : State),
    ((∃ r, i = .pushR32 r ∧ v = s.reg r) ∨ (i = .pushf ∧ v = s.flags.pack)) →
    Accessible (s.reg .esp - 4) .dword s →
    ∃ t, exec i s = .next t ∧ Kept (accessBytes (s.reg .esp - 4) .dword s) [.esp] s t ∧
      t.flags = s.flags ∧ t.reg .esp = s.reg .esp - 4 ∧
      loadedValue (s.reg .esp - 4) .dword t = v

/-- A push that cannot store raises with ESP already lowered (40_execution R210). -/
def Obligations.FailedPushLowersEsp : Prop :=
  ∀ (i : Instr) (s : State),
    ((∃ r, i = .pushR32 r) ∨ i = .pushf ∨ ∃ target, i = .callTarget32 target) →
    ¬ Accessible (s.reg .esp - 4) .dword s →
    ∃ f, exec i s = .fault f ∧ f.left.reg .esp = s.reg .esp - 4 ∧ RegsKept [.esp] s f.left ∧
      f.left.eip = s.eip ∧ f.left.flags = s.flags ∧ MemoryKept noBytes s f.left

/-- POP reads the doubleword at ESP, raises ESP by 4, then writes the register, so POP ESP leaves the
value read (40_execution R211, 41_data_transfer R248). -/
def Obligations.PopLoads : Prop :=
  ∀ (r : Reg32) (s : State), Accessible (s.reg .esp) .dword s →
    ∃ t, exec (.popR32 r) s = .next t ∧ Kept noBytes [r, .esp] s t ∧ t.flags = s.flags ∧
      t.reg r = loadedValue (s.reg .esp) .dword s ∧
      (r ≠ .esp → t.reg .esp = s.reg .esp + 4)

/-- POPF loads the nine flags from the doubleword at ESP and `interruptEnabled` from IF
(41_data_transfer R250). -/
def Obligations.PopfLoadsFlags : Prop :=
  ∀ s : State, Accessible (s.reg .esp) .dword s →
    ∃ t v, exec .popf s = .next t ∧ v = loadedValue (s.reg .esp) .dword s ∧
      t = { s with regs := t.regs, flags := t.flags, interruptEnabled := v.getLsbD 9, mmu := t.mmu } ∧
      MemoryKept noBytes s t ∧ RegsKept [.esp] s t ∧ t.reg .esp = s.reg .esp + 4 ∧
      t.mmu.protectedPages = s.mmu.protectedPages ∧
      t.flags = {
        cf := v.getLsbD 0, pf := v.getLsbD 2, af := v.getLsbD 4, zf := v.getLsbD 6,
        sf := v.getLsbD 7, tf := v.getLsbD 8, intf := v.getLsbD 9, df := v.getLsbD 10,
        of := v.getLsbD 11 }

/-- PUSH x then POP y gives y the value of x and leaves ESP as it was (41_data_transfer R248). -/
def Obligations.PushThenPop : Prop :=
  ∀ (x y : Reg32) (s : State), Accessible (s.reg .esp - 4) .dword s →
    ∃ t u, exec (.pushR32 x) s = .next t ∧ exec (.popR32 y) t = .next u ∧
      u.reg y = s.reg x ∧ (y ≠ .esp → u.reg .esp = s.reg .esp)

/-! ## Arithmetic and logic -/

/-- The two-operand operations that write their destination: result, flags and frame; ADC and SBB under
P_ADC_SBB = IA32 (40_execution R209, R215 to R219, R225, 42_arith_logic R270 to R276). -/
def Obligations.AluOperationsWrite : Prop :=
  ∀ (i : Instr) (op : AluOp) (w : Width) (dst : Place) (src : Operand) (s : State),
    aluForm i = some (op, w, dst, src) → (op = .adc ∨ op = .sbb → s.params.adcSbb = .ia32) →
    placeReady dst s → operandReady src s →
    ∃ t r, exec i s = .next t ∧ Kept (storedBytes dst s) (writtenRegs dst) s t ∧
      OtherBytesKept dst s t ∧ ControlFlagsKept s t ∧ placeValue dst t = truncate w r ∧
      AluMeaning op (flagBits s.params w) (placeValue dst s) (operandValue src s) s.flags.cf r t.flags ∧
      (¬ placeInMemory dst → ¬ operandInMemory src → t.mmu = s.mmu)

/-- CMP and TEST write only flags (42_arith_logic R277, R280). -/
def Obligations.CompareWritesOnlyFlags : Prop :=
  ∀ (i : Instr) (op : AluOp) (w : Width) (dst : Place) (src : Operand) (s : State),
    testForm i = some (op, w, dst, src) → placeReady dst s → operandReady src s →
    ∃ t r, exec i s = .next t ∧ Kept noBytes [] s t ∧ ControlFlagsKept s t ∧
      AluMeaning op (flagBits s.params w) (placeValue dst s) (operandValue src s) s.flags.cf r t.flags ∧
      (¬ placeInMemory dst → ¬ operandInMemory src → t.mmu = s.mmu)

/-- An instruction that needs a memory operand, or the stack word of a pop, that cannot be accessed
raises before it writes a register, a flag or a byte. RDRAND and RDSEED have taken their draw by then
(log 12). The pushes are `FailedPushLowersEsp` (40_execution R202, R209, R211, 60_exceptions R402,
R403). -/
def Obligations.InaccessibleOperandRaises : Prop :=
  (∀ (i : Instr) (s : State), ReadsInaccessible i s →
    ∃ f, exec i s = .fault f ∧ f.left = s.setMmu f.left.mmu ∧ MemoryKept noBytes s f.left ∧
      AccessError f) ∧
  (∀ (i : Instr) (rm : Rm32) (s : State), drawForm i = some rm → ¬ placeReady (Rm32.place rm) s →
    ∃ f, exec i s = .fault f ∧
      f.left = { s with mmu := f.left.mmu, randDraws := s.randDraws + 1 } ∧
      MemoryKept noBytes s f.left ∧ AccessError f)

/-- ADC and SBB have no meaning under P_ADC_SBB = REFUSE (40_execution R226, 60_exceptions R406). -/
def Obligations.AdcSbbRefused : Prop :=
  ∀ (rm : Rm32) (imm : Word) (imm' : Byte) (s : State), s.params.adcSbb = .refuse →
    exec (.adcRm32Imm32 rm imm) s = .refused .adcHasNoSemantics ∧
    exec (.adcRm32Imm8 rm imm') s = .refused .adcHasNoSemantics ∧
    exec (.sbbRm32Imm32 rm imm) s = .refused .sbbHasNoSemantics ∧
    exec (.sbbRm32Imm8 rm imm') s = .refused .sbbHasNoSemantics

/-- INC and DEC write all six flags as ADD and SUB of 1 would, CF too (40_execution R220). -/
def Obligations.IncDecWriteCarry : Prop :=
  ∀ (r : Reg32) (s : State),
    (∃ f, exec (.incR32 r) s = .next { s with regs := s.regs.set r (s.reg r + 1), flags := f } ∧
      SumFlags 32 (s.reg r) 1 false f ∧ f.cf = decide (s.reg r = 0xFFFFFFFF) ∧
      f.tf = s.flags.tf ∧ f.intf = s.flags.intf ∧ f.df = s.flags.df) ∧
    (∃ f, exec (.decR32 r) s = .next { s with regs := s.regs.set r (s.reg r - 1), flags := f } ∧
      DifferenceFlags 32 (s.reg r) 1 false f ∧ f.cf = decide (s.reg r = 0) ∧
      f.tf = s.flags.tf ∧ f.intf = s.flags.intf ∧ f.df = s.flags.df)

/-- NOT complements and writes no flag; NEG subtracts from 0 and sets CF iff the operand is not 0
(42_arith_logic R281, R282). -/
def Obligations.NotAndNeg : Prop :=
  ∀ (rm : Rm32) (s : State), placeReady (Rm32.place rm) s →
    (∃ t, exec (.notRm32 rm) s = .next t ∧
      Kept (storedBytes (Rm32.place rm) s) (writtenRegs (Rm32.place rm)) s t ∧ t.flags = s.flags ∧
      (∀ k, k < 32 → (placeValue (Rm32.place rm) t).getLsbD k =
        !(placeValue (Rm32.place rm) s).getLsbD k) ∧
      (¬ placeInMemory (Rm32.place rm) → t.mmu = s.mmu)) ∧
    (∃ t, exec (.negRm32 rm) s = .next t ∧
      Kept (storedBytes (Rm32.place rm) s) (writtenRegs (Rm32.place rm)) s t ∧ ControlFlagsKept s t ∧
      placeValue (Rm32.place rm) t = BitVec.ofInt 32 (-((placeValue (Rm32.place rm) s).toNat : Int)) ∧
      DifferenceFlags 32 0 (placeValue (Rm32.place rm) s) false t.flags ∧
      t.flags.cf = decide (placeValue (Rm32.place rm) s ≠ 0) ∧
      (¬ placeInMemory (Rm32.place rm) → t.mmu = s.mmu))

/-- SHL and SHR complete for every count and every SHIFT_CORNER. For counts 1 to 31 the result and CF
are the shift's, for 1 so is OF; at 32 CF is bit 0 or bit 31; AF stays; ZF, SF and PF are the result's
(40_execution R221 to R223, 42_arith_logic R283, R284). -/
def Obligations.ShiftsShift : Prop :=
  ∀ (i : Instr) (op : ShiftOp) (rm : Rm32) (count : Byte) (s : State),
    shiftForm i = some (op, rm, count) → placeReady (Rm32.place rm) s →
    ∃ t a r, exec i s = .next t ∧ a = placeValue (Rm32.place rm) s ∧
      r = placeValue (Rm32.place rm) t ∧
      Kept (storedBytes (Rm32.place rm) s) (writtenRegs (Rm32.place rm)) s t ∧ ControlFlagsKept s t ∧
      t.flags.af = s.flags.af ∧ ResultFlags 32 r t.flags ∧
      (1 ≤ count.toNat ∧ count.toNat ≤ 31 → match op with
        | .shl => r = BitVec.ofNat 32 (a.toNat * 2 ^ count.toNat) ∧
            t.flags.cf = a.getLsbD (32 - count.toNat) ∧
            (count = 1 → t.flags.of = (a.getLsbD 31 != a.getLsbD 30))
        | .shr => r = BitVec.ofNat 32 (a.toNat / 2 ^ count.toNat) ∧
            t.flags.cf = a.getLsbD (count.toNat - 1) ∧
            (count = 1 → t.flags.of = a.getLsbD 31)) ∧
      (count = 32 → t.flags.cf = match op with | .shl => a.getLsbD 0 | .shr => a.getLsbD 31) ∧
      (¬ placeInMemory (Rm32.place rm) → t.mmu = s.mmu)

/-- The corners of the shifts under the reference SHIFT_CORNER (40_execution R223, the reference table,
which is the model's value at reset: log 6). -/
def Obligations.ShiftReferenceCorners : Prop :=
  ∀ (i : Instr) (op : ShiftOp) (rm : Rm32) (count : Byte) (s : State),
    shiftForm i = some (op, rm, count) → placeReady (Rm32.place rm) s →
    s.params.shiftCorner = .reference →
    ∃ t a r, exec i s = .next t ∧ a = placeValue (Rm32.place rm) s ∧
      r = placeValue (Rm32.place rm) t ∧
      (count ≠ 1 → t.flags.of = s.flags.of) ∧
      (count = 0 → r = a ∧ t.flags.cf = s.flags.cf) ∧
      (count = 32 → r = 0) ∧
      (33 ≤ count.toNat → r = 0 ∧ t.flags.cf = false)

/-! ## Multiply and divide -/

/-- MUL, IMUL and IMUL2: the low 32 bits of the true product, EDX 0 in the one-operand forms, CF and OF
when the product does not fit, AF unchanged (40_execution R224, 43_mul_div R310 to R312). -/
def Obligations.MultiplyResults : Prop :=
  ∀ (rm : Rm32) (r : Reg32) (s : State), placeReady (Rm32.place rm) s →
    let x := placeValue (Rm32.place rm) s
    (∃ t, exec (.mulRm32 rm) s = .next t ∧ Kept noBytes [.eax, .edx] s t ∧ ControlFlagsKept s t ∧
      t.reg .eax = BitVec.ofNat 32 ((s.reg .eax).toNat * x.toNat) ∧ t.reg .edx = 0 ∧
      ResultFlags 32 (t.reg .eax) t.flags ∧ t.flags.af = s.flags.af ∧
      t.flags.cf = decide (2 ^ 32 ≤ (s.reg .eax).toNat * x.toNat) ∧ t.flags.of = t.flags.cf) ∧
    (∃ t, exec (.imulRm32 rm) s = .next t ∧ Kept noBytes [.eax, .edx] s t ∧ ControlFlagsKept s t ∧
      t.reg .eax = BitVec.ofInt 32 ((s.reg .eax).toInt * x.toInt) ∧ t.reg .edx = 0 ∧
      ResultFlags 32 (t.reg .eax) t.flags ∧ t.flags.af = s.flags.af ∧
      t.flags.cf = outsideSigned 32 ((s.reg .eax).toInt * x.toInt) ∧ t.flags.of = t.flags.cf) ∧
    (∃ t, exec (.imul2R32Rm32 r rm) s = .next t ∧ Kept noBytes [r] s t ∧ ControlFlagsKept s t ∧
      t.reg r = BitVec.ofInt 32 ((s.reg r).toInt * x.toInt) ∧
      ResultFlags 32 (t.reg r) t.flags ∧ t.flags.af = s.flags.af ∧
      t.flags.cf = outsideSigned 32 ((s.reg r).toInt * x.toInt) ∧ t.flags.of = t.flags.cf)

/-- DIV of EAX by a divisor that is not 0 (43_mul_div R313). -/
def Obligations.DivideResults : Prop :=
  ∀ (rm : Rm32) (s : State), placeReady (Rm32.place rm) s → placeValue (Rm32.place rm) s ≠ 0 →
    ∃ t, exec (.divRm32 rm) s = .next t ∧ Kept noBytes [.eax, .edx] s t ∧ t.flags = s.flags ∧
      (t.reg .eax).toNat * (placeValue (Rm32.place rm) s).toNat + (t.reg .edx).toNat =
        (s.reg .eax).toNat ∧
      (t.reg .edx).toNat < (placeValue (Rm32.place rm) s).toNat

/-- IDIV where the quotient fits: the remainder is smaller than the divisor and has the sign of the
dividend under P_IDIV = TRUNC, of the divisor under FLOOR (43_mul_div R314). -/
def Obligations.SignedDivideResults : Prop :=
  ∀ (rm : Rm32) (s : State), placeReady (Rm32.place rm) s → placeValue (Rm32.place rm) s ≠ 0 →
    ¬ (s.reg .eax = 0x80000000 ∧ placeValue (Rm32.place rm) s = 0xFFFFFFFF) →
    ∃ (t : State) (n d q r : Int), exec (.idivRm32 rm) s = .next t ∧ Kept noBytes [.eax, .edx] s t ∧
      t.flags = s.flags ∧ n = (s.reg .eax).toInt ∧ d = (placeValue (Rm32.place rm) s).toInt ∧
      q = (t.reg .eax).toInt ∧ r = (t.reg .edx).toInt ∧ n = q * d + r ∧ |r| < |d| ∧
      (s.params.idiv = .trunc → 0 ≤ r * n) ∧ (s.params.idiv = .floor → 0 ≤ r * d)

/-- DIV and IDIV by 0 raise DivideByZero at the instruction, IDIV of -2^31 by -1 raises DivideOverflow;
no register, flag or byte is written (43_mul_div R313, R314; 60_exceptions R404, R405). -/
def Obligations.DivideErrorsRaise : Prop :=
  ∀ (i : Instr) (rm : Rm32) (s : State), placeReady (Rm32.place rm) s →
    ((i = .divRm32 rm ∨ i = .idivRm32 rm) → placeValue (Rm32.place rm) s = 0 →
      ∃ t, exec i s = .fault (.divideByZero s.eip t) ∧ t = s.setMmu t.mmu ∧ MemoryKept noBytes s t) ∧
    (i = .idivRm32 rm → s.reg .eax = 0x80000000 → placeValue (Rm32.place rm) s = 0xFFFFFFFF →
      ∃ t, exec i s = .fault (.divideOverflow s.eip t) ∧ t = s.setMmu t.mmu ∧ MemoryKept noBytes s t)

/-! ## Control transfer -/

/-- The sixteen short conditional jumps: taken to EIP0 plus the signed rel8 when the condition on the
flags holds; nothing else changes. That the target wraps is the spec's decision D7 (44_control R330 to
R347, R356; log 21). -/
def Obligations.ShortConditionalJumps : Prop :=
  ∀ (i : Instr) (c : Bool) (rel : Byte) (s : State), jccForm s.flags i = some (c, rel) →
    exec i s = .next { s with eip := if c then BitVec.ofInt 32 (s.eip.toNat + rel.toInt) else s.eip }

/-- JMP and JL target32: a rel8 is relative to the instruction's own address, a 32-bit target is
absolute; JL is taken iff SF differs from OF (44_control R330, R348 to R350). -/
def Obligations.Jumps : Prop :=
  ∀ (rel : Byte) (target : Word) (s : State),
    exec (.jmpRel8 rel) s = .next { s with eip := BitVec.ofInt 32 (s.eip.toNat + rel.toInt) } ∧
    exec (.jmpTarget32 target) s = .next { s with eip := target } ∧
    exec (.jlTarget32 target) s =
      .next { s with eip := if s.flags.sf ≠ s.flags.of then target else s.eip }

/-- CALL pushes its own address and goes to the absolute target (44_control R351). -/
def Obligations.CallPushesItsOwnAddress : Prop :=
  ∀ (target : Word) (s : State), Accessible (s.reg .esp - 4) .dword s →
    ∃ t, exec (.callTarget32 target) s = .next t ∧
      t = { s with eip := target, regs := t.regs, mmu := t.mmu } ∧
      RegsKept [.esp] s t ∧ t.reg .esp = s.reg .esp - 4 ∧
      t.mmu.protectedPages = s.mmu.protectedPages ∧
      MemoryKept (accessBytes (s.reg .esp - 4) .dword s) s t ∧
      loadedValue (s.reg .esp - 4) .dword t = s.eip

/-- RET pops EIP (44_control R352). -/
def Obligations.ReturnPopsEip : Prop :=
  ∀ s : State, Accessible (s.reg .esp) .dword s →
    ∃ t, exec .ret s = .next t ∧
      t = { s with eip := loadedValue (s.reg .esp) .dword s, regs := t.regs, mmu := t.mmu } ∧
      RegsKept [.esp] s t ∧ t.reg .esp = s.reg .esp + 4 ∧
      t.mmu.protectedPages = s.mmu.protectedPages ∧ MemoryKept noBytes s t

/-- RET right after CALL goes back to the CALL itself, with ESP as before it (70_reset R455). -/
def Obligations.ReturnGoesBackToTheCall : Prop :=
  ∀ (target : Word) (s : State), Accessible (s.reg .esp - 4) .dword s →
    ∃ t u, exec (.callTarget32 target) s = .next t ∧ exec .ret t = .next u ∧
      u.eip = s.eip ∧ u.regs = s.regs ∧ u.flags = s.flags

/-! ## System instructions -/

/-- NOP does nothing, HLT sets `halted`, INT counts (45_system R370 to R372). -/
def Obligations.NopHltInt : Prop :=
  ∀ (vector : Byte) (s : State),
    exec .nop s = .next s ∧
    exec .hlt s = .next { s with halted := true } ∧
    exec (.intImm8 vector) s = .next { s with interrupts := s.interrupts + 1 }

/-- CLI and STI write IF and `interruptEnabled`, CLD and STD write DF, and nothing else changes
(45_system R373 to R376). -/
def Obligations.FlagControl : Prop :=
  ∀ s : State,
    exec .cli s = .next { s with flags := { s.flags with intf := false }, interruptEnabled := false } ∧
    exec .sti s = .next { s with flags := { s.flags with intf := true }, interruptEnabled := true } ∧
    exec .cld s = .next { s with flags := { s.flags with df := false } } ∧
    exec .std s = .next { s with flags := { s.flags with df := true } }

/-- RDTSC puts a 64-bit clock value into EDX:EAX, not below the one before; which value is free (log 11)
(45_system R377). -/
def Obligations.TimeStampNeverFalls : Prop :=
  ∀ s : State, ∃ t, exec .rdtsc s = .next t ∧
    t = { s with regs := t.regs, clockDraws := t.clockDraws, clockLast := t.clockLast } ∧
    RegsKept [.eax, .edx] s t ∧
    (t.reg .edx).toNat * 2 ^ 32 + (t.reg .eax).toNat = t.clockLast.toNat ∧
    s.clockLast.toNat ≤ t.clockLast.toNat

/-- RDRAND and RDSEED write one draw, whose value is free (log 12), set CF and clear the five others
(45_system R378, R379). -/
def Obligations.RandomDraws : Prop :=
  ∀ (i : Instr) (rm : Rm32) (s : State), (i = .rdrandRm32 rm ∨ i = .rdseedRm32 rm) →
    placeReady (Rm32.place rm) s →
    ∃ t, exec i s = .next t ∧
      t = { s with regs := t.regs, flags := t.flags, mmu := t.mmu, randDraws := t.randDraws } ∧
      MemoryKept (storedBytes (Rm32.place rm) s) s t ∧ RegsKept (writtenRegs (Rm32.place rm)) s t ∧
      t.mmu.protectedPages = s.mmu.protectedPages ∧
      placeValue (Rm32.place rm) t = Config.rand s.randDraws ∧ t.randDraws = s.randDraws + 1 ∧
      t.flags = { s.flags with
        cf := true, of := false, sf := false, zf := false, af := false, pf := false }

/-! ## The host's operations -/

/-- Reset leaves every general register 0 but ESP, which is 0xFFFF (10_state R35). -/
def Obligations.ResetRegisters : Prop :=
  ∀ (s : State) (r : Reg32),
    (hostReset s).reg r = (if r = .esp then 0xFFFF else 0) ∧
    State.reset.reg r = (if r = .esp then 0xFFFF else 0)

/-- Reset puts every other part of the machine at its value at creation and keeps physical memory, the
breakpoints and the parameters (10_state R35 to R51, 70_reset R441). -/
def Obligations.ResetKeepsMemory : Prop :=
  ∀ s : State, let t := hostReset s
    t.eip = 0 ∧ t.flags = State.reset.flags ∧ t.flags.pack = 2 ∧ t.interruptEnabled = false ∧
    t.halted = false ∧ t.instructionCount = 0 ∧ t.cycleCount = 0 ∧ t.interrupts = 0 ∧
    t.mmu.counters = MmuCounters.zero ∧ t.mmu.tlb = [] ∧ t.mmu.l1 = [] ∧ t.mmu.l2 = [] ∧
    t.mmu.pageDir = [] ∧ t.mmu.protectedPages = [] ∧ t.mmu.cacheClock = 0 ∧
    t.mmu.freeFrames = List.range (s.params.memSize / 4096) ∧
    t.mmu.phys = s.mmu.phys ∧ t.breakpoints = s.breakpoints ∧ t.params = s.params

/-- `loadProgram` refuses a program that runs past 2^32; else, when it completes, exactly the pages it
covers become protected and only the MMU changes; and bytes that lie in one accessible page are stored
there in order (20_memory R125). -/
def Obligations.LoadedPagesAreProtected : Prop :=
  ∀ (bytes : List Byte) (start : Word) (s : State),
    (2 ^ 32 < start.toNat + bytes.length → loadProgram bytes start s = .refused .loadPastAddressSpace) ∧
    (∀ t, loadProgram bytes start s = .next t → t = s.setMmu t.mmu ∧
      ∀ page, page ∈ t.mmu.protectedPages ↔ page ∈ s.mmu.protectedPages ∨
        ∃ k, k < bytes.length ∧ page = (start.toNat + k) / 4096) ∧
    (∀ a, physAddr start s = some a → bytes ≠ [] → offsetOf start + bytes.length ≤ 4096 →
      a + bytes.length ≤ s.params.memSize →
      ∃ t, loadProgram bytes start s = .next t ∧
        ∀ k, k < bytes.length → t.byteAt (a + k) = bytes.getD k 0)

/-- `runUntilBreakpoint` stops in the first state that is halted or at a breakpoint, and only there
(60_exceptions R431; the step bound is log 23). -/
def Obligations.RunStopsAtTheFirstBreakpoint : Prop :=
  ∀ (n : Nat) (s t : State), runUntilBreakpoint n s = .stopped t ↔
    ∃ k, k ≤ n ∧ Host.Core.run Sys2Proof.core k s = Host.Outcome.next t ∧
      (t.halted = true ∨ t.eip ∈ t.breakpoints) ∧
      ∀ j, j < k → ∀ u : State, Host.Core.run Sys2Proof.core j s = Host.Outcome.next u →
        ¬ (u.halted = true ∨ u.eip ∈ u.breakpoints)

/-- The sixteen register names are the only ones: any other raises UnknownRegister and changes nothing
(60_exceptions R407). -/
def Obligations.OnlySixteenRegisterNames : Prop :=
  (∀ (s : State) (r : Reg32), readRegisterByName (Reg32.name r) s = .ok (s.reg r) s) ∧
  (∀ (s : State) (r : Reg8),
    readRegisterByName (Reg8.name r) s = .ok ((s.regs.get8 r).setWidth 32) s) ∧
  (∀ (name : String) (s : State),
    name ∉ ["EAX", "ECX", "EDX", "EBX", "ESP", "EBP", "ESI", "EDI",
      "AL", "CL", "DL", "BL", "AH", "CH", "DH", "BH"] →
    readRegisterByName name s = .fault (.unknownRegister name s))
end

