-- ==== Sys2Proof/Laws/Memory.lean ====
section
/-! SUPPORT. Tables and physical memory: what is read after a write, the canonical form, and words as
little-endian bytes (spec/20_memory.md R81, R97, R101). -/

namespace Sys2Proof.Machine

variable {α : Type}

/-! ## Tables -/

@[simp] theorem tableFind_nil (a : Nat) : tableFind ([] : List (Nat × α)) a = none := rfl

theorem tableFind_cons (k : Nat) (x : α) (t : List (Nat × α)) (a : Nat) :
    tableFind ((k, x) :: t) a = if k = a then some x else tableFind t a := rfl

theorem tableFind_append (t u : List (Nat × α)) (a : Nat) :
    tableFind (t ++ u) a = (tableFind t a).or (tableFind u a) := by
  induction t with
  | nil => rfl
  | cons e t ih =>
    obtain ⟨k, x⟩ := e
    simp only [List.cons_append, tableFind_cons]
    split <;> simp [ih]

theorem tableFind_filter (t : List (Nat × α)) (q : Nat → Bool) (a : Nat) :
    tableFind (t.filter fun e => q e.1) a = if q a then tableFind t a else none := by
  induction t with
  | nil => simp
  | cons e t ih =>
    obtain ⟨k, x⟩ := e
    by_cases hk : q k
    · rw [List.filter_cons_of_pos (by simpa using hk), tableFind_cons, tableFind_cons, ih]
      by_cases h : k = a
      · subst h; simp [hk]
      · simp [h]
    · rw [List.filter_cons_of_neg (by simpa using hk), ih, tableFind_cons]
      by_cases h : k = a
      · subst h; simp [hk]
      · simp [h]

theorem tableFind_tableErase (t : List (Nat × α)) (a a' : Nat) :
    tableFind (tableErase t a) a' = if a' = a then none else tableFind t a' := by
  rw [tableErase, tableFind_filter t (fun k => decide (k ≠ a))]
  by_cases h : a' = a <;> simp [h]

theorem tableFind_tableInsert (t : List (Nat × α)) (a a' : Nat) (x : α) :
    tableFind (tableInsert t a x) a' = if a' = a then some x else tableFind t a' := by
  induction t with
  | nil => simp only [tableInsert, tableFind_cons, tableFind_nil, eq_comm]
  | cons e t ih =>
    obtain ⟨k, y⟩ := e
    simp only [tableInsert]
    split
    · rw [tableFind_cons, ih, tableFind_cons]
      by_cases h : k = a'
      · simp [h]; omega
      · simp [h]
    · split
      · next h => subst h; simp only [tableFind_cons]; by_cases h : a' = k <;> simp [h, eq_comm]
      · simp only [tableFind_cons, eq_comm (a := a) (b := a')]

theorem mem_of_tableFind {t : List (Nat × α)} {a : Nat} {x : α} (h : tableFind t a = some x) :
    (a, x) ∈ t := by
  induction t with
  | nil => simp at h
  | cons e t ih =>
    obtain ⟨k, y⟩ := e
    rw [tableFind_cons] at h
    split at h
    · next hk => subst hk; simp_all
    · exact List.mem_cons_of_mem _ (ih h)

theorem tableFind_of_mem {t : List (Nat × α)} (hn : (t.map fun e => e.1).Nodup) {e : Nat × α}
    (h : e ∈ t) : tableFind t e.1 = some e.2 := by
  induction t with
  | nil => simp at h
  | cons d t ih =>
    obtain ⟨k, y⟩ := d
    rw [List.map_cons, List.nodup_cons] at hn
    rw [tableFind_cons]
    rcases List.mem_cons.1 h with h | h
    · subst h; simp
    · have : e.1 ∈ t.map fun e => e.1 := List.mem_map_of_mem h
      rw [if_neg (by rintro rfl; exact hn.1 this), ih hn.2 h]

theorem tableFind_none {t : List (Nat × α)} {a : Nat} (h : tableFind t a = none) {e : Nat × α}
    (he : e ∈ t) : e.1 ≠ a := by
  induction t with
  | nil => simp at he
  | cons d t ih =>
    obtain ⟨k, y⟩ := d
    rw [tableFind_cons] at h
    split at h
    · simp at h
    · rcases List.mem_cons.1 he with he | he
      · subst he; assumption
      · exact ih h he

theorem mem_tableErase {t : List (Nat × α)} {a : Nat} {e : Nat × α} :
    e ∈ tableErase t a ↔ e ∈ t ∧ e.1 ≠ a := by
  simp [tableErase]

theorem tableErase_of_none {t : List (Nat × α)} {a : Nat} (h : tableFind t a = none) :
    tableErase t a = t := by
  rw [tableErase, List.filter_eq_self]
  intro e he
  simpa using tableFind_none h he

theorem mem_tableInsert {t : List (Nat × α)} {a : Nat} {x : α} {e : Nat × α}
    (h : e ∈ tableInsert t a x) : e = (a, x) ∨ e ∈ t := by
  induction t with
  | nil => simpa [tableInsert] using h
  | cons d t ih =>
    obtain ⟨k, y⟩ := d
    simp only [tableInsert] at h
    split at h
    · rcases List.mem_cons.1 h with h | h
      · simp [h]
      · rcases ih h with h | h <;> simp [h]
    · split at h
      · rcases List.mem_cons.1 h with h | h <;> simp [h]
      · rcases List.mem_cons.1 h with h | h
        · simp [h]
        · right; exact h

/-- The keys of a table strictly rise. -/
abbrev Rising (t : List (Nat × α)) : Prop := t.Pairwise fun x y => x.1 < y.1

theorem Rising.tableErase {t : List (Nat × α)} (h : Rising t) (a : Nat) :
    Rising (tableErase t a) := List.Pairwise.filter _ h

theorem Rising.tableInsert {t : List (Nat × α)} (h : Rising t) (a : Nat) (x : α) :
    Rising (tableInsert t a x) := by
  induction t with
  | nil => exact List.pairwise_singleton _ _
  | cons d t ih =>
    obtain ⟨k, y⟩ := d
    obtain ⟨h1, h2⟩ := List.pairwise_cons.1 h
    simp only [Machine.tableInsert]
    split
    · next hk =>
      refine List.pairwise_cons.2 ⟨fun e he => ?_, ih h2⟩
      rcases mem_tableInsert he with he | he
      · subst he; exact hk
      · exact h1 e he
    · split
      · next hk => subst hk; exact List.pairwise_cons.2 ⟨h1, h2⟩
      · refine List.pairwise_cons.2 ⟨fun e he => ?_, h⟩
        rcases List.mem_cons.1 he with he | he
        · subst he; dsimp only; omega
        · have := h1 e he; dsimp only at *; omega

theorem Rising.nodup {t : List (Nat × α)} (h : Rising t) : (t.map fun e => e.1).Nodup := by
  rw [List.Nodup, List.pairwise_map]
  exact h.imp fun h => Nat.ne_of_lt h

/-- Tables with rising keys and the same entries are the same. -/
theorem Rising.ext {t u : List (Nat × α)} (ht : Rising t) (hu : Rising u)
    (h : ∀ a, tableFind t a = tableFind u a) : t = u := by
  induction t generalizing u with
  | nil =>
    cases u with
    | nil => rfl
    | cons e u => obtain ⟨k, x⟩ := e; have := h k; simp [tableFind_cons] at this
  | cons d t ih =>
    obtain ⟨k, x⟩ := d
    cases u with
    | nil => have := h k; simp [tableFind_cons] at this
    | cons e u =>
      obtain ⟨l, y⟩ := e
      obtain ⟨ht1, ht2⟩ := List.pairwise_cons.1 ht
      obtain ⟨hu1, hu2⟩ := List.pairwise_cons.1 hu
      have hkl : k = l := by
        by_contra hne
        have h1 := h k
        have h2 := h l
        simp only [tableFind_cons, if_true] at h1 h2
        rw [if_neg (fun e => hne e.symm)] at h1
        rw [if_neg hne] at h2
        have := hu1 _ (mem_of_tableFind h1.symm)
        have := ht1 _ (mem_of_tableFind h2)
        dsimp only at *; omega
      subst hkl
      have hxy := h k
      simp only [tableFind_cons, if_true, Option.some.injEq] at hxy
      subst hxy
      congr 1
      refine ih ht2 hu2 fun a => ?_
      have ha := h a
      simp only [tableFind_cons] at ha
      by_cases hka : k = a
      · subst hka
        have e1 : tableFind t k = none := by
          by_contra hne
          obtain ⟨z, hz⟩ := Option.ne_none_iff_exists'.1 hne
          have := ht1 _ (mem_of_tableFind hz); dsimp only at this; omega
        have e2 : tableFind u k = none := by
          by_contra hne
          obtain ⟨z, hz⟩ := Option.ne_none_iff_exists'.1 hne
          have := hu1 _ (mem_of_tableFind hz); dsimp only at this; omega
        rw [e1, e2]
      · simpa [hka] using ha

/-! ## One byte of memory -/

theorem Memory.read_write (m : Memory) (a a' : Nat) (b : Byte) :
    (m.write a b).read a' = if a' = a then b else m.read a' := by
  simp only [Memory.read, Memory.write]
  split
  · next h => rw [tableFind_tableErase]; split <;> simp [h]
  · rw [tableFind_tableInsert]; split <;> rfl

@[simp] theorem Memory.read_write_self (m : Memory) (a : Nat) (b : Byte) :
    (m.write a b).read a = b := by rw [Memory.read_write, if_pos rfl]

theorem Memory.read_clear (m : Memory) (a n a' : Nat) :
    (m.clear a n).read a' = if a ≤ a' ∧ a' < a + n then Memory.unlisted else m.read a' := by
  simp only [Memory.read, Memory.clear]
  rw [tableFind_filter m (fun k => decide (k < a ∨ a + n ≤ k))]
  by_cases h : a' < a ∨ a + n ≤ a'
  · rw [if_pos (by simpa using h), if_neg (by omega)]
  · rw [if_neg (by simpa using h), if_pos (by omega)]; rfl

/-! ## The canonical form -/

theorem Memory.wf_nil : Memory.wf [] := ⟨List.Pairwise.nil, by simp⟩

/-- A write of one byte keeps the canonical form. -/
theorem Memory.wf_write {m : Memory} (h : m.wf) (a : Nat) (b : Byte) : (m.write a b).wf := by
  unfold Memory.write
  split
  · exact ⟨Rising.tableErase h.1 a, fun c hc => h.2 c (mem_tableErase.1 hc).1⟩
  · next hb =>
    refine ⟨Rising.tableInsert h.1 a b, fun c hc => ?_⟩
    rcases mem_tableInsert hc with hc | hc
    · subst hc; exact hb
    · exact h.2 c hc

/-- A write of bytes keeps the canonical form. -/
theorem Memory.wf_writeBytes {m : Memory} (h : m.wf) (a : Nat) (bs : List Byte) :
    (m.writeBytes a bs).wf := by
  induction bs generalizing m a with
  | nil => exact h
  | cons b bs ih => exact ih (Memory.wf_write h a b) (a + 1)

/-- Setting bytes to zero keeps the canonical form. -/
theorem Memory.wf_clear {m : Memory} (h : m.wf) (a n : Nat) : (m.clear a n).wf :=
  ⟨List.Pairwise.filter _ h.1, fun c hc => h.2 c (List.mem_filter.1 hc).1⟩

/-- Memories in canonical form that read the same are the same data. -/
theorem Memory.ext_read {m n : Memory} (hm : m.wf) (hn : n.wf) (h : ∀ a, m.read a = n.read a) :
    m = n := by
  refine Rising.ext hm.1 hn.1 fun a => ?_
  have ha := h a
  simp only [Memory.read] at ha
  cases h1 : tableFind m a with
  | none =>
    cases h2 : tableFind n a with
    | none => rfl
    | some y => rw [h1, h2] at ha; exact absurd ha.symm (hn.2 _ (mem_of_tableFind h2))
  | some x =>
    cases h2 : tableFind n a with
    | none => rw [h1, h2] at ha; exact absurd ha (hm.2 _ (mem_of_tableFind h1))
    | some y => rw [h1, h2] at ha; exact congrArg some ha

/-- Every listed address after a write is the written one or was listed before. -/
theorem Memory.mem_writeBytes {m : Memory} {a : Nat} {bs : List Byte} {c : Host.Cell}
    (h : c ∈ m.writeBytes a bs) : c ∈ m ∨ (a ≤ c.1 ∧ c.1 < a + bs.length) := by
  induction bs generalizing m a with
  | nil => exact .inl h
  | cons b bs ih =>
    rcases ih h with h | h
    · unfold Memory.write at h
      split at h
      · exact .inl (mem_tableErase.1 h).1
      · rcases mem_tableInsert h with h | h
        · subst h; right; simp
        · exact .inl h
    · right; simp only [List.length_cons]; omega

/-! ## Several bytes -/

theorem Memory.read_writeBytes (m : Memory) (a a' : Nat) (bs : List Byte) :
    (m.writeBytes a bs).read a' =
      if a ≤ a' ∧ a' < a + bs.length then bs.getD (a' - a) 0 else m.read a' := by
  induction bs generalizing m a with
  | nil => rw [if_neg (by simp)]; rfl
  | cons b bs ih =>
    rw [Memory.writeBytes, ih, Memory.read_write]
    simp only [List.length_cons]
    by_cases h : a' = a
    · subst h; simp
    · by_cases h2 : a + 1 ≤ a' ∧ a' < a + 1 + bs.length
      · rw [if_pos h2, if_pos (by omega)]
        obtain ⟨d, rfl⟩ : ∃ d, a' = a + 1 + d := ⟨a' - (a + 1), by omega⟩
        rw [show a + 1 + d - (a + 1) = d by omega, show a + 1 + d - a = d + 1 by omega,
          List.getD_cons_succ]
      · rw [if_neg h2, if_neg h, if_neg (by omega)]

theorem Memory.readBytes_length (m : Memory) (a n : Nat) : (m.readBytes a n).length = n := by
  induction n generalizing a with
  | zero => rfl
  | succ n ih => simp [Memory.readBytes, ih]

theorem Memory.readBytes_congr {m n : Memory} {a k : Nat}
    (h : ∀ i, a ≤ i → i < a + k → m.read i = n.read i) : m.readBytes a k = n.readBytes a k := by
  induction k generalizing a with
  | zero => rfl
  | succ k ih =>
    simp only [Memory.readBytes]
    rw [h a (Nat.le_refl a) (by omega), ih fun i h1 h2 => h i (by omega) (by omega)]

/-- Bytes read where they were written. -/
theorem Memory.readBytes_writeBytes (m : Memory) (a : Nat) (bs : List Byte) :
    (m.writeBytes a bs).readBytes a bs.length = bs := by
  induction bs generalizing m a with
  | nil => rfl
  | cons b bs ih =>
    simp only [Memory.writeBytes, List.length_cons, Memory.readBytes, ih]
    rw [Memory.read_writeBytes, if_neg (by omega), Memory.read_write_self]

/-! ## Words as little-endian bytes (20_memory R81) -/

@[simp] theorem wordBytes_length (n : Nat) (v : Word) : (wordBytes n v).length = n := by
  induction n generalizing v with
  | zero => rfl
  | succ n ih => simp [wordBytes, ih]

theorem natOfBytes_wordBytes (n : Nat) (v : Word) :
    natOfBytes (wordBytes n v) = v.toNat % 2 ^ (8 * n) := by
  induction n generalizing v with
  | zero => simp [wordBytes, natOfBytes]; omega
  | succ n ih =>
    simp only [wordBytes, natOfBytes, ih, BitVec.toNat_setWidth, BitVec.toNat_ushiftRight,
      Nat.shiftRight_eq_div_pow]
    rw [show 8 * (n + 1) = 8 + 8 * n by ring, pow_add, Nat.mod_mul]
    norm_num

/-- The bytes of a word, read back, are its low bits. -/
theorem wordOfBytes_wordBytes (n : Nat) (v : Word) :
    wordOfBytes (wordBytes n v) = BitVec.ofNat 32 (v.toNat % 2 ^ (8 * n)) := by
  rw [wordOfBytes, natOfBytes_wordBytes]

@[simp] theorem wordOfBytes_wordBytes_four (v : Word) : wordOfBytes (wordBytes 4 v) = v := by
  rw [wordOfBytes_wordBytes]
  apply BitVec.eq_of_toNat_eq
  simpa using v.isLt

theorem natOfBytes_lt (bs : List Byte) : natOfBytes bs < 2 ^ (8 * bs.length) := by
  induction bs with
  | nil => simp [natOfBytes]
  | cons b bs ih =>
    have := b.isLt
    simp only [natOfBytes, List.length_cons]
    rw [show 8 * (bs.length + 1) = 8 * bs.length + 8 by ring, pow_add]
    omega

/-- A write of a word, read back at the same place and width. -/
theorem Memory.word_after_write (m : Memory) (a n : Nat) (v : Word) :
    wordOfBytes ((m.writeBytes a (wordBytes n v)).readBytes a n) =
      BitVec.ofNat 32 (v.toNat % 2 ^ (8 * n)) := by
  have := Memory.readBytes_writeBytes m a (wordBytes n v)
  rw [wordBytes_length] at this
  rw [this, wordOfBytes_wordBytes]

end Sys2Proof.Machine
end

