-- ==== Sys2Proof/Laws/Decode.lean ====
section
/-! SUPPORT. The fields of encodings put together and taken apart again (spec/30_encoding.md R143, R144,
R152). -/

namespace Sys2Proof

open Sys2Proof.Machine

@[simp] theorem modrmMod_byte (mod : BitVec 2) (reg rm : BitVec 3) :
    modrmMod (modrmByte mod reg rm) = mod := by revert mod reg rm; decide
@[simp] theorem modrmReg_byte (mod : BitVec 2) (reg rm : BitVec 3) :
    modrmReg (modrmByte mod reg rm) = reg := by revert mod reg rm; decide
@[simp] theorem modrmRm_byte (mod : BitVec 2) (reg rm : BitVec 3) :
    modrmRm (modrmByte mod reg rm) = rm := by revert mod reg rm; decide
theorem modrmByte_fields (m : Byte) : modrmByte (modrmMod m) (modrmReg m) (modrmRm m) = m := by
  revert m; decide

@[simp] theorem Reg32.ofNum_num (r : Reg32) : Reg32.ofNum r.num = r := by cases r <;> rfl
@[simp] theorem Reg32.num_ofNum (n : BitVec 3) : (Reg32.ofNum n).num = n := by revert n; decide
@[simp] theorem Reg8.ofNum_num (r : Reg8) : Reg8.ofNum r.num = r := by cases r <;> rfl
@[simp] theorem Reg8.num_ofNum (n : BitVec 3) : (Reg8.ofNum n).num = n := by revert n; decide
theorem Reg32.num_eq_five (r : Reg32) : r.num = 5 ↔ r = .ebp := by cases r <;> decide

/-- The four bytes of a word, as a list the decoder reads. -/
theorem wordBytes_four (v : Word) : wordBytes 4 v =
    [v.setWidth 8, (v >>> 8).setWidth 8, (v >>> 8 >>> 8).setWidth 8, (v >>> 8 >>> 8 >>> 8).setWidth 8] := rfl

/-- Reading a doubleword from the bytes of a word. -/
theorem Fetch.onBytes_dword (k : Word → Fetch) (v : Word) (rest : List Byte) :
    (Fetch.dword k).onBytes (wordBytes 4 v ++ rest) = (k v).onBytes rest := by
  have h : wordOfBytes (wordBytes 4 v) = v := wordOfBytes_wordBytes_four v
  rw [wordBytes_four] at h ⊢
  simp only [List.cons_append, List.nil_append, Fetch.onBytes, h]

/-- Four bytes are the bytes of the word they make. -/
theorem wordBytes_wordOfBytes (b0 b1 b2 b3 : Byte) :
    wordBytes 4 (wordOfBytes [b0, b1, b2, b3]) = [b0, b1, b2, b3] := by
  have h0 := b0.isLt; have h1 := b1.isLt; have h2 := b2.isLt; have h3 := b3.isLt
  rw [wordBytes_four]
  simp only [List.cons.injEq, and_true]
  refine ⟨?_, ?_, ?_, ?_⟩ <;> apply BitVec.eq_of_toNat_eq <;>
    simp [wordOfBytes, natOfBytes, Nat.shiftRight_eq_div_pow] <;> omega

/-- The r/m operand and the reg field read back from their encoding (30_encoding R144). -/
theorem Fetch.onBytes_modrm {R : Type} (num : R → BitVec 3) (ofNum : BitVec 3 → R)
    (hnum : ∀ r, ofNum (num r) = r) (reg : BitVec 3) (rm : Rm R) (hwf : rm.wf)
    (k : BitVec 3 → Rm R → Fetch) (rest : List Byte) :
    (Fetch.byte fun m => modrmOperand ofNum m fun rm => k (modrmReg m) rm).onBytes
      (encodeRm num reg rm ++ rest) = (k reg rm).onBytes rest := by
  cases rm with
  | reg r =>
    simp only [encodeRm, List.cons_append, List.nil_append, Fetch.onBytes, modrmReg_byte]
    simp [modrmOperand, hnum]
  | mem m =>
    cases m with
    | abs a =>
      simp only [encodeRm, MemOp.encoding, List.cons_append, Fetch.onBytes, modrmReg_byte]
      simp only [modrmOperand, modrmMod_byte, modrmRm_byte]
      exact Fetch.onBytes_dword _ _ _
    | ind b =>
      have hb : b.num ≠ 5 := fun h => hwf ((Reg32.num_eq_five b).1 h)
      simp only [encodeRm, MemOp.encoding, List.cons_append, List.nil_append, Fetch.onBytes,
        modrmReg_byte]
      simp only [modrmOperand, modrmMod_byte, modrmRm_byte, Reg32.ofNum_num]
      show ((if b.num = 5 then Fetch.dword _ else k reg (.mem (.ind b))) : Fetch).onBytes rest = _
      rw [if_neg hb]
    | disp8 b d =>
      simp only [encodeRm, MemOp.encoding, List.cons_append, List.nil_append, Fetch.onBytes,
        modrmReg_byte]
      simp [modrmOperand, Fetch.onBytes]
    | disp32 b d =>
      simp only [encodeRm, MemOp.encoding, List.cons_append, Fetch.onBytes, modrmReg_byte]
      simp only [modrmOperand, modrmMod_byte, modrmRm_byte, Reg32.ofNum_num]
      exact Fetch.onBytes_dword _ _ _

/-- A group whose decoder checks the sub-operation on the ModR/M byte first (30_encoding R182). -/
theorem Fetch.onBytes_group {K : Byte → Fetch} {k : Rm32 → Fetch} {reg : BitVec 3}
    (hK : ∀ m, modrmReg m = reg → K m = modrmOperand Reg32.ofNum m k) (rm : Rm32) (hwf : rm.wf)
    (rest : List Byte) :
    (Fetch.byte K).onBytes (encodeGroup reg rm ++ rest) = (k rm).onBytes rest := by
  have h := Fetch.onBytes_modrm Reg32.num Reg32.ofNum Reg32.ofNum_num reg rm hwf (fun _ => k) rest
  rw [← h, encodeGroup]
  cases rm with
  | reg r => exact congrArg (Fetch.onBytes · rest) (hK _ (modrmReg_byte _ _ _))
  | mem m => exact congrArg (Fetch.onBytes · (m.encoding.2.2 ++ rest)) (hK _ (modrmReg_byte _ _ _))

/-- Whatever the decoder reads an r/m operand from is the operand's encoding. -/
theorem Fetch.onBytes_modrmOperand {R : Type} {num : R → BitVec 3} {ofNum : BitVec 3 → R}
    (hnum : ∀ n, num (ofNum n) = n) {m : Byte} {k : Rm R → Fetch} {bs rest : List Byte} {i : Instr}
    (h : (modrmOperand ofNum m k).onBytes bs = .instr i rest) :
    ∃ rm bs', rm.wf ∧ m :: bs = encodeRm num (modrmReg m) rm ++ bs' ∧
      (k rm).onBytes bs' = .instr i rest := by
  have hm := modrmByte_fields m
  have h4 : ∀ n : BitVec 2, n.toNat = 0 ∨ n.toNat = 1 ∨ n.toNat = 2 ∨ n.toNat = 3 := by decide
  have hmod : ∀ c : Nat, (modrmMod m).toNat = c → modrmMod m = BitVec.ofNat 2 c := by
    rintro c rfl; simp
  unfold modrmOperand at h
  rcases h4 (modrmMod m) with h0 | h0 | h0 | h0 <;> have hmd := hmod _ h0 <;>
    simp only [h0] at h
  · split at h
    · next h5 =>
      match bs, h with
      | b0 :: b1 :: b2 :: b3 :: bs, h =>
        refine ⟨.mem (.abs (wordOfBytes [b0, b1, b2, b3])), bs, trivial, ?_, h⟩
        simp only [encodeRm, MemOp.encoding, wordBytes_wordOfBytes, List.cons_append, List.nil_append]
        rw [hmd, h5] at hm; rw [← hm]; simp
    · next h5 =>
      refine ⟨.mem (.ind (Reg32.ofNum (modrmRm m))), bs, ?_, ?_, h⟩
      · intro he
        have := (Reg32.num_eq_five _).2 he
        rw [Reg32.num_ofNum] at this; exact h5 this
      · simp only [encodeRm, MemOp.encoding, List.cons_append, List.nil_append, Reg32.num_ofNum]
        rw [hmd] at hm; exact congrArg (· :: bs) hm.symm
  · match bs, h with
    | d :: bs, h =>
      refine ⟨.mem (.disp8 (Reg32.ofNum (modrmRm m)) d), bs, trivial, ?_, h⟩
      simp only [encodeRm, MemOp.encoding, List.cons_append, List.nil_append, Reg32.num_ofNum]
      rw [hmd] at hm; exact congrArg (· :: d :: bs) hm.symm
  · match bs, h with
    | b0 :: b1 :: b2 :: b3 :: bs, h =>
      refine ⟨.mem (.disp32 (Reg32.ofNum (modrmRm m)) (wordOfBytes [b0, b1, b2, b3])), bs, trivial, ?_, h⟩
      simp only [encodeRm, MemOp.encoding, wordBytes_wordOfBytes, List.cons_append, List.nil_append,
        Reg32.num_ofNum]
      rw [hmd] at hm; exact congrArg (· :: b0 :: b1 :: b2 :: b3 :: bs) hm.symm
  · refine ⟨.reg (ofNum (modrmRm m)), bs, trivial, ?_, h⟩
    simp only [encodeRm, List.cons_append, List.nil_append, hnum]
    rw [hmd] at hm; exact congrArg (· :: bs) hm.symm

/-- The length of an r/m operand's encoding: the ModR/M byte and `d` (30_encoding R144). -/
theorem encodeRm_length {R : Type} (num : R → BitVec 3) (reg : BitVec 3) (rm : Rm R) :
    (encodeRm num reg rm).length = 1 + rm.dispBytes := by
  cases rm with
  | reg r => rfl
  | mem m => cases m <;> rfl

end Sys2Proof
end

