-- ==== Sys2Proof/Laws/Flags.lean ====
section
/-! SUPPORT. The flag functions as numbers: what they are on every operand
(spec/40_execution.md R215 to R219, R225). -/

namespace Sys2Proof.Machine

/-- A bit is the sign of the low `n` bits. -/
theorem signBit (n : Nat) (h : 0 < n) (x : Word) :
    x.getLsbD (n - 1) = decide (2 ^ (n - 1) ≤ x.toNat % 2 ^ n) := by
  have h1 : x.getLsbD (n - 1) = (x.setWidth n).getLsbD (n - 1) := by
    rw [BitVec.getLsbD_setWidth]; simp [h]
  have h2 : (x.setWidth n).getLsbD (n - 1) = (x.setWidth n).msb := by
    rw [BitVec.msb_eq_getLsbD_last]
  rw [h1, h2, BitVec.msb_eq_decide, BitVec.toNat_setWidth]

theorem two_pow_pred (n : Nat) (h : 0 < n) : 2 ^ n = 2 * 2 ^ (n - 1) := by
  obtain ⟨k, rfl⟩ : ∃ k, n = k + 1 := ⟨n - 1, by omega⟩
  rw [Nat.add_sub_cancel, pow_succ]; ring

theorem signedLow_eq (n : Nat) (h : 0 < n) (x : Word) :
    signedLow n x = (x.toNat % 2 ^ n : Nat) -
      if 2 ^ (n - 1) ≤ x.toNat % 2 ^ n then ((2 ^ n : Nat) : Int) else 0 := by
  have h2 := two_pow_pred n h
  unfold signedLow
  rw [BitVec.toInt_eq_toNat_cond, BitVec.toNat_setWidth]
  by_cases hx : 2 ^ (n - 1) ≤ x.toNat % 2 ^ n
  · rw [if_neg (by omega), if_pos hx]
  · rw [if_pos (by omega), if_neg hx]; simp

theorem filter_parity (q : Nat → Bool) (l : List Nat) :
    decide ((l.filter q).length % 2 = 0) = !(l.foldr (fun i acc => q i ^^ acc) false) := by
  induction l with
  | nil => rfl
  | cons i l ih =>
    rw [List.foldr_cons]
    have : (l.foldr (fun i acc => q i ^^ acc) false) = !decide ((l.filter q).length % 2 = 0) := by
      rw [ih, Bool.not_not]
    rw [this]
    by_cases hq : q i
    · rw [List.filter_cons_of_pos hq, hq, List.length_cons]
      by_cases hl : (l.filter q).length % 2 = 0
      · simp [hl]; omega
      · simp [hl]; omega
    · rw [List.filter_cons_of_neg hq]
      simp [hq]

/-- PF is the parity of the number of 1 bits among the low eight. -/
theorem parity8_eq (r : Word) :
    parity8 r = decide (((List.range 8).filter fun i => r.getLsbD i).length % 2 = 0) := by
  rw [filter_parity, show List.range 8 = [0, 1, 2, 3, 4, 5, 6, 7] from rfl]
  simp only [parity8, List.foldr_cons, List.foldr_nil, Bool.xor_false, Bool.xor_assoc]

/-- ZF, SF and PF as `setZSP` computes them (40_execution R215). -/
theorem setZSP_result (n : Nat) (h : 0 < n) (r : Word) (f : Flags) :
    ResultFlags n r (setZSP n r f) :=
  ⟨by simp [setZSP, BEq.beq], signBit n h r, parity8_eq r⟩

theorem toNat_carryWord (c : Bool) : (carryWord c).toNat = c.toNat := by cases c <;> rfl

/-- The sum as a word. -/
theorem sum_word (a b : Word) (c : Bool) :
    a + b + carryWord c = BitVec.ofNat 32 (a.toNat + b.toNat + c.toNat) := by
  apply BitVec.eq_of_toNat_eq
  simp [toNat_carryWord]

theorem ofInt_sub (x y : Int) : BitVec.ofInt 32 (x - y) = BitVec.ofInt 32 x - BitVec.ofInt 32 y := by
  apply BitVec.eq_of_toInt_eq; simp

/-- The difference as a word. -/
theorem difference_word (a b : Word) (c : Bool) :
    a - b - carryWord c = BitVec.ofInt 32 ((a.toNat : Int) - b.toNat - c.toNat) := by
  rw [ofInt_sub, ofInt_sub, BitVec.ofInt_natCast, BitVec.ofInt_natCast, BitVec.ofInt_natCast]
  simp only [BitVec.ofNat_toNat, BitVec.setWidth_eq]
  cases c <;> rfl

theorem mod_mod_two_pow (n : Nat) (hn : n ≤ 32) (x : Nat) : x % 2 ^ 32 % 2 ^ n = x % 2 ^ n :=
  Nat.mod_mod_of_dvd x (pow_dvd_pow 2 hn)

/-- OF of an addition is signed overflow on `n` bits (40_execution R216). -/
theorem sum_overflow (n : Nat) (h : 0 < n) (hn : n ≤ 32) (a b : Word) (c : Bool) :
    ((a ^^^ (a + b + carryWord c)) &&& (b ^^^ (a + b + carryWord c))).getLsbD (n - 1) =
      outsideSigned n (signedLow n a + signedLow n b + c.toNat) := by
  have h2 := two_pow_pred n h
  have hp : 0 < 2 ^ (n - 1) := by positivity
  rw [BitVec.getLsbD_and, BitVec.getLsbD_xor, BitVec.getLsbD_xor, signBit n h, signBit n h, signBit n h,
    signedLow_eq n h, signedLow_eq n h]
  have hr : (a + b + carryWord c).toNat % 2 ^ n =
      (a.toNat % 2 ^ n + b.toNat % 2 ^ n + c.toNat) % 2 ^ n := by
    rw [BitVec.toNat_add, BitVec.toNat_add, toNat_carryWord, Nat.mod_add_mod, mod_mod_two_pow n hn]
    simp [Nat.add_mod]
  have hA := Nat.mod_lt a.toNat (show 0 < 2 ^ n by positivity)
  have hB := Nat.mod_lt b.toNat (show 0 < 2 ^ n by positivity)
  have hc : c.toNat ≤ 1 := by cases c <;> simp
  unfold outsideSigned
  have e : ((2 : Int) ^ (n - 1)) = ((2 ^ (n - 1) : Nat) : Int) := by push_cast; rfl
  rw [e]
  rw [h2] at hA hB hr ⊢
  generalize 2 ^ (n - 1) = N at *
  generalize (a + b + carryWord c).toNat % (2 * N) = R at *
  generalize a.toNat % (2 * N) = A at *
  generalize b.toNat % (2 * N) = B at *
  generalize c.toNat = C at *
  have hm : R = if A + B + C < 2 * N then A + B + C else A + B + C - 2 * N := by
    rw [hr]
    split
    · exact Nat.mod_eq_of_lt ‹_›
    · rw [Nat.mod_eq_sub_mod (by omega), Nat.mod_eq_of_lt (by omega)]
  clear hr
  by_cases h4 : A + B + C < 2 * N
  · rw [if_pos h4] at hm
    by_cases h1 : N ≤ A <;> by_cases h3 : N ≤ B <;> by_cases h5 : N ≤ R <;>
    simp only [h1, h3, h5, if_true, if_false, decide_true, decide_false, Bool.xor_true,
      Bool.xor_false, Bool.not_true, Bool.not_false, Bool.and_true, Bool.and_false] <;>
    first
      | (symm; apply decide_eq_true; push_cast; omega)
      | (symm; apply decide_eq_false; push_cast; omega)
  · rw [if_neg h4] at hm
    by_cases h1 : N ≤ A <;> by_cases h3 : N ≤ B <;> by_cases h5 : N ≤ R <;>
    simp only [h1, h3, h5, if_true, if_false, decide_true, decide_false, Bool.xor_true,
      Bool.xor_false, Bool.not_true, Bool.not_false, Bool.and_true, Bool.and_false] <;>
    first
      | (symm; apply decide_eq_true; push_cast; omega)
      | (symm; apply decide_eq_false; push_cast; omega)

/-- OF of a subtraction is signed overflow on `n` bits (40_execution R217). -/
theorem difference_overflow (n : Nat) (h : 0 < n) (hn : n ≤ 32) (a b : Word) (c : Bool) :
    ((a ^^^ b) &&& (a ^^^ (a - b - carryWord c))).getLsbD (n - 1) =
      outsideSigned n (signedLow n a - signedLow n b - c.toNat) := by
  have h2 := two_pow_pred n h
  have hp : 0 < 2 ^ (n - 1) := by positivity
  rw [BitVec.getLsbD_and, BitVec.getLsbD_xor, BitVec.getLsbD_xor, signBit n h, signBit n h, signBit n h,
    signedLow_eq n h, signedLow_eq n h]
  have hc : c.toNat ≤ 1 := by cases c <;> simp
  have hback : (a.toNat % 2 ^ n) =
      ((a - b - carryWord c).toNat % 2 ^ n + b.toNat % 2 ^ n + c.toNat) % 2 ^ n := by
    have e : a = (a - b - carryWord c) + b + carryWord c := by ring
    have := congrArg BitVec.toNat e
    conv_lhs => rw [this]
    rw [BitVec.toNat_add, BitVec.toNat_add, toNat_carryWord, Nat.mod_add_mod, mod_mod_two_pow n hn]
    simp [Nat.add_mod]
  have hA := Nat.mod_lt a.toNat (show 0 < 2 ^ n by positivity)
  have hB := Nat.mod_lt b.toNat (show 0 < 2 ^ n by positivity)
  have hR := Nat.mod_lt (a - b - carryWord c).toNat (show 0 < 2 ^ n by positivity)
  unfold outsideSigned
  have e : ((2 : Int) ^ (n - 1)) = ((2 ^ (n - 1) : Nat) : Int) := by push_cast; rfl
  rw [e]
  rw [h2] at hA hB hR hback ⊢
  generalize 2 ^ (n - 1) = N at *
  generalize a.toNat % (2 * N) = A at *
  generalize b.toNat % (2 * N) = B at *
  generalize (a - b - carryWord c).toNat % (2 * N) = R at *
  generalize c.toNat = C at *
  have hm : A = if R + B + C < 2 * N then R + B + C else R + B + C - 2 * N := by
    rw [hback]
    split
    · exact Nat.mod_eq_of_lt ‹_›
    · rw [Nat.mod_eq_sub_mod (by omega), Nat.mod_eq_of_lt (by omega)]
  clear hback
  by_cases h4 : R + B + C < 2 * N
  · rw [if_pos h4] at hm
    by_cases h1 : N ≤ A <;> by_cases h3 : N ≤ B <;> by_cases h5 : N ≤ R <;>
    simp only [h1, h3, h5, if_true, if_false, decide_true, decide_false, Bool.xor_true,
      Bool.xor_false, Bool.not_true, Bool.not_false, Bool.and_true, Bool.and_false] <;>
    first
      | (symm; apply decide_eq_true; push_cast; omega)
      | (symm; apply decide_eq_false; push_cast; omega)
  · rw [if_neg h4] at hm
    by_cases h1 : N ≤ A <;> by_cases h3 : N ≤ B <;> by_cases h5 : N ≤ R <;>
    simp only [h1, h3, h5, if_true, if_false, decide_true, decide_false, Bool.xor_true,
      Bool.xor_false, Bool.not_true, Bool.not_false, Bool.and_true, Bool.and_false] <;>
    first
      | (symm; apply decide_eq_true; push_cast; omega)
      | (symm; apply decide_eq_false; push_cast; omega)

/-- `addFlags` is the flags of the sum. -/
theorem addFlags_sum (n : Nat) (h : 0 < n) (hn : n ≤ 32) (a b : Word) (c : Bool) (f : Flags) :
    SumFlags n a b c (addFlags n a b c f) := by
  refine ⟨?_, rfl, sum_overflow n h hn a b c, rfl⟩
  rw [← sum_word]
  exact setZSP_result n h _ f

/-- `subFlags` is the flags of the difference. -/
theorem subFlags_difference (n : Nat) (h : 0 < n) (hn : n ≤ 32) (a b : Word) (c : Bool) (f : Flags) :
    DifferenceFlags n a b c (subFlags n a b c f) := by
  refine ⟨?_, rfl, difference_overflow n h hn a b c, rfl⟩
  rw [← difference_word]
  exact setZSP_result n h _ f

/-- `logicFlags` is the flags of a logic result. -/
theorem logicFlags_bitwise (n : Nat) (h : 0 < n) (r : Word) (f : Flags) :
    BitwiseFlags n r (logicFlags n r f) := ⟨setZSP_result n h r f, rfl, rfl, rfl⟩

theorem flagBits_pos (p : Params) (w : Width) : 0 < flagBits p w := by
  unfold flagBits; split <;> omega

theorem flagBits_le (p : Params) (w : Width) : flagBits p w ≤ 32 := by
  unfold flagBits; split <;> omega

/-- Every two-operand operation has its exact meaning (40_execution R225). -/
theorem AluOp.meaning (op : AluOp) (n : Nat) (h : 0 < n) (hn : n ≤ 32) (a b : Word) (c : Bool)
    (f : Flags) : AluMeaning op n a b c (op.result a b c) (op.flags n a b c f) := by
  cases op with
  | add =>
    refine ⟨?_, addFlags_sum n h hn a b false f⟩
    have := sum_word a b false
    simpa [carryWord, AluOp.result] using this
  | adc => exact ⟨sum_word a b c, addFlags_sum n h hn a b c f⟩
  | sub =>
    refine ⟨?_, subFlags_difference n h hn a b false f⟩
    have := difference_word a b false
    simpa [carryWord, AluOp.result] using this
  | sbb => exact ⟨difference_word a b c, subFlags_difference n h hn a b c f⟩
  | and => exact ⟨fun i => BitVec.getLsbD_and, logicFlags_bitwise n h _ f⟩
  | or => exact ⟨fun i => BitVec.getLsbD_or, logicFlags_bitwise n h _ f⟩
  | xor => exact ⟨fun i => BitVec.getLsbD_xor, logicFlags_bitwise n h _ f⟩

/-- No ALU operation writes TF, IF or DF. -/
theorem AluOp.flags_control (op : AluOp) (n : Nat) (a b : Word) (c : Bool) (f : Flags) :
    (op.flags n a b c f).tf = f.tf ∧ (op.flags n a b c f).intf = f.intf ∧
      (op.flags n a b c f).df = f.df := by
  cases op <;> exact ⟨rfl, rfl, rfl⟩

end Sys2Proof.Machine
end

