-- ==== Sys2Proof/Laws/Mmu.lean ====
section
/-! SUPPORT. What each MMU operation can do: caches, frame allocation, translation, and the two access
transactions (spec/20_memory.md R80 to R102). -/

namespace Sys2Proof.Machine

variable {α β : Type}

@[simp] theorem MmuResult.bind_ok (x : α) (m : Mmu) (k : α → Mmu → MmuResult β) :
    (MmuResult.ok x m).bind k = k x m := rfl
@[simp] theorem MmuResult.bind_err (e : MmuError) (m : Mmu) (k : α → Mmu → MmuResult β) :
    (MmuResult.err e m).bind k = .err e m := rfl
@[simp] theorem MmuResult.mmu_ok (x : α) (m : Mmu) : (MmuResult.ok x m).mmu = m := rfl
@[simp] theorem MmuResult.mmu_err (e : MmuError) (m : Mmu) :
    (MmuResult.err e m : MmuResult α).mmu = m := rfl

theorem MmuResult.bind_eq_ok {r : MmuResult α} {k : α → Mmu → MmuResult β} {y : β} {n : Mmu}
    (h : r.bind k = .ok y n) : ∃ x m, r = .ok x m ∧ k x m = .ok y n := by
  cases r with
  | ok x m => exact ⟨x, m, rfl, h⟩
  | err e m => cases h

/-! ## Bytes of an address -/

theorem offsetOf_lt (v : Word) : offsetOf v < 4096 := Nat.mod_lt _ (by norm_num)

theorem pageOf_lt (v : Word) : pageOf v < 2 ^ 20 := by
  have := v.isLt
  unfold pageOf; omega

/-- An address is its page and its offset (20_memory R80). -/
theorem page_offset (v : Word) : pageOf v * 4096 + offsetOf v = v.toNat := by
  unfold pageOf offsetOf; omega

/-! ## The caches hold no data (20_memory R94) -/

/-- Two MMUs differ at most in the caches, the cache clock and the counters. -/
def Mmu.SameButCaches (m n : Mmu) : Prop :=
  n = { m with l1 := n.l1, l2 := n.l2, cacheClock := n.cacheClock, counters := n.counters }

theorem Mmu.SameButCaches.refl (m : Mmu) : m.SameButCaches m := rfl

theorem Mmu.SameButCaches.trans {m n k : Mmu} (h : m.SameButCaches n) (h' : n.SameButCaches k) :
    m.SameButCaches k := by
  unfold SameButCaches at *
  rw [h] at h'
  exact h'

theorem Mmu.SameButCaches.phys {m n : Mmu} (h : m.SameButCaches n) : n.phys = m.phys := by rw [h]
theorem Mmu.SameButCaches.pageDir {m n : Mmu} (h : m.SameButCaches n) : n.pageDir = m.pageDir := by rw [h]
theorem Mmu.SameButCaches.freeFrames {m n : Mmu} (h : m.SameButCaches n) :
    n.freeFrames = m.freeFrames := by rw [h]
theorem Mmu.SameButCaches.protectedPages {m n : Mmu} (h : m.SameButCaches n) :
    n.protectedPages = m.protectedPages := by rw [h]
theorem Mmu.SameButCaches.tlb {m n : Mmu} (h : m.SameButCaches n) : n.tlb = m.tlb := by rw [h]
theorem Mmu.SameButCaches.fillDraws {m n : Mmu} (h : m.SameButCaches n) :
    n.fillDraws = m.fillDraws := by rw [h]

variable (p : Params)

theorem Mmu.l2Fill_same (e : Nat × CacheEntry) (m : Mmu) : m.SameButCaches (m.l2Fill p e) := by
  unfold Mmu.l2Fill; split <;> rfl

theorem Mmu.l1MakeRoom_same (line : Nat) (m : Mmu) : m.SameButCaches (m.l1MakeRoom p line) := by
  unfold Mmu.l1MakeRoom
  split
  · split
    · rfl
    · exact SameButCaches.trans (by rfl) (Mmu.l2Fill_same p _ _)
  · rfl

theorem Mmu.l1Insert_same (line : Nat) (m : Mmu) : m.SameButCaches (m.l1Insert p line) :=
  SameButCaches.trans (Mmu.l1MakeRoom_same p line m) (by rfl)

theorem Mmu.physRead_eq (v : Word) (a : Nat) (w : Width) (m : Mmu) :
    m.physRead p v a w = if a + w.bytes ≤ p.memSize
      then .ok (wordOfBytes (m.phys.readBytes a w.bytes)) m
      else .err (.memoryAccessViolation v a w.bytes) m := by
  unfold Mmu.physRead Mmu.checkBounds
  by_cases h : a + w.bytes ≤ p.memSize
  · rw [if_neg (by omega), if_pos h]; rfl
  · rw [if_pos (by omega), if_neg h]; rfl

/-- A physical read from an MMU that differs only in its caches. -/
theorem Mmu.SameButCaches.physRead {m n : Mmu} (h : m.SameButCaches n) (v : Word) (a : Nat)
    (w : Width) : n.physRead p v a w = if a + w.bytes ≤ p.memSize
      then .ok (wordOfBytes (m.phys.readBytes a w.bytes)) n
      else .err (.memoryAccessViolation v a w.bytes) n := by
  rw [Mmu.physRead_eq, h.phys]

/-- All a cached read can do (20_memory R95, R97): the value is that of the byte store. -/
theorem Mmu.readAt_spec (v : Word) (a : Nat) (w : Width) (m : Mmu) :
    ∃ n, m.SameButCaches n ∧ m.readAt p v a w = if a + w.bytes ≤ p.memSize
      then .ok (wordOfBytes (m.phys.readBytes a w.bytes)) n
      else .err (.memoryAccessViolation v a w.bytes) n := by
  unfold Mmu.readAt
  dsimp only
  split
  · exact ⟨_, by rfl, SameButCaches.physRead p (by rfl) v a w⟩
  · split
    · exact ⟨_, SameButCaches.trans (by rfl) (Mmu.l1Insert_same p _ _), SameButCaches.physRead p
        (SameButCaches.trans (by rfl) (Mmu.l1Insert_same p _ _)) v a w⟩
    · rw [SameButCaches.physRead p (m := m) (by rfl) v a w]
      by_cases h : a + w.bytes ≤ p.memSize
      · simp only [if_pos h, MmuResult.bind_ok]
        exact ⟨_, SameButCaches.trans (by rfl) (Mmu.l1Insert_same p _ _), rfl⟩
      · simp only [if_neg h, MmuResult.bind_err]
        exact ⟨_, by rfl, rfl⟩

/-- All a write can do after translation (20_memory R100, R101). -/
theorem Mmu.writeAt_eq (v : Word) (a : Nat) (w : Width) (x : Word) (m : Mmu) :
    m.writeAt p v a w x = if a + w.bytes ≤ p.memSize
      then .ok () { m with
        phys := m.phys.writeBytes a (wordBytes w.bytes x)
        l1 := tableErase m.l1 (lineOf a)
        l2 := tableErase m.l2 (lineOf a) }
      else .err (.memoryAccessViolation v a w.bytes) m := by
  unfold Mmu.writeAt Mmu.physWrite Mmu.checkBounds
  by_cases h : a + w.bytes ≤ p.memSize
  · rw [if_neg (by omega), if_pos h]; rfl
  · rw [if_pos (by omega), if_neg h]; rfl

/-! ## The TLB (20_memory R89) -/

/-- The page just translated is in the TLB. -/
theorem Mmu.tlbInsert_find (page frame : Nat) (m : Mmu) :
    tableFind (m.tlbInsert page frame).tlb page = some frame := by
  have hf : ∀ t : List (Nat × Nat), (∀ e ∈ t, e.1 ≠ page) →
      tableFind (t ++ [(page, frame)]) page = some frame := by
    intro t ht
    rw [tableFind_append]
    have : tableFind t page = none := by
      by_contra hne
      obtain ⟨x, hx⟩ := Option.ne_none_iff_exists'.1 hne
      exact ht _ (mem_of_tableFind hx) rfl
    rw [this]; simp [tableFind_cons]
  have he : ∀ e ∈ tableErase m.tlb page, e.1 ≠ page := fun e h => (mem_tableErase.1 h).2
  unfold Mmu.tlbInsert
  dsimp only
  split
  · next hl =>
    cases ht : tableErase m.tlb page with
    | nil => rw [ht] at hl; simp [tlbCap] at hl
    | cons d t =>
      rw [List.cons_append, List.tail_cons]
      exact hf t fun e h => he e (by rw [ht]; exact List.mem_cons_of_mem _ h)
  · exact hf _ he

theorem Mmu.mem_tlbInsert {page frame : Nat} {m : Mmu} {e : Nat × Nat}
    (h : e ∈ (m.tlbInsert page frame).tlb) : e = (page, frame) ∨ (e ∈ m.tlb ∧ e.1 ≠ page) := by
  have h' : e ∈ tableErase m.tlb page ++ [(page, frame)] := by
    unfold Mmu.tlbInsert at h
    dsimp only at h
    split at h
    · exact List.mem_of_mem_tail h
    · exact h
  rcases List.mem_append.1 h' with h | h
  · exact .inr (mem_tableErase.1 h)
  · exact .inl (by simpa using h)

/-! ## Frame allocation (20_memory R90 to R92) -/

theorem Mmu.victim_unprotected {m : Mmu} {e : Nat × PageTableEntry} (h : m.victim = some e) :
    e ∈ m.pageDir ∧ e.1 ∉ m.protectedPages :=
  ⟨List.mem_of_find?_eq_some h, by simpa using List.find?_some h⟩

theorem Mmu.victim_none {m : Mmu} : m.victim = none ↔ ∀ e ∈ m.pageDir, e.1 ∈ m.protectedPages := by
  simp [Mmu.victim, List.find?_eq_none]

@[simp] theorem Mmu.evict_phys (m : Mmu) (page : Nat) : (m.evict page).phys = m.phys := by
  unfold Mmu.evict; split <;> rfl
@[simp] theorem Mmu.evict_protectedPages (m : Mmu) (page : Nat) :
    (m.evict page).protectedPages = m.protectedPages := by
  unfold Mmu.evict; split <;> rfl
@[simp] theorem Mmu.evict_fillDraws (m : Mmu) (page : Nat) :
    (m.evict page).fillDraws = m.fillDraws := by
  unfold Mmu.evict; split <;> rfl

/-- All a frame allocation can do (20_memory R90). -/
theorem Mmu.allocFrame_cases (m : Mmu) :
    (∃ f rest, m.freeFrames = f :: rest ∧ m.allocFrame = .ok f { m with freeFrames := rest }) ∨
    (m.freeFrames = [] ∧ ∃ page e, m.victim = some (page, e) ∧
      m.allocFrame = .ok e.frameNumber
        { m.evict page with freeFrames := setErase (m.evict page).freeFrames e.frameNumber }) ∨
    (m.freeFrames = [] ∧ m.victim = none ∧ m.allocFrame = .err .outOfPhysicalMemory m) := by
  cases hf : m.freeFrames with
  | cons f rest => exact .inl ⟨f, rest, rfl, by simp [Mmu.allocFrame, hf]⟩
  | nil =>
    cases hv : m.victim with
    | none => exact .inr (.inr ⟨rfl, rfl, by simp [Mmu.allocFrame, hf, hv]⟩)
    | some e => exact .inr (.inl ⟨rfl, e.1, e.2, rfl, by simp [Mmu.allocFrame, hf, hv]⟩)

/-- A frame is found exactly when one is free or some page is not protected (20_memory R90, R403). -/
theorem Mmu.allocFrame_err_iff (m : Mmu) :
    (∃ e n, m.allocFrame = .err e n) ↔
      m.freeFrames = [] ∧ ∀ e ∈ m.pageDir, e.1 ∈ m.protectedPages := by
  rw [← Mmu.victim_none]
  rcases m.allocFrame_cases with ⟨f, r, h, h'⟩ | ⟨h, q, e, hv, h'⟩ | ⟨h, hv, h'⟩ <;> simp [*]

theorem Mmu.allocFrame_phys (m : Mmu) : m.allocFrame.mmu.phys = m.phys := by
  rcases m.allocFrame_cases with ⟨f, r, _, h⟩ | ⟨_, q, e, _, h⟩ | ⟨_, _, h⟩ <;> rw [h] <;> simp

theorem Mmu.allocFrame_protectedPages (m : Mmu) :
    m.allocFrame.mmu.protectedPages = m.protectedPages := by
  rcases m.allocFrame_cases with ⟨f, r, _, h⟩ | ⟨_, q, e, _, h⟩ | ⟨_, _, h⟩ <;> rw [h] <;> simp

theorem Mmu.fillFrame_keep (h : p.frameFill = .keep) (f : Nat) (m : Mmu) : m.fillFrame p f = m := by
  simp [Mmu.fillFrame, h]

/-- Filling a frame changes no byte of another frame (20_memory R92). -/
theorem Mmu.fillFrame_other (f : Nat) (m : Mmu) (a : Nat) (h : a / 4096 ≠ f) :
    (m.fillFrame p f).phys.read a = m.phys.read a := by
  unfold Mmu.fillFrame
  split
  · rfl
  · dsimp only; rw [Memory.read_clear, if_neg (by unfold frameAddr; omega)]
  · dsimp only
    rw [Memory.read_writeBytes, if_neg]
    simp only [List.length_map, List.length_range, frameAddr]
    omega

theorem Mmu.fillFrame_eq (f : Nat) (m : Mmu) : m.fillFrame p f =
    { m with phys := (m.fillFrame p f).phys, fillDraws := (m.fillFrame p f).fillDraws } := by
  unfold Mmu.fillFrame
  split
  · rfl
  · rfl
  · dsimp only

/-- The page just mapped is resident. -/
theorem Mmu.mapPage_resident (page f : Nat) (m : Mmu) :
    (m.mapPage page f).residentFrame page = some f := by
  unfold Mmu.mapPage Mmu.residentFrame
  dsimp only
  rw [tableFind_append, tableFind_tableErase, if_pos rfl]
  simp [tableFind_cons, newEntry]

/-! ## Translation (20_memory R88) -/

/-- All a translation can do: a TLB hit, a resident page, or a page fault. -/
theorem Mmu.translate_cases (v : Word) (m : Mmu) :
    (∃ f, tableFind m.tlb (pageOf v) = some f ∧
      m.translate p v = .ok (frameAddr f (offsetOf v)) m.countTlbHit) ∨
    (tableFind m.tlb (pageOf v) = none ∧ ∃ f, m.residentFrame (pageOf v) = some f ∧
      m.translate p v =
        .ok (frameAddr f (offsetOf v)) (m.countTlbMiss.tlbInsert (pageOf v) f)) ∨
    (tableFind m.tlb (pageOf v) = none ∧ m.residentFrame (pageOf v) = none ∧
      ∃ f k, m.countTlbMiss.countPageFault.allocFrame = .ok f k ∧
      m.translate p v = .ok (frameAddr f (offsetOf v))
        (((k.fillFrame p f).mapPage (pageOf v) f).tlbInsert (pageOf v) f)) ∨
    (tableFind m.tlb (pageOf v) = none ∧ m.residentFrame (pageOf v) = none ∧
      ∃ e, m.countTlbMiss.countPageFault.allocFrame = .err e m.countTlbMiss.countPageFault ∧
      m.translate p v = .err e m.countTlbMiss.countPageFault) := by
  have hr : m.countTlbMiss.residentFrame (pageOf v) = m.residentFrame (pageOf v) := rfl
  cases h1 : tableFind m.tlb (pageOf v) with
  | some f => exact .inl ⟨f, rfl, by simp [Mmu.translate, h1]⟩
  | none =>
    cases h2 : m.residentFrame (pageOf v) with
    | some f => exact .inr (.inl ⟨rfl, f, rfl, by simp [Mmu.translate, Mmu.walk, h1, hr, h2]⟩)
    | none =>
      cases h3 : m.countTlbMiss.countPageFault.allocFrame with
      | ok f k =>
        exact .inr (.inr (.inl ⟨rfl, rfl, f, k, rfl,
          by simp [Mmu.translate, Mmu.walk, Mmu.pageFault, h1, hr, h2, h3]⟩))
      | err e k =>
        have hk : k = m.countTlbMiss.countPageFault := by
          rcases Mmu.allocFrame_cases m.countTlbMiss.countPageFault with
            ⟨f, r, _, h⟩ | ⟨_, q, e', _, h⟩ | ⟨_, _, h⟩ <;> rw [h3] at h <;> simp at h
          exact h.2
        subst hk
        exact .inr (.inr (.inr ⟨rfl, rfl, e, rfl,
          by simp [Mmu.translate, Mmu.walk, Mmu.pageFault, h1, hr, h2, h3]⟩))

/-- After a translation the page is in the TLB, with the frame that was used. -/
theorem Mmu.translate_tlb {v : Word} {m n : Mmu} {a : Nat} (h : m.translate p v = .ok a n) :
    ∃ f, a = frameAddr f (offsetOf v) ∧ tableFind n.tlb (pageOf v) = some f := by
  rcases m.translate_cases p v with ⟨f, hf, h'⟩ | ⟨_, f, _, h'⟩ | ⟨_, _, f, k, _, h'⟩ | ⟨_, _, e, _, h'⟩
    <;> rw [h] at h' <;> simp only [MmuResult.ok.injEq, reduceCtorEq] at h'
  · obtain ⟨rfl, rfl⟩ := h'; exact ⟨f, rfl, hf⟩
  · obtain ⟨rfl, rfl⟩ := h'; exact ⟨f, rfl, Mmu.tlbInsert_find _ _ _⟩
  · obtain ⟨rfl, rfl⟩ := h'; exact ⟨f, rfl, Mmu.tlbInsert_find _ _ _⟩

/-- A page in the TLB translates to its frame, and only a counter changes. -/
theorem Mmu.translate_hit {v : Word} {m : Mmu} {f : Nat} (h : tableFind m.tlb (pageOf v) = some f) :
    m.translate p v = .ok (frameAddr f (offsetOf v)) m.countTlbHit := by
  simp [Mmu.translate, h]

/-- A second translation of the same address gives the same physical address. -/
theorem Mmu.translate_again {v : Word} {m n k : Mmu} {a : Nat} (h : m.translate p v = .ok a n)
    (hk : k.tlb = n.tlb) : k.translate p v = .ok a k.countTlbHit := by
  obtain ⟨f, rfl, hf⟩ := Mmu.translate_tlb p h
  exact Mmu.translate_hit p (by rw [hk, hf])

/-- A byte a translation changes lies in a frame that was just given to the page (20_memory R92). -/
theorem Mmu.translate_phys {v : Word} {m : Mmu} {a : Nat}
    (h : (m.translate p v).mmu.phys.read a ≠ m.phys.read a) :
    p.frameFill ≠ .keep ∧ m.residentFrame (pageOf v) = none ∧
      (m.translate p v).mmu.residentFrame (pageOf v) = some (a / 4096) := by
  rcases m.translate_cases p v with ⟨f, _, h'⟩ | ⟨_, f, _, h'⟩ | ⟨_, hn, f, k, hk, h'⟩ | ⟨_, _, e, _, h'⟩
    <;> rw [h'] at h ⊢
  · exact absurd rfl h
  · exact absurd rfl h
  · have hp : k.phys = m.phys := by
      have := Mmu.allocFrame_phys m.countTlbMiss.countPageFault
      rw [hk] at this; exact this
    have hq : (k.fillFrame p f).phys.read a ≠ m.phys.read a := h
    refine ⟨fun hkeep => ?_, hn, ?_⟩
    · rw [Mmu.fillFrame_keep p hkeep, hp] at hq; exact hq rfl
    · have hf : a / 4096 = f := by
        by_contra hne
        rw [Mmu.fillFrame_other p f k a hne, hp] at hq; exact hq rfl
      rw [hf]; exact Mmu.mapPage_resident _ _ _
  · exact absurd rfl h

theorem Mmu.translate_protectedPages (v : Word) (m : Mmu) :
    (m.translate p v).mmu.protectedPages = m.protectedPages := by
  rcases m.translate_cases p v with ⟨f, _, h'⟩ | ⟨_, f, _, h'⟩ | ⟨_, hn, f, k, hk, h'⟩ | ⟨_, _, e, _, h'⟩
    <;> rw [h']
  · rfl
  · rfl
  · have := Mmu.allocFrame_protectedPages m.countTlbMiss.countPageFault
    rw [hk] at this
    rw [MmuResult.mmu_ok]
    show (k.fillFrame p f).protectedPages = _
    rw [Mmu.fillFrame_eq]; exact this
  · rfl

end Sys2Proof.Machine
end

