-- ==== Sys2Proof/Laws/State.lean ====
section
/-! SUPPORT. The fields of State after each named update, and registers read after they are written. -/

namespace Sys2Proof.Machine

variable (s : State)

@[simp] theorem State.setReg_params (r : Reg32) (v : Word) : (s.setReg r v).params = s.params := rfl
@[simp] theorem State.setReg_regs (r : Reg32) (v : Word) : (s.setReg r v).regs = s.regs.set r v := rfl
@[simp] theorem State.setReg_eip (r : Reg32) (v : Word) : (s.setReg r v).eip = s.eip := rfl
@[simp] theorem State.setReg_flags (r : Reg32) (v : Word) : (s.setReg r v).flags = s.flags := rfl
@[simp] theorem State.setReg_halted (r : Reg32) (v : Word) : (s.setReg r v).halted = s.halted := rfl
@[simp] theorem State.setReg_interruptEnabled (r : Reg32) (v : Word) : (s.setReg r v).interruptEnabled = s.interruptEnabled := rfl
@[simp] theorem State.setReg_instructionCount (r : Reg32) (v : Word) : (s.setReg r v).instructionCount = s.instructionCount := rfl
@[simp] theorem State.setReg_cycleCount (r : Reg32) (v : Word) : (s.setReg r v).cycleCount = s.cycleCount := rfl
@[simp] theorem State.setReg_interrupts (r : Reg32) (v : Word) : (s.setReg r v).interrupts = s.interrupts := rfl
@[simp] theorem State.setReg_segmentRegisters (r : Reg32) (v : Word) : (s.setReg r v).segmentRegisters = s.segmentRegisters := rfl
@[simp] theorem State.setReg_controlRegisters (r : Reg32) (v : Word) : (s.setReg r v).controlRegisters = s.controlRegisters := rfl
@[simp] theorem State.setReg_breakpoints (r : Reg32) (v : Word) : (s.setReg r v).breakpoints = s.breakpoints := rfl
@[simp] theorem State.setReg_mmu (r : Reg32) (v : Word) : (s.setReg r v).mmu = s.mmu := rfl
@[simp] theorem State.setReg_clockDraws (r : Reg32) (v : Word) : (s.setReg r v).clockDraws = s.clockDraws := rfl
@[simp] theorem State.setReg_clockLast (r : Reg32) (v : Word) : (s.setReg r v).clockLast = s.clockLast := rfl
@[simp] theorem State.setReg_randDraws (r : Reg32) (v : Word) : (s.setReg r v).randDraws = s.randDraws := rfl

@[simp] theorem State.setReg8_params (r : Reg8) (v : Byte) : (s.setReg8 r v).params = s.params := rfl
@[simp] theorem State.setReg8_regs (r : Reg8) (v : Byte) : (s.setReg8 r v).regs = s.regs.set8 r v := rfl
@[simp] theorem State.setReg8_eip (r : Reg8) (v : Byte) : (s.setReg8 r v).eip = s.eip := rfl
@[simp] theorem State.setReg8_flags (r : Reg8) (v : Byte) : (s.setReg8 r v).flags = s.flags := rfl
@[simp] theorem State.setReg8_halted (r : Reg8) (v : Byte) : (s.setReg8 r v).halted = s.halted := rfl
@[simp] theorem State.setReg8_interruptEnabled (r : Reg8) (v : Byte) : (s.setReg8 r v).interruptEnabled = s.interruptEnabled := rfl
@[simp] theorem State.setReg8_instructionCount (r : Reg8) (v : Byte) : (s.setReg8 r v).instructionCount = s.instructionCount := rfl
@[simp] theorem State.setReg8_cycleCount (r : Reg8) (v : Byte) : (s.setReg8 r v).cycleCount = s.cycleCount := rfl
@[simp] theorem State.setReg8_interrupts (r : Reg8) (v : Byte) : (s.setReg8 r v).interrupts = s.interrupts := rfl
@[simp] theorem State.setReg8_segmentRegisters (r : Reg8) (v : Byte) : (s.setReg8 r v).segmentRegisters = s.segmentRegisters := rfl
@[simp] theorem State.setReg8_controlRegisters (r : Reg8) (v : Byte) : (s.setReg8 r v).controlRegisters = s.controlRegisters := rfl
@[simp] theorem State.setReg8_breakpoints (r : Reg8) (v : Byte) : (s.setReg8 r v).breakpoints = s.breakpoints := rfl
@[simp] theorem State.setReg8_mmu (r : Reg8) (v : Byte) : (s.setReg8 r v).mmu = s.mmu := rfl
@[simp] theorem State.setReg8_clockDraws (r : Reg8) (v : Byte) : (s.setReg8 r v).clockDraws = s.clockDraws := rfl
@[simp] theorem State.setReg8_clockLast (r : Reg8) (v : Byte) : (s.setReg8 r v).clockLast = s.clockLast := rfl
@[simp] theorem State.setReg8_randDraws (r : Reg8) (v : Byte) : (s.setReg8 r v).randDraws = s.randDraws := rfl

@[simp] theorem State.setFlags_params (f : Flags) : (s.setFlags f).params = s.params := rfl
@[simp] theorem State.setFlags_regs (f : Flags) : (s.setFlags f).regs = s.regs := rfl
@[simp] theorem State.setFlags_eip (f : Flags) : (s.setFlags f).eip = s.eip := rfl
@[simp] theorem State.setFlags_flags (f : Flags) : (s.setFlags f).flags = f := rfl
@[simp] theorem State.setFlags_halted (f : Flags) : (s.setFlags f).halted = s.halted := rfl
@[simp] theorem State.setFlags_interruptEnabled (f : Flags) : (s.setFlags f).interruptEnabled = s.interruptEnabled := rfl
@[simp] theorem State.setFlags_instructionCount (f : Flags) : (s.setFlags f).instructionCount = s.instructionCount := rfl
@[simp] theorem State.setFlags_cycleCount (f : Flags) : (s.setFlags f).cycleCount = s.cycleCount := rfl
@[simp] theorem State.setFlags_interrupts (f : Flags) : (s.setFlags f).interrupts = s.interrupts := rfl
@[simp] theorem State.setFlags_segmentRegisters (f : Flags) : (s.setFlags f).segmentRegisters = s.segmentRegisters := rfl
@[simp] theorem State.setFlags_controlRegisters (f : Flags) : (s.setFlags f).controlRegisters = s.controlRegisters := rfl
@[simp] theorem State.setFlags_breakpoints (f : Flags) : (s.setFlags f).breakpoints = s.breakpoints := rfl
@[simp] theorem State.setFlags_mmu (f : Flags) : (s.setFlags f).mmu = s.mmu := rfl
@[simp] theorem State.setFlags_clockDraws (f : Flags) : (s.setFlags f).clockDraws = s.clockDraws := rfl
@[simp] theorem State.setFlags_clockLast (f : Flags) : (s.setFlags f).clockLast = s.clockLast := rfl
@[simp] theorem State.setFlags_randDraws (f : Flags) : (s.setFlags f).randDraws = s.randDraws := rfl

@[simp] theorem State.setEip_params (v : Word) : (s.setEip v).params = s.params := rfl
@[simp] theorem State.setEip_regs (v : Word) : (s.setEip v).regs = s.regs := rfl
@[simp] theorem State.setEip_eip (v : Word) : (s.setEip v).eip = v := rfl
@[simp] theorem State.setEip_flags (v : Word) : (s.setEip v).flags = s.flags := rfl
@[simp] theorem State.setEip_halted (v : Word) : (s.setEip v).halted = s.halted := rfl
@[simp] theorem State.setEip_interruptEnabled (v : Word) : (s.setEip v).interruptEnabled = s.interruptEnabled := rfl
@[simp] theorem State.setEip_instructionCount (v : Word) : (s.setEip v).instructionCount = s.instructionCount := rfl
@[simp] theorem State.setEip_cycleCount (v : Word) : (s.setEip v).cycleCount = s.cycleCount := rfl
@[simp] theorem State.setEip_interrupts (v : Word) : (s.setEip v).interrupts = s.interrupts := rfl
@[simp] theorem State.setEip_segmentRegisters (v : Word) : (s.setEip v).segmentRegisters = s.segmentRegisters := rfl
@[simp] theorem State.setEip_controlRegisters (v : Word) : (s.setEip v).controlRegisters = s.controlRegisters := rfl
@[simp] theorem State.setEip_breakpoints (v : Word) : (s.setEip v).breakpoints = s.breakpoints := rfl
@[simp] theorem State.setEip_mmu (v : Word) : (s.setEip v).mmu = s.mmu := rfl
@[simp] theorem State.setEip_clockDraws (v : Word) : (s.setEip v).clockDraws = s.clockDraws := rfl
@[simp] theorem State.setEip_clockLast (v : Word) : (s.setEip v).clockLast = s.clockLast := rfl
@[simp] theorem State.setEip_randDraws (v : Word) : (s.setEip v).randDraws = s.randDraws := rfl

@[simp] theorem State.setMmu_params (m : Mmu) : (s.setMmu m).params = s.params := rfl
@[simp] theorem State.setMmu_regs (m : Mmu) : (s.setMmu m).regs = s.regs := rfl
@[simp] theorem State.setMmu_eip (m : Mmu) : (s.setMmu m).eip = s.eip := rfl
@[simp] theorem State.setMmu_flags (m : Mmu) : (s.setMmu m).flags = s.flags := rfl
@[simp] theorem State.setMmu_halted (m : Mmu) : (s.setMmu m).halted = s.halted := rfl
@[simp] theorem State.setMmu_interruptEnabled (m : Mmu) : (s.setMmu m).interruptEnabled = s.interruptEnabled := rfl
@[simp] theorem State.setMmu_instructionCount (m : Mmu) : (s.setMmu m).instructionCount = s.instructionCount := rfl
@[simp] theorem State.setMmu_cycleCount (m : Mmu) : (s.setMmu m).cycleCount = s.cycleCount := rfl
@[simp] theorem State.setMmu_interrupts (m : Mmu) : (s.setMmu m).interrupts = s.interrupts := rfl
@[simp] theorem State.setMmu_segmentRegisters (m : Mmu) : (s.setMmu m).segmentRegisters = s.segmentRegisters := rfl
@[simp] theorem State.setMmu_controlRegisters (m : Mmu) : (s.setMmu m).controlRegisters = s.controlRegisters := rfl
@[simp] theorem State.setMmu_breakpoints (m : Mmu) : (s.setMmu m).breakpoints = s.breakpoints := rfl
@[simp] theorem State.setMmu_mmu (m : Mmu) : (s.setMmu m).mmu = m := rfl
@[simp] theorem State.setMmu_clockDraws (m : Mmu) : (s.setMmu m).clockDraws = s.clockDraws := rfl
@[simp] theorem State.setMmu_clockLast (m : Mmu) : (s.setMmu m).clockLast = s.clockLast := rfl
@[simp] theorem State.setMmu_randDraws (m : Mmu) : (s.setMmu m).randDraws = s.randDraws := rfl

@[simp] theorem afterClockDraw_params : (afterClockDraw s).params = s.params := rfl
@[simp] theorem afterClockDraw_regs : (afterClockDraw s).regs = s.regs := rfl
@[simp] theorem afterClockDraw_eip : (afterClockDraw s).eip = s.eip := rfl
@[simp] theorem afterClockDraw_flags : (afterClockDraw s).flags = s.flags := rfl
@[simp] theorem afterClockDraw_halted : (afterClockDraw s).halted = s.halted := rfl
@[simp] theorem afterClockDraw_interruptEnabled : (afterClockDraw s).interruptEnabled = s.interruptEnabled := rfl
@[simp] theorem afterClockDraw_instructionCount : (afterClockDraw s).instructionCount = s.instructionCount := rfl
@[simp] theorem afterClockDraw_cycleCount : (afterClockDraw s).cycleCount = s.cycleCount := rfl
@[simp] theorem afterClockDraw_interrupts : (afterClockDraw s).interrupts = s.interrupts := rfl
@[simp] theorem afterClockDraw_segmentRegisters : (afterClockDraw s).segmentRegisters = s.segmentRegisters := rfl
@[simp] theorem afterClockDraw_controlRegisters : (afterClockDraw s).controlRegisters = s.controlRegisters := rfl
@[simp] theorem afterClockDraw_breakpoints : (afterClockDraw s).breakpoints = s.breakpoints := rfl
@[simp] theorem afterClockDraw_mmu : (afterClockDraw s).mmu = s.mmu := rfl
@[simp] theorem afterClockDraw_clockDraws : (afterClockDraw s).clockDraws = s.clockDraws + 1 := rfl
@[simp] theorem afterClockDraw_clockLast : (afterClockDraw s).clockLast = clockDraw s := rfl
@[simp] theorem afterClockDraw_randDraws : (afterClockDraw s).randDraws = s.randDraws := rfl

@[simp] theorem afterRandDraw_params : (afterRandDraw s).params = s.params := rfl
@[simp] theorem afterRandDraw_regs : (afterRandDraw s).regs = s.regs := rfl
@[simp] theorem afterRandDraw_eip : (afterRandDraw s).eip = s.eip := rfl
@[simp] theorem afterRandDraw_flags : (afterRandDraw s).flags = s.flags := rfl
@[simp] theorem afterRandDraw_halted : (afterRandDraw s).halted = s.halted := rfl
@[simp] theorem afterRandDraw_interruptEnabled : (afterRandDraw s).interruptEnabled = s.interruptEnabled := rfl
@[simp] theorem afterRandDraw_instructionCount : (afterRandDraw s).instructionCount = s.instructionCount := rfl
@[simp] theorem afterRandDraw_cycleCount : (afterRandDraw s).cycleCount = s.cycleCount := rfl
@[simp] theorem afterRandDraw_interrupts : (afterRandDraw s).interrupts = s.interrupts := rfl
@[simp] theorem afterRandDraw_segmentRegisters : (afterRandDraw s).segmentRegisters = s.segmentRegisters := rfl
@[simp] theorem afterRandDraw_controlRegisters : (afterRandDraw s).controlRegisters = s.controlRegisters := rfl
@[simp] theorem afterRandDraw_breakpoints : (afterRandDraw s).breakpoints = s.breakpoints := rfl
@[simp] theorem afterRandDraw_mmu : (afterRandDraw s).mmu = s.mmu := rfl
@[simp] theorem afterRandDraw_clockDraws : (afterRandDraw s).clockDraws = s.clockDraws := rfl
@[simp] theorem afterRandDraw_clockLast : (afterRandDraw s).clockLast = s.clockLast := rfl
@[simp] theorem afterRandDraw_randDraws : (afterRandDraw s).randDraws = s.randDraws + 1 := rfl

@[simp] theorem retire_params (i : Instr) (e : Word) :
    (retire i e s).params = s.params := rfl
@[simp] theorem retire_regs (i : Instr) (e : Word) :
    (retire i e s).regs = s.regs := rfl
@[simp] theorem retire_eip (i : Instr) (e : Word) :
    (retire i e s).eip = if s.eip = e then e + BitVec.ofNat 32 i.size else s.eip := rfl
@[simp] theorem retire_flags (i : Instr) (e : Word) :
    (retire i e s).flags = s.flags := rfl
@[simp] theorem retire_halted (i : Instr) (e : Word) :
    (retire i e s).halted = s.halted := rfl
@[simp] theorem retire_interruptEnabled (i : Instr) (e : Word) :
    (retire i e s).interruptEnabled = s.interruptEnabled := rfl
@[simp] theorem retire_instructionCount (i : Instr) (e : Word) :
    (retire i e s).instructionCount = s.instructionCount + 1 := rfl
@[simp] theorem retire_cycleCount (i : Instr) (e : Word) :
    (retire i e s).cycleCount = s.cycleCount + cycleCost i.mnemonic := rfl
@[simp] theorem retire_interrupts (i : Instr) (e : Word) :
    (retire i e s).interrupts = s.interrupts := rfl
@[simp] theorem retire_segmentRegisters (i : Instr) (e : Word) :
    (retire i e s).segmentRegisters = s.segmentRegisters := rfl
@[simp] theorem retire_controlRegisters (i : Instr) (e : Word) :
    (retire i e s).controlRegisters = s.controlRegisters := rfl
@[simp] theorem retire_breakpoints (i : Instr) (e : Word) :
    (retire i e s).breakpoints = s.breakpoints := rfl
@[simp] theorem retire_mmu (i : Instr) (e : Word) :
    (retire i e s).mmu = s.mmu := rfl
@[simp] theorem retire_clockDraws (i : Instr) (e : Word) :
    (retire i e s).clockDraws = s.clockDraws := rfl
@[simp] theorem retire_clockLast (i : Instr) (e : Word) :
    (retire i e s).clockLast = s.clockLast := rfl
@[simp] theorem retire_randDraws (i : Instr) (e : Word) :
    (retire i e s).randDraws = s.randDraws := rfl

/-! ## Registers (10_state R33) -/

@[simp] theorem Regs.get_set_self (g : Regs) (r : Reg32) (v : Word) : (g.set r v).get r = v := by
  cases r <;> rfl

theorem Regs.get_set_other (g : Regs) {r r' : Reg32} (v : Word) (h : r' ≠ r) :
    (g.set r v).get r' = g.get r' := by
  cases r <;> cases r' <;> first | rfl | exact absurd rfl h

theorem Regs.get_set (g : Regs) (r r' : Reg32) (v : Word) :
    (g.set r v).get r' = if r' = r then v else g.get r' := by
  split
  · next h => rw [h, Regs.get_set_self]
  · next h => exact Regs.get_set_other g v h

/-- Two register files with the same values are the same. -/
theorem Regs.ext_get {g h : Regs} (e : ∀ r, g.get r = h.get r) : g = h := by
  cases g; cases h
  have := e .eax; have := e .ecx; have := e .edx; have := e .ebx
  have := e .esp; have := e .ebp; have := e .esi; have := e .edi
  simp_all [Regs.get]

theorem Regs.set_get_self (g : Regs) (r : Reg32) : g.set r (g.get r) = g := by
  cases r <;> rfl

@[simp] theorem State.reg_setReg_self (r : Reg32) (v : Word) : (s.setReg r v).reg r = v :=
  Regs.get_set_self _ _ _

theorem State.reg_setReg_other {r r' : Reg32} (v : Word) (h : r' ≠ r) :
    (s.setReg r v).reg r' = s.reg r' := Regs.get_set_other _ v h

@[simp] theorem State.reg_setFlags (f : Flags) (r : Reg32) : (s.setFlags f).reg r = s.reg r := rfl
@[simp] theorem State.reg_setEip (v : Word) (r : Reg32) : (s.setEip v).reg r = s.reg r := rfl
@[simp] theorem State.reg_setMmu (m : Mmu) (r : Reg32) : (s.setMmu m).reg r = s.reg r := rfl
@[simp] theorem State.reg_afterRandDraw (r : Reg32) : (afterRandDraw s).reg r = s.reg r := rfl
@[simp] theorem State.reg_afterClockDraw (r : Reg32) : (afterClockDraw s).reg r = s.reg r := rfl
@[simp] theorem State.setMmu_self : s.setMmu s.mmu = s := rfl
@[simp] theorem State.setMmu_setMmu (m n : Mmu) : (s.setMmu m).setMmu n = s.setMmu n := rfl

/-- The bits of the mask of one byte. -/
theorem byteMask_getLsbD (k : Nat) : (0xFF#32).getLsbD k = decide (k < 8) := by
  rcases Nat.lt_or_ge k 32 with h | h
  · interval_cases k <;> rfl
  · rw [BitVec.getLsbD_of_ge _ _ h]; exact (decide_eq_false (by omega)).symm

/-- Every bit of a word one of whose bytes was replaced (10_state R33). -/
theorem replaceByte_getLsbD (x : Word) (n : Nat) (v : Byte) (i : Nat) (h : i < 32) :
    (replaceByte x n v).getLsbD i = if n ≤ i ∧ i < n + 8 then v.getLsbD (i - n) else x.getLsbD i := by
  simp only [replaceByte, BitVec.getLsbD_or, BitVec.getLsbD_and, BitVec.getLsbD_not,
    BitVec.getLsbD_shiftLeft, BitVec.getLsbD_setWidth, byteMask_getLsbD, h, decide_true, Bool.true_and]
  by_cases h1 : i < n
  · simp [h1]
  · by_cases h2 : i < n + 8
    · have h3 : i - n < 8 := by omega
      have h4 : n ≤ i := by omega
      have h5 : i - n < 32 := by omega
      simp [h1, h2, h3, h4, h5]
    · have h3 : ¬ i - n < 8 := by omega
      have h4 : n ≤ i := by omega
      rw [if_neg (by omega), BitVec.getLsbD_of_ge v (i - n) (by omega)]
      simp [h3]

/-- The byte that was replaced. -/
theorem replaceByte_same (x : Word) (n : Nat) (v : Byte) (h : n + 8 ≤ 32) :
    (replaceByte x n v).extractLsb' n 8 = v := by
  apply BitVec.eq_of_getLsbD_eq
  intro i hi
  rw [BitVec.getLsbD_extractLsb', replaceByte_getLsbD _ _ _ _ (by omega), if_pos (by omega)]
  simp [hi]

/-- A field that does not meet the byte that was replaced. -/
theorem replaceByte_other (x : Word) (n : Nat) (v : Byte) (k w : Nat) (hk : k + w ≤ 32)
    (h : k + w ≤ n ∨ n + 8 ≤ k) :
    (replaceByte x n v).extractLsb' k w = x.extractLsb' k w := by
  apply BitVec.eq_of_getLsbD_eq
  intro i hi
  rw [BitVec.getLsbD_extractLsb', replaceByte_getLsbD _ _ _ _ (by omega), if_neg (by omega),
    BitVec.getLsbD_extractLsb']

@[simp] theorem Regs.get8_set8_self (g : Regs) (r : Reg8) (v : Byte) : (g.set8 r v).get8 r = v := by
  cases r <;> simp [Regs.get8, Regs.set8, Reg8.shift, replaceByte_same]

/-- The four bytes of the file that share no bit with the one written keep their values. -/
theorem Regs.get8_set8_other (g : Regs) {r r' : Reg8} (v : Byte) (h : r' ≠ r) :
    (g.set8 r v).get8 r' = g.get8 r' := by
  by_cases hp : Reg8.parent r' = Reg8.parent r
  · simp only [Regs.get8, Regs.set8, hp, Regs.get_set_self]
    apply replaceByte_other
    · cases r' <;> simp [Reg8.shift]
    · cases r <;> cases r' <;> simp_all [Reg8.parent, Reg8.shift]
  · simp only [Regs.get8, Regs.set8, Regs.get_set_other _ _ hp]

/-- Bits 31..16 of the parent register keep their value. -/
theorem Regs.set8_high (g : Regs) (r : Reg8) (v : Byte) :
    ((g.set8 r v).get (Reg8.parent r)).extractLsb' 16 16 = (g.get (Reg8.parent r)).extractLsb' 16 16 := by
  rw [Regs.set8, Regs.get_set_self]
  apply replaceByte_other _ _ _ _ _ (by omega)
  cases r <;> simp [Reg8.shift]

end Sys2Proof.Machine
end

