-- ==== Sys2Proof/Laws/Ops.lean ====
section
/-! SUPPORT. What each shared operation of the CPU can do, once: memory accesses, operands, the stack
(spec/40_execution.md R205 to R211). -/

namespace Sys2Proof.Machine

variable {α β : Type}

@[simp] theorem Res.bind_ok (x : α) (s : State) (k : α → State → Res β) :
    (Res.ok x s).bind k = k x s := rfl
@[simp] theorem Res.bind_fault (f : Fault) (k : α → State → Res β) :
    (Res.fault f).bind k = .fault f := rfl
@[simp] theorem Res.outcome_ok (x : Unit) (s : State) : (Res.ok x s).outcome = .next s := rfl
@[simp] theorem Res.outcome_fault (f : Fault) : (Res.fault f).outcome = .fault f := rfl

theorem Res.bind_assoc {γ : Type} (r : Res α) (k : α → State → Res β) (l : β → State → Res γ) :
    (r.bind k).bind l = r.bind fun x s => (k x s).bind l := by cases r <;> rfl

theorem Res.bind_eq_ok {r : Res α} {k : α → State → Res β} {y : β} {t : State}
    (h : r.bind k = .ok y t) : ∃ x s, r = .ok x s ∧ k x s = .ok y t := by
  cases r with
  | ok x s => exact ⟨x, s, rfl, h⟩
  | fault f => cases h

theorem Res.bind_eq_fault {r : Res α} {k : α → State → Res β} {f : Fault}
    (h : r.bind k = .fault f) : r = .fault f ∨ ∃ x s, r = .ok x s ∧ k x s = .fault f := by
  cases r with
  | ok x s => exact .inr ⟨x, s, rfl, h⟩
  | fault g => left; cases h; rfl

theorem Res.outcome_eq_next {r : Res Unit} {t : State} (h : r.outcome = .next t) : r = .ok () t := by
  cases r with
  | ok x s => cases h; rfl
  | fault f => cases h

theorem Res.outcome_eq_fault {r : Res Unit} {f : Fault} (h : r.outcome = .fault f) : r = .fault f := by
  cases r with
  | ok x s => cases h
  | fault f => cases h; rfl

theorem Res.outcome_ne_refused (r : Res Unit) (e : Refusal) : r.outcome ≠ .refused e := by
  cases r <;> simp [Res.outcome]

/-! ## Addresses -/

theorem physAddr_eq_some {v : Word} {s : State} {a : Nat} :
    physAddr v s = some a ↔ ∃ n, s.mmu.translate s.params v = .ok a n := by
  unfold physAddr
  cases h : s.mmu.translate s.params v <;> simp

/-- What makes an access complete, and with which value. -/
theorem Accessible.translate {v : Word} {w : Width} {s : State} (h : Accessible v w s) :
    ∃ a n, s.mmu.translate s.params v = .ok a n ∧ a + w.bytes ≤ s.params.memSize ∧
      loadedValue v w s = wordOfBytes (n.phys.readBytes a w.bytes) := by
  obtain ⟨a, ha, hb⟩ := h
  obtain ⟨n, hn⟩ := physAddr_eq_some.1 ha
  exact ⟨a, n, hn, hb, by simp [loadedValue, hn]⟩

/-- A state reached by an access at `v` keeps every byte the access did not store to. -/
theorem MemoryKept.of_translate {v : Word} {s t : State} {r : MmuResult Nat}
    {stored : Nat → Prop} (h : s.mmu.translate s.params v = r)
    (hd : t.mmu.pageDir = r.mmu.pageDir)
    (hp : ∀ b, ¬ stored b → t.mmu.phys.read b = r.mmu.phys.read b) : MemoryKept stored s t := by
  intro b hb hor
  by_contra hne
  have hne' : (s.mmu.translate s.params v).mmu.phys.read b ≠ s.mmu.phys.read b := by
    rw [h, ← hp b hb]; exact hne
  obtain ⟨h1, h2, h3⟩ := Mmu.translate_phys s.params hne'
  rcases hor with hk | hn
  · exact h1 hk
  · refine hn ⟨pageOf v, ?_, by rw [h2]; simp⟩
    rw [h] at h3
    simpa [Mmu.residentFrame, hd] using h3

/-! ## Memory accesses -/

/-- All a read can do. -/
theorem memRead_cases (v : Word) (w : Width) (s : State) :
    (∃ a n m, s.mmu.translate s.params v = .ok a n ∧ n.SameButCaches m ∧
      a + w.bytes ≤ s.params.memSize ∧
      memRead v w s = .ok (wordOfBytes (n.phys.readBytes a w.bytes)) (s.setMmu m)) ∨
    (∃ a n m, s.mmu.translate s.params v = .ok a n ∧ n.SameButCaches m ∧
      s.params.memSize < a + w.bytes ∧
      memRead v w s = .fault (.memoryAccessViolation v a w.bytes (s.setMmu m))) ∨
    (∃ e n, s.mmu.translate s.params v = .err e n ∧
      memRead v w s = .fault (MmuError.fault e (s.setMmu n))) := by
  unfold memRead Mmu.read
  cases h : s.mmu.translate s.params v with
  | err e n => exact .inr (.inr ⟨e, n, rfl, rfl⟩)
  | ok a n =>
    obtain ⟨m, hm, hr⟩ := Mmu.readAt_spec s.params v a w n
    rw [MmuResult.bind_ok, hr]
    by_cases hb : a + w.bytes ≤ s.params.memSize
    · rw [if_pos hb]; exact .inl ⟨a, n, m, rfl, hm, hb, rfl⟩
    · rw [if_neg hb]; exact .inr (.inl ⟨a, n, m, rfl, hm, by omega, rfl⟩)

/-- All a write can do. -/
theorem memWrite_cases (v : Word) (w : Width) (x : Word) (s : State) :
    (∃ a n, s.mmu.translate s.params v = .ok a n ∧ a + w.bytes ≤ s.params.memSize ∧
      memWrite v w x s = .ok () (s.setMmu { n with
        phys := n.phys.writeBytes a (wordBytes w.bytes x)
        l1 := tableErase n.l1 (lineOf a)
        l2 := tableErase n.l2 (lineOf a) })) ∨
    (∃ a n, s.mmu.translate s.params v = .ok a n ∧ s.params.memSize < a + w.bytes ∧
      memWrite v w x s = .fault (.memoryAccessViolation v a w.bytes (s.setMmu n))) ∨
    (∃ e n, s.mmu.translate s.params v = .err e n ∧
      memWrite v w x s = .fault (MmuError.fault e (s.setMmu n))) := by
  unfold memWrite Mmu.write
  cases h : s.mmu.translate s.params v with
  | err e n => exact .inr (.inr ⟨e, n, rfl, rfl⟩)
  | ok a n =>
    rw [MmuResult.bind_ok, Mmu.writeAt_eq]
    by_cases hb : a + w.bytes ≤ s.params.memSize
    · rw [if_pos hb]; exact .inl ⟨a, n, rfl, hb, rfl⟩
    · rw [if_neg hb]; exact .inr (.inl ⟨a, n, rfl, by omega, rfl⟩)

/-- A state that an access at `v` leads to: later accesses at `v` find the same physical address, and
translate without any other effect. -/
structure After (v : Word) (a : Nat) (s t : State) : Prop where
  params : t.params = s.params
  addr : ∀ u : State, u.params = s.params → u.mmu.tlb = t.mmu.tlb →
    u.mmu.translate u.params v = .ok a u.mmu.countTlbHit
  protectedPages : t.mmu.protectedPages = s.mmu.protectedPages

/-- A completing read: its value, and what it leaves. -/
theorem memRead_accessible {v : Word} {w : Width} {s : State} (h : Accessible v w s) :
    ∃ a m, physAddr v s = some a ∧ a + w.bytes ≤ s.params.memSize ∧
      memRead v w s = .ok (loadedValue v w s) (s.setMmu m) ∧ After v a s (s.setMmu m) ∧
      MemoryKept noBytes s (s.setMmu m) ∧
      ∀ stored (t : State), t.mmu.pageDir = m.pageDir →
        (∀ b, ¬ stored b → t.mmu.phys.read b = m.phys.read b) → MemoryKept stored s t := by
  obtain ⟨a, n, ht, hb, hv⟩ := h.translate
  rcases memRead_cases v w s with ⟨a', n', m, ht', hm, _, hr⟩ | ⟨a', n', m, ht', _, hb', _⟩ | ⟨e, n', ht', _⟩
  · rw [ht] at ht'; simp only [MmuResult.ok.injEq] at ht'; obtain ⟨rfl, rfl⟩ := ht'
    have hk : ∀ stored (t : State), t.mmu.pageDir = m.pageDir →
        (∀ b, ¬ stored b → t.mmu.phys.read b = m.phys.read b) → MemoryKept stored s t :=
      fun stored t h1 h2 => MemoryKept.of_translate ht (by rw [h1, hm.pageDir]; rfl)
        fun b hb => by rw [h2 b hb, hm.phys]; rfl
    refine ⟨a, m, physAddr_eq_some.2 ⟨n, ht⟩, hb, by rw [hr, hv], ⟨rfl, ?_, ?_⟩, ?_, hk⟩
    · intro u hu htlb
      rw [hu]
      exact Mmu.translate_again _ ht (by rw [htlb]; exact hm.tlb)
    · have := Mmu.translate_protectedPages s.params v s.mmu
      rw [ht] at this; rw [State.setMmu_mmu, hm.protectedPages]; exact this
    · exact hk noBytes _ rfl fun _ _ => rfl
  · rw [ht] at ht'; simp only [MmuResult.ok.injEq] at ht'; obtain ⟨rfl, rfl⟩ := ht'; omega
  · rw [ht] at ht'; cases ht'

/-- The MMU after a write of `x` at physical address `a`. -/
def Mmu.stored (n : Mmu) (a : Nat) (w : Width) (x : Word) : Mmu :=
  { n with
    phys := n.phys.writeBytes a (wordBytes w.bytes x)
    l1 := tableErase n.l1 (lineOf a)
    l2 := tableErase n.l2 (lineOf a) }

/-- A write where a translation has already been made. -/
theorem memWrite_after {v : Word} {a : Nat} {s t : State} {w : Width} (h : After v a s t) (x : Word)
    (hb : a + w.bytes ≤ s.params.memSize) :
    memWrite v w x t = .ok () (t.setMmu (t.mmu.countTlbHit.stored a w x)) := by
  have := h.addr t h.params rfl
  unfold memWrite Mmu.write
  rw [this, MmuResult.bind_ok, Mmu.writeAt_eq, h.params, if_pos hb]
  rfl

/-- What a read where a translation has already been made gives. -/
theorem loadedValue_after {v : Word} {a : Nat} {s t u : State} {w : Width} (h : After v a s t)
    (hp : u.params = s.params) (ht : u.mmu.tlb = t.mmu.tlb) :
    loadedValue v w u = wordOfBytes (u.mmu.phys.readBytes a w.bytes) := by
  unfold loadedValue
  rw [h.addr u hp ht]; rfl

/-- A completing write: what it leaves, and what is then read there. -/
theorem memWrite_accessible {v : Word} {w : Width} {s : State} (h : Accessible v w s) (x : Word) :
    ∃ a m, physAddr v s = some a ∧ a + w.bytes ≤ s.params.memSize ∧
      memWrite v w x s = .ok () (s.setMmu m) ∧ After v a s (s.setMmu m) ∧
      MemoryKept (accessBytes v w s) s (s.setMmu m) ∧
      wordOfBytes (m.phys.readBytes a w.bytes) = truncate w x := by
  obtain ⟨a, n, ht, hb, hv⟩ := h.translate
  have ha : physAddr v s = some a := physAddr_eq_some.2 ⟨n, ht⟩
  rcases memWrite_cases v w x s with ⟨a', n', ht', _, hr⟩ | ⟨a', n', ht', hb', _⟩ | ⟨e, n', ht', _⟩
  · rw [ht] at ht'; simp only [MmuResult.ok.injEq] at ht'; obtain ⟨rfl, rfl⟩ := ht'
    refine ⟨a, n.stored a w x, ha, hb, hr, ⟨rfl, ?_, ?_⟩, ?_, Memory.word_after_write _ _ _ _⟩
    · intro u hu htlb
      rw [hu]
      exact Mmu.translate_again _ ht htlb
    · have := Mmu.translate_protectedPages s.params v s.mmu
      rw [ht] at this; exact this
    · refine MemoryKept.of_translate ht rfl fun b hs => ?_
      show (n.phys.writeBytes a (wordBytes w.bytes x)).read b = n.phys.read b
      rw [Memory.read_writeBytes, wordBytes_length, if_neg]
      exact fun hab => hs ⟨a, ha, hab.1, hab.2⟩
  · rw [ht] at ht'; simp only [MmuResult.ok.injEq] at ht'; obtain ⟨rfl, rfl⟩ := ht'; omega
  · rw [ht] at ht'; cases ht'

/-- An access that cannot complete: which error, and that it moves no byte. -/
theorem access_inaccessible {v : Word} {w : Width} {s : State} (h : ¬ Accessible v w s) :
    (∃ m, memRead v w s = .fault (.outOfPhysicalMemory (s.setMmu m)) ∧
        MemoryKept noBytes s (s.setMmu m) ∧ m.protectedPages = s.mmu.protectedPages ∧
        ∀ x, memWrite v w x s = .fault (.outOfPhysicalMemory (s.setMmu m))) ∨
    (∃ a m n, memRead v w s = .fault (.memoryAccessViolation v a w.bytes (s.setMmu m)) ∧
        MemoryKept noBytes s (s.setMmu m) ∧ m.protectedPages = s.mmu.protectedPages ∧
        MemoryKept noBytes s (s.setMmu n) ∧ n.protectedPages = s.mmu.protectedPages ∧
        ∀ x, memWrite v w x s = .fault (.memoryAccessViolation v a w.bytes (s.setMmu n))) := by
  have hprot := Mmu.translate_protectedPages s.params v s.mmu
  rcases memRead_cases v w s with ⟨a, n, m, ht, hm, hb, hr⟩ | ⟨a, n, m, ht, hm, hb, hr⟩ | ⟨e, n, ht, hr⟩
  · exact absurd ⟨a, physAddr_eq_some.2 ⟨n, ht⟩, hb⟩ h
  · right
    rw [ht] at hprot
    refine ⟨a, m, n, hr, ?_, by rw [hm.protectedPages]; exact hprot, ?_, hprot, fun x => ?_⟩
    · exact MemoryKept.of_translate ht (by rw [State.setMmu_mmu, hm.pageDir]; rfl)
        fun b _ => by rw [State.setMmu_mmu, hm.phys]; rfl
    · exact MemoryKept.of_translate ht rfl fun b _ => rfl
    · rcases memWrite_cases v w x s with ⟨a', n', ht', hb', _⟩ | ⟨a', n', ht', hb', hr⟩ | ⟨e, n', ht', _⟩
      · rw [ht] at ht'; simp only [MmuResult.ok.injEq] at ht'; obtain ⟨rfl, rfl⟩ := ht'; omega
      · rw [ht] at ht'; simp only [MmuResult.ok.injEq] at ht'; obtain ⟨rfl, rfl⟩ := ht'; exact hr
      · rw [ht] at ht'; cases ht'
  · left
    have he : e = .outOfPhysicalMemory := by
      rcases s.mmu.translate_cases s.params v with ⟨f, _, h'⟩ | ⟨_, f, _, h'⟩ | ⟨_, _, f, k, _, h'⟩ | ⟨_, _, e', hal, h'⟩
        <;> rw [ht] at h' <;> simp only [reduceCtorEq, MmuResult.err.injEq] at h'
      obtain ⟨rfl, _⟩ := h'
      rcases Mmu.allocFrame_cases s.mmu.countTlbMiss.countPageFault with
        ⟨f, r, _, h⟩ | ⟨_, q, e', _, h⟩ | ⟨_, _, h⟩ <;> rw [hal] at h <;> simp at h
      exact h
    subst he
    rw [ht] at hprot
    refine ⟨n, hr, MemoryKept.of_translate ht rfl fun b _ => rfl, hprot, fun x => ?_⟩
    rcases memWrite_cases v w x s with ⟨a', n', ht', _, _⟩ | ⟨a', n', ht', _, _⟩ | ⟨e, n', ht', hr'⟩
    · rw [ht] at ht'; cases ht'
    · rw [ht] at ht'; cases ht'
    · rw [ht] at ht'; simp only [MmuResult.err.injEq] at ht'; obtain ⟨rfl, rfl⟩ := ht'; exact hr'

/-- What a completed read did to the MMU. -/
theorem memRead_ok {s t : State} {v : Word} {w : Width} {x : Word} (h : memRead v w s = .ok x t) :
    ∃ a n, s.mmu.translate s.params v = .ok a n ∧ n.SameButCaches t.mmu ∧ t = s.setMmu t.mmu := by
  rcases memRead_cases v w s with ⟨a, n, m, ht, hm, _, hr⟩ | ⟨a, n, m, _, _, _, hr⟩ | ⟨e, n, _, hr⟩ <;>
    rw [h] at hr <;> simp only [Res.ok.injEq, reduceCtorEq] at hr
  obtain ⟨_, rfl⟩ := hr
  exact ⟨a, n, ht, hm, rfl⟩

/-- What a read that raised did to the MMU. -/
theorem memRead_fault {s : State} {v : Word} {w : Width} {f : Fault} (h : memRead v w s = .fault f) :
    (s.mmu.translate s.params v).mmu.SameButCaches f.left.mmu ∧ f.left = s.setMmu f.left.mmu := by
  rcases memRead_cases v w s with ⟨a, n, m, ht, hm, _, hr⟩ | ⟨a, n, m, ht, hm, _, hr⟩ | ⟨e, n, ht, hr⟩ <;>
    rw [h] at hr <;> simp only [Res.fault.injEq, reduceCtorEq] at hr
  · subst hr; rw [ht]; exact ⟨hm, rfl⟩
  · subst hr; rw [ht]
    have : (MmuError.fault e (s.setMmu n)).left = s.setMmu n := by cases e <;> rfl
    rw [this]; exact ⟨rfl, rfl⟩

/-- What a completed write did to the MMU. -/
theorem memWrite_ok {s t : State} {v x : Word} {w : Width} (h : memWrite v w x s = .ok () t) :
    ∃ a n, s.mmu.translate s.params v = .ok a n ∧ a + w.bytes ≤ s.params.memSize ∧
      t = s.setMmu (n.stored a w x) := by
  rcases memWrite_cases v w x s with ⟨a, n, ht, hb, hr⟩ | ⟨a, n, _, _, hr⟩ | ⟨e, n, _, hr⟩ <;>
    rw [h] at hr <;> simp only [Res.ok.injEq, reduceCtorEq] at hr
  exact ⟨a, n, ht, hb, hr.2⟩

/-- What a write that raised did to the MMU. -/
theorem memWrite_fault {s : State} {v x : Word} {w : Width} {f : Fault}
    (h : memWrite v w x s = .fault f) : f.left = s.setMmu (s.mmu.translate s.params v).mmu := by
  rcases memWrite_cases v w x s with ⟨a, n, ht, _, hr⟩ | ⟨a, n, ht, _, hr⟩ | ⟨e, n, ht, hr⟩ <;>
    rw [h] at hr <;> simp only [Res.fault.injEq, reduceCtorEq] at hr
  · subst hr; rw [ht]; rfl
  · subst hr; rw [ht]; cases e <;> rfl

end Sys2Proof.Machine
end

