-- ==== Sys2Proof/Laws/Operands.lean ====
section
/-! SUPPORT. Reading and writing operands, and the shapes of instruction, said once
(spec/40_execution.md R205 to R211, R225). -/

namespace Sys2Proof.Machine

/-- The width a place holds. -/
def placeWidth : Place → Width
  | .reg8 _ => .byte
  | .reg32 _ => .dword
  | .mem w _ => w

/-- What reading operands leaves, from which the place `p` can still be written. -/
structure Ready (p : Place) (s t : State) : Prop where
  only : t = s.setMmu t.mmu
  kept : MemoryKept noBytes s t
  protectedPages : t.mmu.protectedPages = s.mmu.protectedPages
  mem : ∀ w m, p = .mem w m → ∃ a, physAddr (effectiveAddress m s) s = some a ∧
    a + w.bytes ≤ s.params.memSize ∧ After (effectiveAddress m s) a s t ∧
    ∀ stored (u : State), u.mmu.pageDir = t.mmu.pageDir →
      (∀ b, ¬ stored b → u.mmu.phys.read b = t.mmu.phys.read b) → MemoryKept stored s u

/-- What writing `x` to the place `p` leaves, seen from the state `s` before the operands were read. -/
structure Wrote (p : Place) (x : Word) (s t : State) : Prop where
  only : t = { s with regs := t.regs, mmu := t.mmu }
  mem : MemoryKept (storedBytes p s) s t
  regs : RegsKept (writtenRegs p) s t
  bytes : OtherBytesKept p s t
  value : placeValue p t = truncate (placeWidth p) x
  protectedPages : t.mmu.protectedPages = s.mmu.protectedPages

theorem truncate_dword (x : Word) : truncate .dword x = x := by
  apply BitVec.eq_of_toNat_eq
  simpa [truncate, Width.bytes] using x.isLt

theorem truncate_byte (x : Word) : truncate .byte x = (x.setWidth 8).setWidth 32 := by
  apply BitVec.eq_of_toNat_eq
  simp [truncate, Width.bytes]

theorem MemoryKept.refl (stored : Nat → Prop) (s : State) : MemoryKept stored s s := fun _ _ _ => rfl

/-- Only the MMU decides which bytes are kept. -/
theorem MemoryKept.congr {stored : Nat → Prop} {s s' t t' : State} (h : MemoryKept stored s t)
    (hp : s'.params = s.params) (hs : s'.mmu = s.mmu) (ht : t'.mmu = t.mmu) :
    MemoryKept stored s' t' := by
  intro a ha hor
  unfold State.byteAt
  rw [hs, ht]
  refine h a ha ?_
  rcases hor with hk | hn
  · exact .inl (by rw [← hp]; exact hk)
  · exact .inr (by unfold newlyMapped at hn ⊢; rwa [hs, ht] at hn)

/-- Reading a place that is ready. -/
theorem readPlace_ready {p : Place} {s : State} (h : placeReady p s) :
    ∃ t, readPlace p s = .ok (placeValue p s) t ∧ Ready p s t ∧
      (¬ placeInMemory p → t = s) := by
  cases p with
  | reg8 r =>
    exact ⟨s, rfl, ⟨rfl, MemoryKept.refl _ _, rfl, by simp⟩, fun _ => rfl⟩
  | reg32 r =>
    exact ⟨s, rfl, ⟨rfl, MemoryKept.refl _ _, rfl, by simp⟩, fun _ => rfl⟩
  | mem w m =>
    obtain ⟨a, n, ha, hb, hr, haf, hk, hk'⟩ := memRead_accessible h
    refine ⟨s.setMmu n, hr, ⟨rfl, hk, haf.protectedPages, ?_⟩, fun hn => absurd trivial hn⟩
    intro w' m' he
    cases he
    exact ⟨a, ha, hb, haf, hk'⟩

/-- Writing a place after the operands were read. -/
theorem writePlace_after {p : Place} {s s1 : State} (h : Ready p s s1) (x : Word) :
    ∃ t, writePlace p x s1 = .ok () t ∧ Wrote p x s t ∧ (¬ placeInMemory p → t.mmu = s1.mmu) := by
  cases p with
  | reg8 r =>
    refine ⟨s1.setReg8 r (x.setWidth 8), rfl, ⟨?_, ?_, ?_, ?_, ?_, ?_⟩, fun _ => rfl⟩
    · rw [h.only]; rfl
    · exact h.kept.congr rfl rfl rfl
    · intro r' hr'
      have : r' ≠ Reg8.parent r := by simpa [writtenRegs] using hr'
      rw [h.only]
      exact Regs.get_set_other _ _ this
    · rw [h.only]
      exact ⟨Regs.set8_high _ _ _, fun r' hr' => Regs.get8_set8_other _ _ hr'⟩
    · rw [h.only]
      show ((Regs.set8 _ r _).get8 r).setWidth 32 = _
      rw [Regs.get8_set8_self]
      exact (truncate_byte x).symm
    · exact h.protectedPages
  | reg32 r =>
    refine ⟨s1.setReg r x, rfl, ⟨?_, ?_, ?_, trivial, ?_, ?_⟩, fun _ => rfl⟩
    · rw [h.only]; rfl
    · exact h.kept.congr rfl rfl rfl
    · intro r' hr'
      have : r' ≠ r := by simpa [writtenRegs] using hr'
      rw [h.only]
      exact Regs.get_set_other _ _ this
    · show (s1.setReg r x).reg r = truncate .dword x
      rw [State.reg_setReg_self, truncate_dword]
    · exact h.protectedPages
  | mem w m =>
    obtain ⟨a, ha, hb, haf, hk⟩ := h.mem w m rfl
    have he : effectiveAddress m s1 = effectiveAddress m s := by
      rw [h.only]; cases m <;> rfl
    have hw := memWrite_after haf x hb
    refine ⟨s1.setMmu (s1.mmu.countTlbHit.stored a w x), ?_, ⟨?_, ?_, ?_, trivial, ?_, ?_⟩,
      fun hn => absurd trivial hn⟩
    · show memWrite (effectiveAddress m s1) w x s1 = _
      rw [he, hw]
    · rw [h.only]; rfl
    · refine hk _ _ rfl fun b hs => ?_
      show (s1.mmu.phys.writeBytes a (wordBytes w.bytes x)).read b = _
      rw [Memory.read_writeBytes, wordBytes_length, if_neg]
      exact fun hab => hs ⟨a, ha, hab.1, hab.2⟩
    · intro r _; rw [h.only]; rfl
    · show loadedValue _ w _ = truncate w x
      have he' : effectiveAddress m (s1.setMmu (s1.mmu.countTlbHit.stored a w x))
          = effectiveAddress m s := by rw [h.only]; cases m <;> rfl
      rw [he', loadedValue_after haf (by exact haf.params) (by rfl)]
      exact Memory.word_after_write _ _ _ _
    · exact h.protectedPages

/-- Writing a place that is ready, with nothing read before. -/
theorem writePlace_ready {p : Place} {s : State} (h : placeReady p s) (x : Word) :
    ∃ t, writePlace p x s = .ok () t ∧ Wrote p x s t ∧ (¬ placeInMemory p → t.mmu = s.mmu) := by
  cases p with
  | reg8 r =>
    exact writePlace_after ⟨rfl, MemoryKept.refl _ _, rfl, by simp⟩ x
  | reg32 r =>
    exact writePlace_after ⟨rfl, MemoryKept.refl _ _, rfl, by simp⟩ x
  | mem w m =>
    obtain ⟨a, n, ha, hb, hr, haf, hk, hv⟩ := memWrite_accessible h x
    refine ⟨s.setMmu n, hr, ⟨rfl, hk, fun _ _ => rfl, trivial, ?_, haf.protectedPages⟩,
      fun hn => absurd trivial hn⟩
    show loadedValue _ w _ = truncate w x
    have he : effectiveAddress m (s.setMmu n) = effectiveAddress m s := by cases m <;> rfl
    rw [he, loadedValue_after haf (u := s.setMmu n) rfl rfl]
    exact hv

/-- Reading an operand that is ready. -/
theorem readOperand_ready {o : Operand} {s : State} (h : operandReady o s) :
    ∃ t, readOperand o s = .ok (operandValue o s) t ∧ t = s.setMmu t.mmu ∧
      MemoryKept noBytes s t ∧ t.mmu.protectedPages = s.mmu.protectedPages ∧
      (¬ operandInMemory o → t = s) := by
  cases o with
  | place p =>
    obtain ⟨t, h1, h2, h3⟩ := readPlace_ready (p := p) h
    exact ⟨t, h1, h2.only, h2.kept, h2.protectedPages, h3⟩
  | imm8 v => exact ⟨s, rfl, rfl, MemoryKept.refl _ _, rfl, fun _ => rfl⟩
  | imm32 v => exact ⟨s, rfl, rfl, MemoryKept.refl _ _, rfl, fun _ => rfl⟩

/-- No form has two memory operands. -/
abbrev OneMemory (dst : Place) (src : Operand) : Prop := ¬ placeInMemory dst ∨ ¬ operandInMemory src

/-- Reading both operands of a form: their values, in a state from which the first can be written. -/
theorem readBoth_ready {dst : Place} {src : Operand} {s : State} (hd : placeReady dst s)
    (hs : operandReady src s) (hone : OneMemory dst src) :
    ∃ s1 s2, readPlace dst s = .ok (placeValue dst s) s1 ∧
      readOperand src s1 = .ok (operandValue src s) s2 ∧ Ready dst s s2 ∧
      (¬ placeInMemory dst → ¬ operandInMemory src → s2 = s) := by
  obtain ⟨s1, h1, hr1, hl1⟩ := readPlace_ready hd
  by_cases hm : placeInMemory dst
  · have hsm : ¬ operandInMemory src := hone.resolve_left fun h => h hm
    refine ⟨s1, s1, h1, ?_, hr1, fun h => absurd hm h⟩
    cases src with
    | place p =>
      cases p with
      | reg8 r => rw [hr1.only]; rfl
      | reg32 r => rw [hr1.only]; rfl
      | mem w m => exact absurd trivial hsm
    | imm8 v => rfl
    | imm32 v => rfl
  · have := hl1 hm; subst this
    obtain ⟨s2, h2, ho, hk, hp, hl2⟩ := readOperand_ready hs
    refine ⟨s1, s2, h1, h2, ⟨ho, hk, hp, ?_⟩, fun _ h => hl2 h⟩
    intro w m he
    subst he
    exact absurd trivial hm

/-! ## The shapes -/

/-- What a two-operand operation that writes its first operand does. -/
theorem aluWrite_ready {op : AluOp} {w : Width} {dst : Place} {src : Operand} {s : State}
    (hd : placeReady dst s) (hs : operandReady src s) (hone : OneMemory dst src) :
    ∃ t, aluWrite op w dst src s = .ok () (t.setFlags
        (op.flags (flagBits s.params w) (placeValue dst s) (operandValue src s) s.flags.cf s.flags)) ∧
      Wrote dst (op.result (placeValue dst s) (operandValue src s) s.flags.cf) s t ∧
      (¬ placeInMemory dst → ¬ operandInMemory src → t.mmu = s.mmu) := by
  obtain ⟨s1, s2, h1, h2, hr, hl⟩ := readBoth_ready hd hs hone
  have hf : s2.flags = s.flags := by rw [hr.only]; rfl
  obtain ⟨t, ht, hw, hlt⟩ :=
    writePlace_after hr (op.result (placeValue dst s) (operandValue src s) s2.flags.cf)
  refine ⟨t, ?_, by rw [← hf]; exact hw, fun hd hs => by rw [hlt hd, hl hd hs]⟩
  have h3 : t.params = s.params := by rw [hw.only]
  have h4 : t.flags = s.flags := by rw [hw.only]
  simp only [aluWrite, h1, h2, ht, Res.bind_ok, h3, h4]

/-- What a two-operand operation that only writes flags does. -/
theorem aluTest_ready {op : AluOp} {w : Width} {dst : Place} {src : Operand} {s : State}
    (hd : placeReady dst s) (hs : operandReady src s) (hone : OneMemory dst src) :
    ∃ t, aluTest op w dst src s = .ok () (t.setFlags
        (op.flags (flagBits s.params w) (placeValue dst s) (operandValue src s) s.flags.cf s.flags)) ∧
      Ready dst s t ∧ (¬ placeInMemory dst → ¬ operandInMemory src → t = s) := by
  obtain ⟨s1, s2, h1, h2, hr, hl⟩ := readBoth_ready hd hs hone
  refine ⟨s2, ?_, hr, hl⟩
  have h3 : s2.params = s.params := by rw [hr.only]; rfl
  have h4 : s2.flags = s.flags := by rw [hr.only]; rfl
  simp only [aluTest, h1, h2, Res.bind_ok, h3, h4]

/-- What a copy does. -/
theorem move_ready {dst : Place} {src : Operand} {s : State} (hd : placeReady dst s)
    (hs : operandReady src s) (hone : OneMemory dst src) :
    ∃ t, move dst src s = .ok () t ∧ Wrote dst (operandValue src s) s t ∧
      (¬ placeInMemory dst → ¬ operandInMemory src → t.mmu = s.mmu) := by
  obtain ⟨s2, h2, ho, hk, hp, hl⟩ := readOperand_ready hs
  by_cases hm : placeInMemory dst
  · have hsm : ¬ operandInMemory src := hone.resolve_left fun h => h hm
    have := hl hsm; subst this
    obtain ⟨t, ht, hw, _⟩ := writePlace_ready hd (operandValue src s2)
    exact ⟨t, by simp only [move, h2, Res.bind_ok, ht], hw, fun h => absurd hm h⟩
  · have hr : Ready dst s s2 := ⟨ho, hk, hp, fun w m he => by subst he; exact absurd trivial hm⟩
    obtain ⟨t, ht, hw, hlt⟩ := writePlace_after hr (operandValue src s)
    exact ⟨t, by simp only [move, h2, Res.bind_ok, ht], hw, fun h1 h2 => by rw [hlt h1, hl h2]⟩

/-- What a one-operand operation does. -/
theorem unaryWrite_ready {f : Word → Word} {g : Word → Flags → Flags} {dst : Place} {s : State}
    (hd : placeReady dst s) :
    ∃ t, unaryWrite f g dst s = .ok () (t.setFlags (g (placeValue dst s) s.flags)) ∧
      Wrote dst (f (placeValue dst s)) s t ∧ (¬ placeInMemory dst → t.mmu = s.mmu) := by
  obtain ⟨s1, h1, hr, hl⟩ := readPlace_ready hd
  obtain ⟨t, ht, hw, hlt⟩ := writePlace_after hr (f (placeValue dst s))
  have h4 : t.flags = s.flags := by rw [hw.only]
  exact ⟨t, by simp only [unaryWrite, h1, ht, Res.bind_ok, h4], hw, fun h => by rw [hlt h, hl h]⟩

/-- What a shift does. -/
theorem shiftWrite_ready {op : ShiftOp} {dst : Place} {count : Byte} {s : State}
    (hd : placeReady dst s) :
    ∃ t, shiftWrite op dst count s = .ok () (t.setFlags
        (shiftFlags (shift s.params op (placeValue dst s) count) s.flags)) ∧
      Wrote dst (shift s.params op (placeValue dst s) count).result s t ∧
      (¬ placeInMemory dst → t.mmu = s.mmu) := by
  obtain ⟨s1, h1, hr, hl⟩ := readPlace_ready hd
  obtain ⟨t, ht, hw, hlt⟩ := writePlace_after hr (shift s.params op (placeValue dst s) count).result
  have h2 : s1.params = s.params := by rw [hr.only]; rfl
  have h3 : t.params = s.params := by rw [hw.only]
  have h4 : t.flags = s.flags := by rw [hw.only]
  exact ⟨t, by simp only [shiftWrite, h1, ht, Res.bind_ok, h2, h3, h4], hw,
    fun h => by rw [hlt h, hl h]⟩

/-- Where a place is read that is not ready, nothing but the MMU changes. -/
theorem readPlace_not_ready {p : Place} {s : State} (h : ¬ placeReady p s) :
    ∃ f, readPlace p s = .fault f ∧ f.left = s.setMmu f.left.mmu ∧ MemoryKept noBytes s f.left ∧
      (f = .outOfPhysicalMemory f.left ∨ ∃ v a n, f = .memoryAccessViolation v a n f.left) := by
  cases p with
  | reg8 r => exact absurd trivial h
  | reg32 r => exact absurd trivial h
  | mem w m =>
    rcases access_inaccessible (v := effectiveAddress m s) (w := w) (s := s) h with
      ⟨n, hr, hk, _, _⟩ | ⟨a, n, n', hr, hk, _, _, _, _⟩
    · exact ⟨_, hr, rfl, hk, .inl rfl⟩
    · exact ⟨_, hr, rfl, hk, .inr ⟨_, _, _, rfl⟩⟩

theorem writePlace_not_ready {p : Place} {s : State} (h : ¬ placeReady p s) (x : Word) :
    ∃ f, writePlace p x s = .fault f ∧ f.left = s.setMmu f.left.mmu ∧ MemoryKept noBytes s f.left ∧
      (f = .outOfPhysicalMemory f.left ∨ ∃ v a n, f = .memoryAccessViolation v a n f.left) := by
  cases p with
  | reg8 r => exact absurd trivial h
  | reg32 r => exact absurd trivial h
  | mem w m =>
    rcases access_inaccessible (v := effectiveAddress m s) (w := w) (s := s) h with
      ⟨n, _, hk, _, hr⟩ | ⟨a, n, n', _, _, _, hk, _, hr⟩
    · exact ⟨_, hr x, rfl, hk, .inl rfl⟩
    · exact ⟨_, hr x, rfl, hk, .inr ⟨_, _, _, rfl⟩⟩

/-- A write and then flags: the frame of an instruction that writes the place. -/
theorem Wrote.kept {p : Place} {x : Word} {s t : State} (h : Wrote p x s t) (f : Flags) :
    Kept (storedBytes p s) (writtenRegs p) s (t.setFlags f) :=
  ⟨by rw [h.only]; rfl, h.mem.congr rfl rfl rfl, h.regs, h.protectedPages⟩

theorem Wrote.otherBytes {p : Place} {x : Word} {s t : State} (h : Wrote p x s t) (f : Flags) :
    OtherBytesKept p s (t.setFlags f) := by
  have := h.bytes; cases p <;> exact this

theorem Wrote.flags {p : Place} {x : Word} {s t : State} (h : Wrote p x s t) : t.flags = s.flags := by
  rw [h.only]

@[simp] theorem placeValue_setFlags (p : Place) (t : State) (f : Flags) :
    placeValue p (t.setFlags f) = placeValue p t := by
  cases p with
  | mem w m => cases m <;> rfl
  | reg8 r => rfl
  | reg32 r => rfl

/-! ## Stack -/

/-- A push that can store (40_execution R210). -/
theorem push_accessible {s : State} (v : Word) (h : Accessible (s.reg .esp - 4) .dword s) :
    ∃ t, push v s = .ok () t ∧ t = (s.setReg .esp (s.reg .esp - 4)).setMmu t.mmu ∧
      MemoryKept (accessBytes (s.reg .esp - 4) .dword s) s t ∧
      (∃ a, After (s.reg .esp - 4) a s t ∧ a + 4 ≤ s.params.memSize) ∧
      loadedValue (s.reg .esp - 4) .dword t = v ∧ t.mmu.protectedPages = s.mmu.protectedPages := by
  have h' : Accessible (s.reg .esp - 4) .dword (s.setReg .esp (s.reg .esp - 4)) := h
  obtain ⟨a, m, ha, hb, hw, haf, hk, hv⟩ := memWrite_accessible h' v
  refine ⟨_, hw, rfl, ?_, ⟨a, ⟨rfl, haf.addr, haf.protectedPages⟩, hb⟩, ?_, haf.protectedPages⟩
  · exact MemoryKept.congr hk rfl rfl rfl
  · rw [loadedValue_after haf (u := (s.setReg .esp (s.reg .esp - 4)).setMmu m) rfl rfl]
    exact hv.trans (truncate_dword v)

/-- A pop that can read (40_execution R211). -/
theorem pop_accessible {s : State} (h : Accessible (s.reg .esp) .dword s) :
    ∃ t, pop s = .ok (loadedValue (s.reg .esp) .dword s) t ∧ t = (s.setReg .esp (s.reg .esp + 4)).setMmu t.mmu ∧
      MemoryKept noBytes s t ∧ t.mmu.protectedPages = s.mmu.protectedPages := by
  obtain ⟨a, m, ha, hb, hr, haf, hk, _⟩ := memRead_accessible h
  refine ⟨(s.setMmu m).setReg .esp (s.reg .esp + 4), ?_, ?_, ?_, ?_⟩
  · unfold pop; rw [hr]; rfl
  · rfl
  · exact MemoryKept.congr hk rfl rfl rfl
  · exact haf.protectedPages

end Sys2Proof.Machine
end

