-- ==== Sys2Proof/Laws/Forms.lean ====
section
/-! SUPPORT. The forms of the two-operand instructions: which shared operation each runs, its width, and
that it has at most one memory operand (spec/30_encoding.md R150, R152). -/

namespace Sys2Proof.Machine

theorem place_width8 (rm : Rm8) : placeWidth (Rm8.place rm) = .byte := by cases rm <;> rfl
theorem place_width32 (rm : Rm32) : placeWidth (Rm32.place rm) = .dword := by cases rm <;> rfl

theorem width_reg8 (r : Reg8) : placeWidth (.reg8 r) = .byte := rfl
theorem width_reg32 (r : Reg32) : placeWidth (.reg32 r) = .dword := rfl
theorem width_mem (w : Width) (m : MemOp) : placeWidth (.mem w m) = w := rfl

theorem exec_aluForm {i : Instr} {op : AluOp} {w : Width} {dst : Place} {src : Operand} {s : State}
    (h : aluForm i = some (op, w, dst, src)) (hc : op = .adc ∨ op = .sbb → s.params.adcSbb = .ia32) :
    exec i s = (aluWrite op w dst src s).outcome := by
  cases i <;> simp only [aluForm, Option.some.injEq, Prod.mk.injEq, reduceCtorEq] at h <;>
    obtain ⟨rfl, rfl, rfl, rfl⟩ := h <;>
    first
      | rfl
      | (have := hc (by simp); simp only [exec, execAdcRm32Imm32, execAdcRm32Imm8, execSbbRm32Imm32,
          execSbbRm32Imm8, this])

theorem aluForm_shape {i : Instr} {op : AluOp} {w : Width} {dst : Place} {src : Operand}
    (h : aluForm i = some (op, w, dst, src)) : OneMemory dst src ∧ placeWidth dst = w := by
  cases i <;> simp only [aluForm, Option.some.injEq, Prod.mk.injEq, reduceCtorEq] at h <;>
    obtain ⟨rfl, rfl, rfl, rfl⟩ := h <;>
    simp [OneMemory, placeInMemory, operandInMemory, place_width8, place_width32, width_reg8,
      width_reg32]

theorem exec_testForm {i : Instr} {op : AluOp} {w : Width} {dst : Place} {src : Operand}
    (h : testForm i = some (op, w, dst, src)) (s : State) :
    exec i s = (aluTest op w dst src s).outcome := by
  cases i <;> simp only [testForm, Option.some.injEq, Prod.mk.injEq, reduceCtorEq] at h <;>
    obtain ⟨rfl, rfl, rfl, rfl⟩ := h <;> rfl

theorem testForm_shape {i : Instr} {op : AluOp} {w : Width} {dst : Place} {src : Operand}
    (h : testForm i = some (op, w, dst, src)) : OneMemory dst src := by
  cases i <;> simp only [testForm, Option.some.injEq, Prod.mk.injEq, reduceCtorEq] at h <;>
    obtain ⟨rfl, rfl, rfl, rfl⟩ := h <;> simp [OneMemory, operandInMemory, placeInMemory]

theorem exec_moveForm {i : Instr} {w : Width} {dst : Place} {src : Operand}
    (h : moveForm i = some (w, dst, src)) (s : State) :
    exec i s = (move dst src s).outcome := by
  cases i <;> simp only [moveForm, Option.some.injEq, Prod.mk.injEq, reduceCtorEq] at h <;>
    obtain ⟨rfl, rfl, rfl⟩ := h <;> rfl

theorem moveForm_shape {i : Instr} {w : Width} {dst : Place} {src : Operand}
    (h : moveForm i = some (w, dst, src)) : OneMemory dst src ∧ placeWidth dst = w := by
  cases i <;> simp only [moveForm, Option.some.injEq, Prod.mk.injEq, reduceCtorEq] at h <;>
    obtain ⟨rfl, rfl, rfl⟩ := h <;>
    simp [OneMemory, placeInMemory, operandInMemory, place_width8, place_width32, width_reg8,
      width_reg32, width_mem]

theorem exec_shiftForm {i : Instr} {op : ShiftOp} {rm : Rm32} {count : Byte}
    (h : shiftForm i = some (op, rm, count)) (s : State) :
    exec i s = (shiftWrite op (Rm32.place rm) count s).outcome := by
  cases i <;> simp only [shiftForm, Option.some.injEq, Prod.mk.injEq, reduceCtorEq] at h <;>
    obtain ⟨rfl, rfl, rfl⟩ := h <;> rfl

theorem jumpRel8If_of {cond : Cond} {c : Bool} {rel : Byte} {s : State}
    (h : Cond.holds s.flags cond = c) :
    (jumpRel8If cond rel s).outcome = .next (if c then jumpRel8 rel s else s) := by
  unfold jumpRel8If
  rw [h]
  cases c <;> rfl

/-- A short conditional jump's condition is the one its meaning tests. -/
theorem exec_jccForm {i : Instr} {c : Bool} {rel : Byte} {s : State}
    (h : jccForm s.flags i = some (c, rel)) :
    exec i s = .next (if c then jumpRel8 rel s else s) := by
  cases i <;> simp only [jccForm, Option.some.injEq, Prod.mk.injEq, reduceCtorEq] at h <;>
    obtain ⟨rfl, rfl⟩ := h <;> refine jumpRel8If_of ?_ <;> generalize s.flags = f <;>
    obtain ⟨cf, pf, af, zf, sf, tf, intf, df, of⟩ := f <;>
    cases cf <;> cases zf <;> cases sf <;> cases of <;> rfl

end Sys2Proof.Machine
end

