-- ==== Sys2Proof/Laws/HostOps.lean ====
section
/-! SUPPORT. Everything an operation of the host can do to the state, once: a relation kept by memory
accesses and by the plain updates of the host is kept by every host operation, completed or raised
(spec/20_memory.md R125 to R133, spec/30_encoding.md R191, spec/60_exceptions.md R435). -/

namespace Sys2Proof.Machine

variable {α β : Type}

@[simp] theorem Res.left_ok (x : α) (s : State) : (Res.ok x s).left = s := rfl
@[simp] theorem Res.left_fault (f : Fault) : (Res.fault f : Res α).left = f.left := rfl

/-- A relation between the states before and after that every access keeps, completed or raised. -/
structure KeptByAccess (R : State → State → Prop) : Prop where
  refl : ∀ s, R s s
  trans : ∀ {s t u}, R s t → R t u → R s u
  read : ∀ v w s, R s (memRead v w s).left
  write : ∀ v w x s, R s (memWrite v w x s).left

namespace KeptByAccess

variable {R : State → State → Prop} (h : KeptByAccess R)
include h

theorem bind {s : State} {r : Res α} {k : α → State → Res β} (hr : R s r.left)
    (hk : ∀ x t, R t (k x t).left) : R s (r.bind k).left := by
  cases r with
  | ok x t => exact h.trans hr (hk x t)
  | fault f => exact hr

theorem decode (start : Word) (f : Fetch) (a : Word) (s : State) : R s (Fetch.onMmu start f a s).left := by
  induction f generalizing a s with
  | done i => exact h.refl s
  | reject e => exact h.refl s
  | byte k ih => exact h.bind (h.read _ _ _) fun _ _ => ih _ _ _
  | dword k ih => exact h.bind (h.read _ _ _) fun _ _ => ih _ _ _

theorem disassembleOne (a : Word) (s : State) : R s (getInstructionAt a s).left :=
  h.bind (h.decode a decoder a s) fun _ t => h.refl t

theorem disassemble (n : Nat) (a : Word) (s : State) : R s (getInstructionsAt n a s).left := by
  induction n generalizing a s with
  | zero => exact h.refl s
  | succ n ih =>
    have hd : R s (decodeAt a s).left := h.decode a decoder a s
    unfold getInstructionsAt
    cases hr : decodeAt a s with
    | ok i t =>
      rw [hr] at hd
      exact h.trans hd (h.bind (ih _ _) fun _ u => h.refl u)
    | fault f => rw [hr] at hd; cases f <;> exact hd

theorem loadBytes (bytes : List Byte) (a : Word) (s : State) : R s (loadBytes bytes a s).left := by
  induction bytes generalizing a s with
  | nil => exact h.refl s
  | cons b bs ih => exact h.bind (h.write _ _ _ _) fun _ _ => ih _ _

/-- A program that was loaded: the writes, then the protection of pages. -/
theorem loadProgram_next (hp : ∀ page s, R s (protectPage page s)) {bytes : List Byte} {a : Word}
    {s t : State} (hl : loadProgram bytes a s = .next t) : R s t := by
  unfold loadProgram at hl
  split at hl
  · cases hl
  · obtain ⟨_, u, hu, ht⟩ := Res.bind_eq_ok (Res.outcome_eq_next hl)
    obtain ⟨-, rfl⟩ := Res.ok.inj ht
    have hw : R s u := by have := h.loadBytes bytes a s; rw [hu] at this; exact this
    clear hu ht hl
    generalize spannedPages a bytes.length = pages
    induction pages generalizing u with
    | nil => exact hw
    | cons page pages ih => exact ih _ (h.trans hw (hp page u))

/-- A load that raised: only the writes before it were made. -/
theorem loadProgram_fault {bytes : List Byte} {a : Word} {s : State} {f : Fault}
    (hl : loadProgram bytes a s = .fault f) : R s f.left := by
  unfold loadProgram at hl
  split at hl
  · cases hl
  · have hw := h.loadBytes bytes a s
    rcases Res.bind_eq_fault (Res.outcome_eq_fault hl) with hf | ⟨_, _, _, ht⟩
    · rw [hf] at hw; exact hw
    · cases ht

end KeptByAccess

/-- Reading a register by name changes no state (60_exceptions R407). -/
@[simp] theorem readRegisterByName_left (name : String) (s : State) :
    (readRegisterByName name s).left = s := by
  unfold readRegisterByName
  split
  · rfl
  · split <;> rfl

end Sys2Proof.Machine
end

