-- ==== Sys2Proof/Laws/Invariant.lean ====
section
/-! SUPPORT. What each operation of the MMU keeps of the invariant of Sys2Proof/Safety.lean: the page
directory, the free frames, the TLB and the caches (spec/10_state.md R49 to R52). -/

namespace Sys2Proof.Machine

variable {α : Type} {p : Params} {m : Mmu}

/-! ## Tables and sets -/

theorem tableErase_length_lt {t : List (Nat × α)} {e : Nat × α} (h : e ∈ t) :
    (tableErase t e.1).length < t.length := by
  unfold tableErase
  exact List.length_filter_lt_length_iff_exists.2 ⟨e, h, by simp⟩

theorem tableErase_length_le (t : List (Nat × α)) (a : Nat) : (tableErase t a).length ≤ t.length :=
  List.length_filter_le _ _

/-- An insertion adds an entry only for a new key. -/
theorem tableInsert_length (t : List (Nat × α)) (a : Nat) (x : α) :
    (tableInsert t a x).length ≤ t.length + 1 := by
  induction t with
  | nil => simp [tableInsert]
  | cons d t ih =>
    obtain ⟨k, y⟩ := d
    simp only [tableInsert]
    split
    · simpa using ih
    · split <;> simp

theorem tableInsert_length_found {t : List (Nat × α)} (h : Rising t) {a : Nat} {x y : α}
    (hf : tableFind t a = some y) : (tableInsert t a x).length = t.length := by
  induction t with
  | nil => simp at hf
  | cons d t ih =>
    obtain ⟨k, z⟩ := d
    obtain ⟨h1, h2⟩ := List.pairwise_cons.1 h
    rw [tableFind_cons] at hf
    simp only [tableInsert]
    split
    · rw [if_neg (by omega)] at hf
      rw [List.length_cons, ih h2 hf, List.length_cons]
    · split
      · simp
      · next hk hk' =>
        rw [if_neg hk'] at hf
        have := h1 _ (mem_of_tableFind hf)
        dsimp only at this; omega

/-- An entry of a table after an insertion is the new one or an old one of another key. -/
theorem mem_tableInsert_rising {t : List (Nat × α)} (h : Rising t) {a : Nat} {x : α} {e : Nat × α}
    (he : e ∈ tableInsert t a x) : e = (a, x) ∨ (e ∈ t ∧ e.1 ≠ a) := by
  have hn := tableFind_of_mem (Rising.nodup (Rising.tableInsert h a x)) he
  rw [tableFind_tableInsert] at hn
  by_cases hk : e.1 = a
  · rw [if_pos hk, Option.some.injEq] at hn
    exact .inl (Prod.ext hk hn.symm)
  · rw [if_neg hk] at hn
    exact .inr ⟨mem_of_tableFind hn, hk⟩

theorem mem_setInsert {l : List Nat} {a b : Nat} : b ∈ setInsert l a ↔ b = a ∨ b ∈ l := by
  unfold setInsert
  induction l with
  | nil => simp [setInsertBy]
  | cons k l ih =>
    simp only [setInsertBy, id]
    split
    · rw [List.mem_cons, ih, List.mem_cons]; tauto
    · split
      · next h => subst h; simp
      · simp

theorem setInsert_rising {l : List Nat} (h : l.Pairwise (· < ·)) (a : Nat) :
    (setInsert l a).Pairwise (· < ·) := by
  unfold setInsert
  induction l with
  | nil => exact List.pairwise_singleton _ _
  | cons k l ih =>
    obtain ⟨h1, h2⟩ := List.pairwise_cons.1 h
    simp only [setInsertBy, id]
    split
    · next hk =>
      refine List.pairwise_cons.2 ⟨fun b hb => ?_, ih h2⟩
      rcases (mem_setInsert (l := l)).1 hb with rfl | hb
      · exact hk
      · exact h1 b hb
    · split
      · exact h
      · refine List.pairwise_cons.2 ⟨fun b hb => ?_, h⟩
        rcases List.mem_cons.1 hb with rfl | hb
        · omega
        · have := h1 b hb; omega

/-- Rising lists of numbers with the same elements are the same. -/
theorem rising_ext {l k : List Nat} (hl : l.Pairwise (· < ·)) (hk : k.Pairwise (· < ·))
    (h : ∀ a, a ∈ l ↔ a ∈ k) : l = k :=
  List.Perm.eq_of_pairwise (fun a b _ _ h1 h2 => by omega) hl hk
    ((List.perm_ext_iff_of_nodup (hl.imp Nat.ne_of_lt) (hk.imp Nat.ne_of_lt)).2 h)

/-! ## Resident pages -/

theorem Mmu.residentFrame_of_find (hi : DirInv p m) (page : Nat) :
    m.residentFrame page = (tableFind m.pageDir page).map fun e => e.frameNumber := by
  unfold Mmu.residentFrame
  cases h : tableFind m.pageDir page with
  | none => rfl
  | some e => exact if_pos (hi.2.2.1 _ (mem_of_tableFind h)).2.1

/-- An eviction leaves every other page resident as it was (20_memory R91). -/
theorem Mmu.evict_other {page q : Nat} (h : q ≠ page) :
    (m.evict page).residentFrame q = m.residentFrame q := by
  unfold Mmu.evict
  split
  · rfl
  · unfold Mmu.residentFrame; dsimp only; rw [tableFind_tableErase, if_neg h]

/-- Mapping a page leaves every other page resident as it was (20_memory R88). -/
theorem Mmu.mapPage_other {page q f : Nat} (h : q ≠ page) :
    (m.mapPage page f).residentFrame q = m.residentFrame q := by
  unfold Mmu.mapPage Mmu.residentFrame; dsimp only
  rw [tableFind_append, tableFind_tableErase, if_neg h]
  have : tableFind [(page, newEntry f)] q = none := by simp [tableFind_cons, Ne.symm h]
  rw [this]; simp

theorem Mmu.fillFrame_residentFrame (f q : Nat) :
    (m.fillFrame p f).residentFrame q = m.residentFrame q := by
  unfold Mmu.residentFrame; rw [Mmu.fillFrame_eq]

/-! ## The page directory and the free frames (10_state R52) -/

/-- The free frames are the frames of `p` no entry owns. -/
theorem DirInv.mem_free (hi : DirInv p m) {f : Nat} :
    f ∈ m.freeFrames ↔ f < p.nframes ∧ f ∉ m.ownedFrames := by
  rw [hi.2.2.2, List.mem_filter, List.mem_range, decide_eq_true_iff]

theorem DirInv.free_rising (hi : DirInv p m) : m.freeFrames.Pairwise (· < ·) := by
  rw [hi.2.2.2]
  exact List.Pairwise.filter _ List.pairwise_lt_range

/-- The third clause of `DirInv` from a rising list with the right elements. -/
theorem free_eq {l o : List Nat} {n : Nat} (hl : l.Pairwise (· < ·))
    (h : ∀ f, f ∈ l ↔ f < n ∧ f ∉ o) : l = (List.range n).filter fun f => f ∉ o :=
  rising_ext hl (List.Pairwise.filter _ List.pairwise_lt_range) fun f => by
    rw [h, List.mem_filter, List.mem_range, decide_eq_true_iff]

/-- An eviction frees the page's frame (20_memory R91). -/
theorem DirInv.evict (hi : DirInv p m) (page : Nat) : DirInv p (m.evict page) := by
  cases hf : tableFind m.pageDir page with
  | none => unfold Mmu.evict; rw [hf]; exact hi
  | some e =>
    have he := mem_of_tableFind hf
    have hsub : (tableErase m.pageDir page).Sublist m.pageDir := List.filter_sublist
    have hown : ∀ f, f ∈ (m.evict page).ownedFrames ↔ f ∈ m.ownedFrames ∧ f ≠ e.frameNumber := by
      intro f
      unfold Mmu.evict Mmu.ownedFrames
      rw [hf]
      simp only [List.mem_map, mem_tableErase]
      constructor
      · rintro ⟨d, ⟨hd, hne⟩, rfl⟩
        refine ⟨⟨d, hd, rfl⟩, fun heq => hne ?_⟩
        have := List.inj_on_of_nodup_map hi.2.1 hd he heq
        rw [this]
      · rintro ⟨⟨d, hd, rfl⟩, hne⟩
        refine ⟨d, ⟨hd, fun hk => hne ?_⟩, rfl⟩
        have := tableFind_of_mem hi.1 hd
        rw [hk, hf, Option.some.injEq] at this
        rw [← this]
    have hev : (m.evict page).freeFrames = setInsert m.freeFrames e.frameNumber := by
      unfold Mmu.evict; rw [hf]
    have hpd : (m.evict page).pageDir = tableErase m.pageDir page := by
      unfold Mmu.evict; rw [hf]
    refine ⟨by rw [hpd]; exact hi.1.sublist (hsub.map _), ?_, ?_, free_eq ?_ ?_⟩
    · unfold Mmu.ownedFrames; rw [hpd]; exact hi.2.1.sublist (hsub.map _)
    · rw [hpd]; exact fun d hd => hi.2.2.1 d (mem_tableErase.1 hd).1
    · rw [hev]; exact setInsert_rising hi.free_rising _
    · intro f
      rw [hev, mem_setInsert, hown, hi.mem_free]
      constructor
      · rintro (rfl | ⟨h1, h2⟩)
        · exact ⟨(hi.2.2.1 _ he).2.2, fun h => h.2 rfl⟩
        · exact ⟨h1, fun h => h2 h.1⟩
      · rintro ⟨h1, h2⟩
        by_cases hfe : f = e.frameNumber
        · exact .inl hfe
        · exact .inr ⟨h1, fun h => h2 ⟨h, hfe⟩⟩

/-- An allocated frame is a frame, no entry owns it any more, and only it is missing from the free
frames (20_memory R90). -/
theorem DirInv.allocFrame (hi : DirInv p m) {f : Nat} {k : Mmu} (h : m.allocFrame = .ok f k) :
    f < p.nframes ∧ f ∉ k.ownedFrames ∧ k.freeFrames.Pairwise (· < ·) ∧
    (k.pageDir.map fun e => e.1).Nodup ∧ k.ownedFrames.Nodup ∧
    (∀ e ∈ k.pageDir, e ∈ m.pageDir) ∧
    ∀ g, g ∈ k.freeFrames ↔ g < p.nframes ∧ g ∉ k.ownedFrames ∧ g ≠ f := by
  rcases m.allocFrame_cases with ⟨f', rest, hf, h'⟩ | ⟨hfr, q, e, hv, h'⟩ | ⟨_, _, h'⟩ <;>
    rw [h'] at h <;> simp only [MmuResult.ok.injEq, reduceCtorEq] at h
  · obtain ⟨rfl, rfl⟩ := h
    have hr := hi.free_rising
    have hm : f' ∈ m.freeFrames := by rw [hf]; exact List.mem_cons_self
    rw [hi.mem_free] at hm
    rw [hf] at hr
    obtain ⟨hr1, hr2⟩ := List.pairwise_cons.1 hr
    refine ⟨hm.1, hm.2, hr2, hi.1, hi.2.1, fun e he => he, fun g => ?_⟩
    have hg := hi.mem_free (f := g)
    rw [hf, List.mem_cons] at hg
    constructor
    · intro hgr
      have := hg.1 (.inr hgr)
      exact ⟨this.1, this.2, fun h => by have := hr1 g hgr; omega⟩
    · rintro ⟨h1, h2, h3⟩
      exact (hg.2 ⟨h1, h2⟩).resolve_left h3
  · obtain ⟨rfl, rfl⟩ := h
    have he := (Mmu.victim_unprotected hv).1
    have hfind : tableFind m.pageDir q = some e := tableFind_of_mem hi.1 he
    have hev := hi.evict q
    have hfree : e.frameNumber ∈ (m.evict q).freeFrames := by
      unfold Mmu.evict; rw [hfind]; exact mem_setInsert.2 (.inl rfl)
    have hfree' := hev.mem_free.1 hfree
    refine ⟨hfree'.1, hfree'.2, List.Pairwise.filter _ hev.free_rising, hev.1, hev.2.1, ?_, fun g => ?_⟩
    · intro d hd
      have : (m.evict q).pageDir = tableErase m.pageDir q := by unfold Mmu.evict; rw [hfind]
      rw [show ({ m.evict q with freeFrames := _ } : Mmu).pageDir = (m.evict q).pageDir from rfl, this] at hd
      exact (mem_tableErase.1 hd).1
    · show g ∈ setErase (m.evict q).freeFrames e.frameNumber ↔ _ ∧ g ∉ (m.evict q).ownedFrames ∧ _
      unfold setErase
      rw [List.mem_filter, hev.mem_free, decide_eq_true_iff, and_assoc]

/-- Mapping a page that is not in the directory to an allocated frame (20_memory R88). -/
theorem DirInv.mapPage {k : Mmu} {f page : Nat} (hpage : page < 2 ^ 20) (hf : f < p.nframes)
    (hown : f ∉ k.ownedFrames) (hfr : k.freeFrames.Pairwise (· < ·))
    (hkeys : (k.pageDir.map fun e => e.1).Nodup) (hnod : k.ownedFrames.Nodup)
    (hent : ∀ e ∈ k.pageDir, e.1 < 2 ^ 20 ∧ e.2.present = true ∧ e.2.frameNumber < p.nframes)
    (hfree : ∀ g, g ∈ k.freeFrames ↔ g < p.nframes ∧ g ∉ k.ownedFrames ∧ g ≠ f)
    (hnone : tableFind k.pageDir page = none) : DirInv p (k.mapPage page f) := by
  have hpd : (k.mapPage page f).pageDir = k.pageDir ++ [(page, newEntry f)] := by
    unfold Mmu.mapPage; dsimp only; rw [tableErase_of_none hnone]
  have ho : (k.mapPage page f).ownedFrames = k.ownedFrames ++ [f] := by
    unfold Mmu.ownedFrames; rw [hpd]; simp [newEntry]
  refine ⟨?_, ?_, ?_, free_eq hfr fun g => ?_⟩
  · rw [hpd, List.map_append, List.nodup_append]
    refine ⟨hkeys, by simp, ?_⟩
    intro a ha b hb
    obtain ⟨e, he, rfl⟩ := List.mem_map.1 ha
    simp only [List.map_cons, List.map_nil, List.mem_singleton] at hb
    subst hb
    exact tableFind_none hnone he
  · rw [ho, List.nodup_append]
    refine ⟨hnod, by simp, ?_⟩
    intro a ha b hb
    simp only [List.mem_singleton] at hb
    subst hb
    exact fun h => hown (h ▸ ha)
  · rw [hpd]
    intro e he
    rcases List.mem_append.1 he with he | he
    · exact hent e he
    · simp only [List.mem_singleton] at he
      subst he
      exact ⟨hpage, rfl, hf⟩
  · rw [ho, List.mem_append, List.mem_singleton, not_or, show (k.mapPage page f).freeFrames = k.freeFrames from rfl]
    exact hfree g

/-! ## The TLB (10_state R52 (c), 20_memory R89) -/

/-- The TLB takes the page with the frame the directory gives it. -/
theorem TlbInv.tlbInsert (ht : TlbInv m) {page f : Nat} (hr : m.residentFrame page = some f) :
    TlbInv (m.tlbInsert page f) := by
  obtain ⟨h1, h2, h3⟩ := ht
  have hres : ∀ q, (m.tlbInsert page f).residentFrame q = m.residentFrame q := fun _ => rfl
  have hle := tableErase_length_le m.tlb page
  have hnod : ((tableErase m.tlb page ++ [(page, f)]).map fun e => e.1).Nodup := by
    rw [List.map_append, List.nodup_append]
    refine ⟨h1.sublist (List.filter_sublist.map _), by simp, ?_⟩
    intro a ha b hb
    obtain ⟨e, he, rfl⟩ := List.mem_map.1 ha
    simp only [List.map_cons, List.map_nil, List.mem_singleton] at hb
    subst hb
    exact (mem_tableErase.1 he).2
  refine ⟨?_, ?_, fun e he => ?_⟩
  · unfold Mmu.tlbInsert
    dsimp only
    split
    · exact hnod.sublist ((List.tail_sublist _).map _)
    · exact hnod
  · unfold Mmu.tlbInsert
    dsimp only
    split
    · rw [List.length_tail, List.length_append]; simp only [List.length_singleton]; omega
    · next h => unfold tlbCap at h; omega
  · rw [hres]
    rcases Mmu.mem_tlbInsert he with rfl | ⟨he, hne⟩
    · exact hr
    · exact h3 e he

/-- What translation keeps of the directory and the TLB. -/
theorem DirInv.translate (hi : DirInv p m) (ht : TlbInv m) (v : Word) :
    DirInv p (m.translate p v).mmu ∧ TlbInv (m.translate p v).mmu := by
  rcases m.translate_cases p v with ⟨f, _, h'⟩ | ⟨_, f, hf, h'⟩ | ⟨_, hn, f, k, hk, h'⟩ | ⟨_, _, e, _, h'⟩
    <;> rw [h']
  · exact ⟨hi, ht⟩
  · exact ⟨hi, TlbInv.tlbInsert (m := m.countTlbMiss) ht hf⟩
  · have hi' : DirInv p m.countTlbMiss.countPageFault := hi
    obtain ⟨a1, a2, a3, a4, a5, a6, a7⟩ := hi'.allocFrame hk
    have hnone : tableFind k.pageDir (pageOf v) = none := by
      have h0 : tableFind m.pageDir (pageOf v) = none := by
        have := Mmu.residentFrame_of_find hi (pageOf v)
        rw [hn] at this
        simpa [eq_comm] using this
      by_contra hne
      obtain ⟨x, hx⟩ := Option.ne_none_iff_exists'.1 hne
      exact tableFind_none h0 (a6 _ (mem_of_tableFind hx)) rfl
    have hk' : DirInv p ((k.fillFrame p f).mapPage (pageOf v) f) := by
      rw [Mmu.fillFrame_eq]
      exact DirInv.mapPage (pageOf_lt v) a1 a2 a3 a4 a5 (fun e he => hi.2.2.1 e (a6 e he)) a7 hnone
    refine ⟨hk', TlbInv.tlbInsert ?_ (Mmu.mapPage_resident _ _ _)⟩
    have htlb : ((k.fillFrame p f).mapPage (pageOf v) f).tlb = k.tlb := by rw [Mmu.fillFrame_eq]; rfl
    have hkt : TlbInv k := by
      rcases Mmu.allocFrame_cases m.countTlbMiss.countPageFault with
        ⟨f', r, _, h⟩ | ⟨_, q, e, hv, h⟩ | ⟨_, _, h⟩ <;> rw [hk] at h <;>
        simp only [MmuResult.ok.injEq, reduceCtorEq] at h
      · obtain ⟨_, rfl⟩ := h; exact ht
      · obtain ⟨_, rfl⟩ := h
        have hfind : tableFind m.pageDir q = some e :=
          tableFind_of_mem hi.1 (Mmu.victim_unprotected hv).1
        have hev : (m.countTlbMiss.countPageFault.evict q).tlb = tableErase m.tlb q := by
          unfold Mmu.evict
          rw [show m.countTlbMiss.countPageFault.pageDir = m.pageDir from rfl, hfind]; rfl
        refine ⟨?_, ?_, fun d hd => ?_⟩
        · show ((m.countTlbMiss.countPageFault.evict q).tlb.map _).Nodup
          rw [hev]; exact ht.1.sublist (List.filter_sublist.map _)
        · show (m.countTlbMiss.countPageFault.evict q).tlb.length ≤ 64
          rw [hev]; exact le_trans (tableErase_length_le _ _) ht.2.1
        · have hd' : d ∈ (m.countTlbMiss.countPageFault.evict q).tlb := hd
          rw [hev, mem_tableErase] at hd'
          show (m.countTlbMiss.countPageFault.evict q).residentFrame d.1 = _
          rw [Mmu.evict_other hd'.2]
          exact ht.2.2 d hd'.1
    refine ⟨by rw [htlb]; exact hkt.1, by rw [htlb]; exact hkt.2.1, fun d hd => ?_⟩
    rw [htlb] at hd
    have hd2 := hkt.2.2 d hd
    have hne : d.1 ≠ pageOf v := by
      intro heq
      rw [heq] at hd2
      unfold Mmu.residentFrame at hd2
      rw [hnone] at hd2; cases hd2
    rw [Mmu.mapPage_other hne, Mmu.fillFrame_residentFrame]
    exact hd2
  · exact ⟨hi, ht⟩

/-- A translation leaves a resident protected page where it is (10_state R52 (d), 20_memory R90). -/
theorem Mmu.translate_protected (v : Word) {page f : Nat} (hp : page ∈ m.protectedPages)
    (hr : m.residentFrame page = some f) : (m.translate p v).mmu.residentFrame page = some f := by
  rcases m.translate_cases p v with ⟨f, hf, h'⟩ | ⟨_, f, _, h'⟩ | ⟨_, hnr, g, k, hk, h'⟩ | ⟨_, _, e, _, h'⟩
    <;> rw [h']
  · exact hr
  · exact hr
  · show ((k.fillFrame p g).mapPage (pageOf v) g).residentFrame page = _
    have hne : page ≠ pageOf v := by rintro rfl; rw [hnr] at hr; cases hr
    rw [Mmu.mapPage_other hne, Mmu.fillFrame_residentFrame]
    rcases Mmu.allocFrame_cases m.countTlbMiss.countPageFault with
      ⟨f', rest, _, h⟩ | ⟨_, q, e, hv, h⟩ | ⟨_, _, h⟩ <;> rw [hk] at h <;>
      simp only [MmuResult.ok.injEq, reduceCtorEq] at h
    · obtain ⟨_, rfl⟩ := h; exact hr
    · obtain ⟨_, rfl⟩ := h
      have hq : page ≠ q := by rintro rfl; exact (Mmu.victim_unprotected hv).2 hp
      show (m.countTlbMiss.countPageFault.evict q).residentFrame page = _
      rw [Mmu.evict_other hq]; exact hr
  · exact hr

/-! ## The byte store -/

theorem PhysInv.writeBytes (h : PhysInv p m) {a : Nat} {bs : List Byte} (hb : a + bs.length ≤ p.memSize) :
    Memory.wf (m.phys.writeBytes a bs) ∧ ∀ c ∈ m.phys.writeBytes a bs, c.1 < p.memSize := by
  refine ⟨Memory.wf_writeBytes h.1 _ _, fun c hc => ?_⟩
  rcases Memory.mem_writeBytes hc with h' | h'
  · exact h.2 c h'
  · omega

theorem frame_in_memory {f : Nat} (h : f < p.nframes) : frameAddr f 0 + 4096 ≤ p.memSize := by
  unfold Params.nframes at h
  unfold frameAddr
  omega

/-- Giving a frame its contents keeps the byte store in `[0, MEM_SIZE)` (20_memory R92). -/
theorem PhysInv.fillFrame (h : PhysInv p m) {f : Nat} (hf : f < p.nframes) :
    PhysInv p (m.fillFrame p f) := by
  unfold Mmu.fillFrame
  split
  · exact h
  · exact ⟨Memory.wf_clear h.1 _ _, fun c hc => h.2 c (List.mem_filter.1 hc).1⟩
  · have hl : ((List.range 4096).map (Config.frameByte m.fillDraws)).length = 4096 := by
      rw [List.length_map, List.length_range]
    generalize (List.range 4096).map (Config.frameByte m.fillDraws) = bs at hl ⊢
    exact PhysInv.writeBytes h (by rw [hl]; exact frame_in_memory hf)

theorem PhysInv.translate (hp : PhysInv p m) (hi : DirInv p m) (v : Word) :
    PhysInv p (m.translate p v).mmu := by
  rcases m.translate_cases p v with ⟨f, _, h'⟩ | ⟨_, f, hf, h'⟩ | ⟨_, hn, f, k, hk, h'⟩ | ⟨_, _, e, _, h'⟩
    <;> rw [h']
  · exact hp
  · exact hp
  · have hi' : DirInv p m.countTlbMiss.countPageFault := hi
    have hpk : PhysInv p k := by
      have := Mmu.allocFrame_phys m.countTlbMiss.countPageFault
      rw [hk] at this
      unfold PhysInv
      rw [show k.phys = m.phys from this]; exact hp
    exact PhysInv.fillFrame hpk (hi'.allocFrame hk).1
  · exact hp

/-! ## The caches (10_state R50, 20_memory R96 to R102) -/

/-- The invariant of the caches while an access to `line` is being made: only that line can hold the
newest `lastAccess`. -/
def CacheBusy (p : Params) (line : Nat) (m : Mmu) : Prop :=
  CacheInv p m ∧ line % 64 = 0 ∧ ∀ e ∈ m.l1 ++ m.l2, e.2.lastAccess = m.cacheClock → e.1 = line

theorem CacheBusy.tick (h : CacheInv p m) {line : Nat} (hl : line % 64 = 0) :
    CacheBusy p line { m with cacheClock := m.cacheClock + 1 } := by
  obtain ⟨h1, h2, h3, h4, h5, h6⟩ := h
  refine ⟨⟨h1, h2, h3, h4, fun e he => ?_, h6⟩, hl, fun e he hc => ?_⟩
  · have := h5 e he
    exact ⟨this.1, this.2.1, Nat.le_succ_of_le this.2.2.1, this.2.2.2⟩
  · have := (h5 e he).2.2.1
    dsimp only at hc
    omega

/-- Putting the line, newest, into caches whose other entries meet the invariant. -/
theorem CacheBusy.put {line : Nat} (h : CacheBusy p line m) {l1 l2 : List (Nat × CacheEntry)}
    {e0 : CacheEntry} (he0 : e0.valid = true ∧ e0.dirty = false ∧ e0.lastAccess = m.cacheClock)
    (h1 : Rising l1) (h1' : l1.length ≤ 256) (h2 : Rising l2) (h2' : ∀ n ∈ p.l2Cap, l2.length ≤ n)
    (hmem : ∀ e ∈ l1 ++ l2, e = (line, e0) ∨ e ∈ m.l1 ++ m.l2) :
    CacheBusy p line { m with l1 := l1, l2 := l2 } := by
  obtain ⟨⟨_, _, _, _, h5, h6⟩, hl, h7⟩ := h
  refine ⟨⟨h1, h1', h2, h2', fun e he => ?_, fun e he e' he' heq => ?_⟩, hl, fun e he hc => ?_⟩
  · rcases hmem e he with rfl | hm
    · exact ⟨he0.1, he0.2.1, le_of_eq he0.2.2, hl⟩
    · exact h5 e hm
  · rcases hmem e he with rfl | hm <;> rcases hmem e' he' with rfl | hm'
    · rfl
    · exact (h7 e' hm' (heq.symm.trans he0.2.2)).symm
    · exact h7 e hm (heq.trans he0.2.2)
    · exact h6 e hm e' hm' heq
  · rcases hmem e he with rfl | hm
    · rfl
    · exact h7 e hm hc

theorem lruEntry_mem {c : List (Nat × CacheEntry)} {e : Nat × CacheEntry} (h : lruEntry c = some e) :
    e ∈ c := by
  induction c with
  | nil => simp [lruEntry] at h
  | cons d c ih =>
    simp only [lruEntry] at h
    split at h
    · simp only [Option.some.injEq] at h; subst h; exact List.mem_cons_self
    · next e' he' =>
      split at h <;> simp only [Option.some.injEq] at h <;> subst h
      · exact List.mem_cons_self
      · exact List.mem_cons_of_mem _ (ih he')

theorem lruEntry_some {c : List (Nat × CacheEntry)} (h : c ≠ []) : ∃ e, lruEntry c = some e := by
  cases c with
  | nil => exact absurd rfl h
  | cons d c =>
    simp only [lruEntry]
    split
    · exact ⟨_, rfl⟩
    · split <;> exact ⟨_, rfl⟩

theorem dropLru_length {c : List (Nat × CacheEntry)} (h : c ≠ []) : (dropLru c).length < c.length := by
  obtain ⟨e, he⟩ := lruEntry_some h
  unfold dropLru
  rw [he]
  exact tableErase_length_lt (lruEntry_mem he)

theorem dropLru_sublist (c : List (Nat × CacheEntry)) : (dropLru c).Sublist c := by
  unfold dropLru
  split
  · exact List.Sublist.refl c
  · exact List.filter_sublist

/-- An entry evicted from L1 goes to L2 with its `lastAccess` (20_memory R98, R99). -/
theorem CacheBusy.l2Fill {line : Nat} (hw : p.l2Cap ≠ some 0) (h : CacheBusy p line m)
    {e : Nat × CacheEntry} (he : e ∈ m.l1) :
    CacheBusy p line (Mmu.l2Fill p e { m with l1 := tableErase m.l1 e.1 }) ∧
      (Mmu.l2Fill p e { m with l1 := tableErase m.l1 e.1 }).l1 = tableErase m.l1 e.1 := by
  obtain ⟨⟨h1, h2, h3, h4, h5, h6⟩, hl, h7⟩ := h
  have hsub : ∀ d ∈ tableErase m.l1 e.1 ++ m.l2, d ∈ m.l1 ++ m.l2 := fun d hd => by
    rcases List.mem_append.1 hd with hd | hd
    · exact List.mem_append_left _ (mem_tableErase.1 hd).1
    · exact List.mem_append_right _ hd
  have hlen : (tableErase m.l1 e.1).length ≤ 256 := le_trans (tableErase_length_le _ _) h2
  unfold Mmu.l2Fill
  split
  · exact ⟨⟨⟨Rising.tableErase h1 _, hlen, h3, h4, fun d hd => h5 d (hsub d hd),
      fun d hd d' hd' => h6 d (hsub d hd) d' (hsub d' hd')⟩, hl, fun d hd => h7 d (hsub d hd)⟩, rfl⟩
  · refine ⟨?_, rfl⟩
    have hem : e ∈ m.l1 ++ m.l2 := List.mem_append_left _ he
    have he5 := h5 e hem
    unfold Mmu.l2Insert
    dsimp only
    generalize hc : (if tableFind m.l2 e.1 = none ∧ some m.l2.length = p.l2Cap then dropLru m.l2
      else m.l2) = c
    have hcs : c.Sublist m.l2 := by
      rw [← hc]; split
      · exact dropLru_sublist _
      · exact List.Sublist.refl _
    have hcr : Rising c := h3.sublist hcs
    have hcl : ∀ n ∈ p.l2Cap, (tableInsert c e.1 (freshEntry e.2.lastAccess)).length ≤ n := by
      intro n hn
      have hn4 := h4 n hn
      have hn' : p.l2Cap = some n := hn
      cases hf : tableFind m.l2 e.1 with
      | some x =>
        rw [hf, if_neg (by simp)] at hc
        subst hc
        rw [tableInsert_length_found h3 hf]; exact hn4
      | none =>
        have := tableInsert_length c e.1 (freshEntry e.2.lastAccess)
        by_cases hfull : m.l2.length = n
        · rw [if_pos ⟨hf, by rw [hfull, hn']⟩] at hc
          have hne : m.l2 ≠ [] := by
            rintro h0
            rw [h0, List.length_nil] at hfull
            exact hw (by rw [hn', ← hfull])
          have := dropLru_length hne
          rw [hc] at this
          omega
        · have := hcs.length_le
          omega
    have hmem : ∀ d ∈ tableErase m.l1 e.1 ++ tableInsert c e.1 (freshEntry e.2.lastAccess),
        d = (e.1, freshEntry e.2.lastAccess) ∨ d ∈ m.l1 ++ m.l2 := by
      intro d hd
      rcases List.mem_append.1 hd with hd | hd
      · exact .inr (List.mem_append_left _ (mem_tableErase.1 hd).1)
      · rcases mem_tableInsert hd with hd | hd
        · exact .inl hd
        · exact .inr (List.mem_append_right _ (hcs.subset hd))
    refine ⟨⟨Rising.tableErase h1 _, hlen, Rising.tableInsert hcr _ _, hcl, fun d hd => ?_,
      fun d hd d' hd' heq => ?_⟩, hl, fun d hd hcl => ?_⟩
    · rcases hmem d hd with rfl | hd
      · exact ⟨rfl, rfl, he5.2.2.1, he5.2.2.2⟩
      · exact h5 d hd
    · rcases hmem d hd with rfl | hd <;> rcases hmem d' hd' with rfl | hd'
      · rfl
      · exact h6 e hem d' hd' heq
      · exact h6 d hd e hem heq
      · exact h6 d hd d' hd' heq
    · rcases hmem d hd with rfl | hd
      · exact h7 e hem hcl
      · exact h7 d hd hcl

/-- Bringing the line into L1, newest (20_memory R96). -/
theorem CacheBusy.l1Insert {line : Nat} (hw : p.l2Cap ≠ some 0) (h : CacheBusy p line m) :
    CacheBusy p line (m.l1Insert p line) := by
  have key : ∃ n, n = m.l1MakeRoom p line ∧ CacheBusy p line n ∧
      (tableInsert n.l1 line (freshEntry n.cacheClock)).length ≤ 256 := by
    refine ⟨_, rfl, ?_⟩
    unfold Mmu.l1MakeRoom
    split
    · next hfull =>
      have hne : m.l1 ≠ [] := by
        rintro h0; have := hfull.2; rw [h0] at this; simp [l1Cap] at this
      obtain ⟨e, he⟩ := lruEntry_some hne
      rw [he]
      obtain ⟨ha, hb⟩ := h.l2Fill hw (lruEntry_mem he)
      refine ⟨ha, ?_⟩
      dsimp only
      have h1 := tableInsert_length (Mmu.l2Fill p e { m with l1 := tableErase m.l1 e.1 }).l1 line
        (freshEntry (Mmu.l2Fill p e { m with l1 := tableErase m.l1 e.1 }).cacheClock)
      have h2 := tableErase_length_lt (lruEntry_mem he)
      rw [hb] at h1 ⊢
      have h3 := hfull.2
      unfold l1Cap at h3
      omega
    · next hfull =>
      refine ⟨h, ?_⟩
      cases hf : tableFind m.l1 line with
      | some x => rw [tableInsert_length_found h.1.1 hf]; exact h.1.2.1
      | none =>
        have h1 := tableInsert_length m.l1 line (freshEntry m.cacheClock)
        have h2 := h.1.2.1
        have h3 : m.l1.length ≠ l1Cap := fun h => hfull ⟨hf, h⟩
        unfold l1Cap at h3
        omega
  obtain ⟨n, hn, hb, hlen⟩ := key
  unfold Mmu.l1Insert
  dsimp only
  rw [← hn]
  refine CacheBusy.put hb (e0 := freshEntry n.cacheClock) ⟨rfl, rfl, rfl⟩
    (Rising.tableInsert hb.1.1 _ _) hlen hb.1.2.2.1 hb.1.2.2.2.1 fun d hd => ?_
  rcases List.mem_append.1 hd with hd | hd
  · rcases mem_tableInsert hd with hd | hd
    · exact .inl hd
    · exact .inr (List.mem_append_left _ hd)
  · exact .inr (List.mem_append_right _ hd)

/-- A cached read keeps the invariant of the caches (20_memory R95). -/
theorem CacheInv.readAt (hw : p.l2Cap ≠ some 0) (h : CacheInv p m) (v : Word) (a : Nat) (w : Width) :
    CacheInv p (m.readAt p v a w).mmu := by
  have hphys : ∀ n : Mmu, CacheInv p n → CacheInv p (n.physRead p v a w).mmu := fun n hn => by
    rw [Mmu.physRead_eq]; split <;> exact hn
  have hb := CacheBusy.tick h (line := lineOf a) (by unfold lineOf; omega)
  unfold Mmu.readAt
  dsimp only
  split
  · next e he =>
    have hem := h.2.2.2.2.1 _ (List.mem_append_left _ (mem_of_tableFind he))
    refine hphys _ (CacheBusy.put hb (e0 := { e with lastAccess := m.cacheClock + 1 })
      ⟨hem.1, hem.2.1, rfl⟩ (Rising.tableInsert h.1 _ _) ?_ h.2.2.1 h.2.2.2.1 fun d hd => ?_).1
    · rw [tableInsert_length_found h.1 he]; exact h.2.1
    · rcases List.mem_append.1 hd with hd | hd
      · rcases mem_tableInsert hd with hd | hd
        · exact .inl hd
        · exact .inr (List.mem_append_left _ hd)
      · exact .inr (List.mem_append_right _ hd)
  · split
    · next e he =>
      have hem := h.2.2.2.2.1 _ (List.mem_append_right _ (mem_of_tableFind he))
      refine hphys _ (CacheBusy.l1Insert hw (line := lineOf a) ?_).1
      refine CacheBusy.put hb (e0 := { e with lastAccess := m.cacheClock + 1 })
        ⟨hem.1, hem.2.1, rfl⟩ h.1 h.2.1 (Rising.tableInsert h.2.2.1 _ _) ?_ fun d hd => ?_
      · intro n hn
        exact (tableInsert_length_found h.2.2.1 he).le.trans (h.2.2.2.1 n hn)
      · rcases List.mem_append.1 hd with hd | hd
        · exact .inr (List.mem_append_left _ hd)
        · rcases mem_tableInsert hd with hd | hd
          · exact .inl hd
          · exact .inr (List.mem_append_right _ hd)
    · rw [Mmu.physRead_eq]
      split
      · exact (CacheBusy.l1Insert hw (line := lineOf a)
          (m := Mmu.countCacheMiss { m with cacheClock := m.cacheClock + 1 }) hb).1
      · exact hb.1

/-- Invalidating a line keeps the invariant of the caches (20_memory R100). -/
theorem CacheInv.invalidate (h : CacheInv p m) (line : Nat) :
    CacheInv p { m with l1 := tableErase m.l1 line, l2 := tableErase m.l2 line } := by
  obtain ⟨h1, h2, h3, h4, h5, h6⟩ := h
  have hsub : ∀ d ∈ tableErase m.l1 line ++ tableErase m.l2 line, d ∈ m.l1 ++ m.l2 := fun d hd => by
    rcases List.mem_append.1 hd with hd | hd
    · exact List.mem_append_left _ (mem_tableErase.1 hd).1
    · exact List.mem_append_right _ (mem_tableErase.1 hd).1
  exact ⟨Rising.tableErase h1 _, le_trans (tableErase_length_le _ _) h2, Rising.tableErase h3 _,
    fun n hn => le_trans (tableErase_length_le _ _) (h4 n hn), fun d hd => h5 d (hsub d hd),
    fun d hd d' hd' => h6 d (hsub d hd) d' (hsub d' hd')⟩

/-- Translation does not touch the caches. -/
theorem Mmu.translate_caches (v : Word) : (m.translate p v).mmu.l1 = m.l1 ∧
    (m.translate p v).mmu.l2 = m.l2 ∧ (m.translate p v).mmu.cacheClock = m.cacheClock := by
  have hev : ∀ (n : Mmu) (q : Nat), (n.evict q).l1 = n.l1 ∧ (n.evict q).l2 = n.l2 ∧
      (n.evict q).cacheClock = n.cacheClock := fun n q => by
    unfold Mmu.evict; split <;> exact ⟨rfl, rfl, rfl⟩
  rcases m.translate_cases p v with ⟨f, _, h'⟩ | ⟨_, f, hf, h'⟩ | ⟨_, hn, f, k, hk, h'⟩ | ⟨_, _, e, _, h'⟩
    <;> rw [h']
  · exact ⟨rfl, rfl, rfl⟩
  · exact ⟨rfl, rfl, rfl⟩
  · have hkc : k.l1 = m.l1 ∧ k.l2 = m.l2 ∧ k.cacheClock = m.cacheClock := by
      rcases Mmu.allocFrame_cases m.countTlbMiss.countPageFault with
        ⟨f', r, _, h⟩ | ⟨_, q, e, hv, h⟩ | ⟨_, _, h⟩ <;> rw [hk] at h <;>
        simp only [MmuResult.ok.injEq, reduceCtorEq] at h
      · obtain ⟨_, rfl⟩ := h; exact ⟨rfl, rfl, rfl⟩
      · obtain ⟨_, rfl⟩ := h; exact hev _ q
    rw [Mmu.fillFrame_eq]
    exact hkc
  · exact ⟨rfl, rfl, rfl⟩

/-- Translation keeps the invariant of the MMU, whether it completes or raises. -/
theorem Mmu.Inv.translate (h : m.Inv p) (v : Word) : (m.translate p v).mmu.Inv p := by
  obtain ⟨hp, hd, hs, ht, hc⟩ := h
  obtain ⟨hd', ht'⟩ := hd.translate ht v
  obtain ⟨c1, c2, c3⟩ := Mmu.translate_caches (p := p) (m := m) v
  refine ⟨hp.translate hd v, hd', by rw [Mmu.translate_protectedPages]; exact hs, ht', ?_⟩
  unfold CacheInv
  rw [c1, c2, c3]
  exact hc

/-- What differs only in caches and counters has the other parts of the invariant. -/
theorem Mmu.Inv.of_caches {n : Mmu} (h : m.Inv p) (hs : m.SameButCaches n) (hc : CacheInv p n) :
    n.Inv p := by
  obtain ⟨hp, hd, hpr, ht, _⟩ := h
  refine ⟨?_, ?_, ?_, ?_, hc⟩
  · unfold PhysInv; rw [hs.phys]; exact hp
  · unfold DirInv Mmu.ownedFrames; rw [hs.pageDir, hs.freeFrames]; exact hd
  · rw [hs.protectedPages]; exact hpr
  · unfold TlbInv Mmu.residentFrame; rw [hs.tlb, hs.pageDir]; exact ht

/-- A read keeps the invariant of the MMU, whether it completes or raises. -/
theorem Mmu.Inv.read (hw : p.l2Cap ≠ some 0) (h : m.Inv p) (v : Word) (w : Width) :
    (m.read p v w).mmu.Inv p := by
  have ht := Mmu.Inv.translate h v
  unfold Mmu.read
  cases htr : m.translate p v with
  | err e n => rw [htr] at ht; exact ht
  | ok a n =>
    rw [htr] at ht
    rw [MmuResult.bind_ok]
    obtain ⟨k, hk, hr⟩ := Mmu.readAt_spec p v a w n
    refine Mmu.Inv.of_caches ht ?_ (CacheInv.readAt hw ht.2.2.2.2 v a w)
    rw [hr]; split <;> exact hk

/-- A write keeps the invariant of the MMU, whether it completes or raises. -/
theorem Mmu.Inv.write (h : m.Inv p) (v : Word) (w : Width) (x : Word) :
    (m.write p v w x).mmu.Inv p := by
  have ht := Mmu.Inv.translate h v
  unfold Mmu.write
  cases htr : m.translate p v with
  | err e n => rw [htr] at ht; exact ht
  | ok a n =>
    rw [htr] at ht
    obtain ⟨hp, hd, hpr, htl, hc⟩ := ht
    rw [MmuResult.bind_ok, Mmu.writeAt_eq]
    split
    · next hb =>
      exact ⟨PhysInv.writeBytes hp (by rw [wordBytes_length]; exact hb), hd, hpr, htl,
        CacheInv.invalidate hc _⟩
    · exact ⟨hp, hd, hpr, htl, hc⟩

end Sys2Proof.Machine
end

