-- ==== Sys2Proof/Laws/PerInstr.lean ====
section
/-! SUPPORT. `EncodingLength`: the encoding of each instruction has the length of its row (the Len column
of spec/30_encoding.md R150 and R151, R172). -/

namespace Sys2Proof.Laws

open Sys2Proof

/-- The encoding of `i` is `i.size` bytes long. -/
def EncodingLength.Statement (i : Instr) : Prop := (encode i).length = i.size

/-- The length of opcode bytes, an r/m operand and the bytes after it. -/
theorem length_opcode_rm {R : Type} (op tail : List Byte) (num : R → BitVec 3) (reg : BitVec 3)
    (rm : Rm R) : (op ++ encodeRm num reg rm ++ tail).length = op.length + tail.length + 1 + rm.dispBytes := by
  rw [List.length_append, List.length_append, encodeRm_length]; omega

/-- The length of opcode bytes and an r/m operand. -/
theorem length_opcode_rm_only {R : Type} (op : List Byte) (num : R → BitVec 3) (reg : BitVec 3)
    (rm : Rm R) : (op ++ encodeRm num reg rm).length = op.length + 1 + rm.dispBytes := by
  rw [List.length_append, encodeRm_length]; omega

theorem EncodingLength.addRm8R8 (rm : Rm8) (r : Reg8) :
    EncodingLength.Statement (.addRm8R8 rm r) :=
  length_opcode_rm_only [0x00] Reg8.num r.num rm
theorem EncodingLength.addRm32R32 (rm : Rm32) (r : Reg32) :
    EncodingLength.Statement (.addRm32R32 rm r) :=
  length_opcode_rm_only [0x01] Reg32.num r.num rm
theorem EncodingLength.addR8Rm8 (r : Reg8) (rm : Rm8) :
    EncodingLength.Statement (.addR8Rm8 r rm) :=
  length_opcode_rm_only [0x02] Reg8.num r.num rm
theorem EncodingLength.addR32Rm32 (r : Reg32) (rm : Rm32) :
    EncodingLength.Statement (.addR32Rm32 r rm) :=
  length_opcode_rm_only [0x03] Reg32.num r.num rm
theorem EncodingLength.orRm8R8 (rm : Rm8) (r : Reg8) :
    EncodingLength.Statement (.orRm8R8 rm r) :=
  length_opcode_rm_only [0x08] Reg8.num r.num rm
theorem EncodingLength.orRm32R32 (rm : Rm32) (r : Reg32) :
    EncodingLength.Statement (.orRm32R32 rm r) :=
  length_opcode_rm_only [0x09] Reg32.num r.num rm
theorem EncodingLength.andRm8R8 (rm : Rm8) (r : Reg8) :
    EncodingLength.Statement (.andRm8R8 rm r) :=
  length_opcode_rm_only [0x20] Reg8.num r.num rm
theorem EncodingLength.andRm32R32 (rm : Rm32) (r : Reg32) :
    EncodingLength.Statement (.andRm32R32 rm r) :=
  length_opcode_rm_only [0x21] Reg32.num r.num rm
theorem EncodingLength.subRm8R8 (rm : Rm8) (r : Reg8) :
    EncodingLength.Statement (.subRm8R8 rm r) :=
  length_opcode_rm_only [0x28] Reg8.num r.num rm
theorem EncodingLength.subRm32R32 (rm : Rm32) (r : Reg32) :
    EncodingLength.Statement (.subRm32R32 rm r) :=
  length_opcode_rm_only [0x29] Reg32.num r.num rm
theorem EncodingLength.xorRm8R8 (rm : Rm8) (r : Reg8) :
    EncodingLength.Statement (.xorRm8R8 rm r) :=
  length_opcode_rm_only [0x30] Reg8.num r.num rm
theorem EncodingLength.xorRm32R32 (rm : Rm32) (r : Reg32) :
    EncodingLength.Statement (.xorRm32R32 rm r) :=
  length_opcode_rm_only [0x31] Reg32.num r.num rm
theorem EncodingLength.cmpRm8R8 (rm : Rm8) (r : Reg8) :
    EncodingLength.Statement (.cmpRm8R8 rm r) :=
  length_opcode_rm_only [0x38] Reg8.num r.num rm
theorem EncodingLength.cmpRm32R32 (rm : Rm32) (r : Reg32) :
    EncodingLength.Statement (.cmpRm32R32 rm r) :=
  length_opcode_rm_only [0x39] Reg32.num r.num rm
theorem EncodingLength.movsxdR32Rm32 (r : Reg32) (rm : Rm32) :
    EncodingLength.Statement (.movsxdR32Rm32 r rm) :=
  length_opcode_rm_only [0x63] Reg32.num r.num rm
theorem EncodingLength.testRm32R32 (rm : Rm32) (r : Reg32) :
    EncodingLength.Statement (.testRm32R32 rm r) :=
  length_opcode_rm_only [0x85] Reg32.num r.num rm
theorem EncodingLength.xchgRm32R32 (rm : Rm32) (r : Reg32) :
    EncodingLength.Statement (.xchgRm32R32 rm r) :=
  length_opcode_rm_only [0x87] Reg32.num r.num rm
theorem EncodingLength.movRm8R8 (rm : Rm8) (r : Reg8) :
    EncodingLength.Statement (.movRm8R8 rm r) :=
  length_opcode_rm_only [0x88] Reg8.num r.num rm
theorem EncodingLength.movRm32R32 (rm : Rm32) (r : Reg32) :
    EncodingLength.Statement (.movRm32R32 rm r) :=
  length_opcode_rm_only [0x89] Reg32.num r.num rm
theorem EncodingLength.andEaxImm32 (imm : Word) :
    EncodingLength.Statement (.andEaxImm32 imm) := rfl
theorem EncodingLength.xorEaxImm32 (imm : Word) :
    EncodingLength.Statement (.xorEaxImm32 imm) := rfl
theorem EncodingLength.cmpEaxImm32 (imm : Word) :
    EncodingLength.Statement (.cmpEaxImm32 imm) := rfl
theorem EncodingLength.incR32 (r : Reg32) :
    EncodingLength.Statement (.incR32 r) := rfl
theorem EncodingLength.decR32 (r : Reg32) :
    EncodingLength.Statement (.decR32 r) := rfl
theorem EncodingLength.pushR32 (r : Reg32) :
    EncodingLength.Statement (.pushR32 r) := rfl
theorem EncodingLength.popR32 (r : Reg32) :
    EncodingLength.Statement (.popR32 r) := rfl
theorem EncodingLength.joRel8 (rel : Byte) :
    EncodingLength.Statement (.joRel8 rel) := rfl
theorem EncodingLength.jnoRel8 (rel : Byte) :
    EncodingLength.Statement (.jnoRel8 rel) := rfl
theorem EncodingLength.jcRel8 (rel : Byte) :
    EncodingLength.Statement (.jcRel8 rel) := rfl
theorem EncodingLength.jncRel8 (rel : Byte) :
    EncodingLength.Statement (.jncRel8 rel) := rfl
theorem EncodingLength.jzRel8 (rel : Byte) :
    EncodingLength.Statement (.jzRel8 rel) := rfl
theorem EncodingLength.jnzRel8 (rel : Byte) :
    EncodingLength.Statement (.jnzRel8 rel) := rfl
theorem EncodingLength.jbeRel8 (rel : Byte) :
    EncodingLength.Statement (.jbeRel8 rel) := rfl
theorem EncodingLength.jaRel8 (rel : Byte) :
    EncodingLength.Statement (.jaRel8 rel) := rfl
theorem EncodingLength.jsRel8 (rel : Byte) :
    EncodingLength.Statement (.jsRel8 rel) := rfl
theorem EncodingLength.jnsRel8 (rel : Byte) :
    EncodingLength.Statement (.jnsRel8 rel) := rfl
theorem EncodingLength.jpRel8 (rel : Byte) :
    EncodingLength.Statement (.jpRel8 rel) := rfl
theorem EncodingLength.jnpRel8 (rel : Byte) :
    EncodingLength.Statement (.jnpRel8 rel) := rfl
theorem EncodingLength.jlRel8 (rel : Byte) :
    EncodingLength.Statement (.jlRel8 rel) := rfl
theorem EncodingLength.jgeRel8 (rel : Byte) :
    EncodingLength.Statement (.jgeRel8 rel) := rfl
theorem EncodingLength.jleRel8 (rel : Byte) :
    EncodingLength.Statement (.jleRel8 rel) := rfl
theorem EncodingLength.jgRel8 (rel : Byte) :
    EncodingLength.Statement (.jgRel8 rel) := rfl
theorem EncodingLength.addRm32Imm32 (rm : Rm32) (imm : Word) :
    EncodingLength.Statement (.addRm32Imm32 rm imm) :=
  length_opcode_rm [0x81] (wordBytes 4 imm) Reg32.num 0 rm
theorem EncodingLength.orRm32Imm32 (rm : Rm32) (imm : Word) :
    EncodingLength.Statement (.orRm32Imm32 rm imm) :=
  length_opcode_rm [0x81] (wordBytes 4 imm) Reg32.num 1 rm
theorem EncodingLength.adcRm32Imm32 (rm : Rm32) (imm : Word) :
    EncodingLength.Statement (.adcRm32Imm32 rm imm) :=
  length_opcode_rm [0x81] (wordBytes 4 imm) Reg32.num 2 rm
theorem EncodingLength.sbbRm32Imm32 (rm : Rm32) (imm : Word) :
    EncodingLength.Statement (.sbbRm32Imm32 rm imm) :=
  length_opcode_rm [0x81] (wordBytes 4 imm) Reg32.num 3 rm
theorem EncodingLength.andRm32Imm32 (rm : Rm32) (imm : Word) :
    EncodingLength.Statement (.andRm32Imm32 rm imm) :=
  length_opcode_rm [0x81] (wordBytes 4 imm) Reg32.num 4 rm
theorem EncodingLength.subRm32Imm32 (rm : Rm32) (imm : Word) :
    EncodingLength.Statement (.subRm32Imm32 rm imm) :=
  length_opcode_rm [0x81] (wordBytes 4 imm) Reg32.num 5 rm
theorem EncodingLength.xorRm32Imm32 (rm : Rm32) (imm : Word) :
    EncodingLength.Statement (.xorRm32Imm32 rm imm) :=
  length_opcode_rm [0x81] (wordBytes 4 imm) Reg32.num 6 rm
theorem EncodingLength.cmpRm32Imm32 (rm : Rm32) (imm : Word) :
    EncodingLength.Statement (.cmpRm32Imm32 rm imm) :=
  length_opcode_rm [0x81] (wordBytes 4 imm) Reg32.num 7 rm
theorem EncodingLength.addRm32Imm8 (rm : Rm32) (imm : Byte) :
    EncodingLength.Statement (.addRm32Imm8 rm imm) :=
  length_opcode_rm [0x83] [imm] Reg32.num 0 rm
theorem EncodingLength.orRm32Imm8 (rm : Rm32) (imm : Byte) :
    EncodingLength.Statement (.orRm32Imm8 rm imm) :=
  length_opcode_rm [0x83] [imm] Reg32.num 1 rm
theorem EncodingLength.adcRm32Imm8 (rm : Rm32) (imm : Byte) :
    EncodingLength.Statement (.adcRm32Imm8 rm imm) :=
  length_opcode_rm [0x83] [imm] Reg32.num 2 rm
theorem EncodingLength.sbbRm32Imm8 (rm : Rm32) (imm : Byte) :
    EncodingLength.Statement (.sbbRm32Imm8 rm imm) :=
  length_opcode_rm [0x83] [imm] Reg32.num 3 rm
theorem EncodingLength.andRm32Imm8 (rm : Rm32) (imm : Byte) :
    EncodingLength.Statement (.andRm32Imm8 rm imm) :=
  length_opcode_rm [0x83] [imm] Reg32.num 4 rm
theorem EncodingLength.subRm32Imm8 (rm : Rm32) (imm : Byte) :
    EncodingLength.Statement (.subRm32Imm8 rm imm) :=
  length_opcode_rm [0x83] [imm] Reg32.num 5 rm
theorem EncodingLength.xorRm32Imm8 (rm : Rm32) (imm : Byte) :
    EncodingLength.Statement (.xorRm32Imm8 rm imm) :=
  length_opcode_rm [0x83] [imm] Reg32.num 6 rm
theorem EncodingLength.cmpRm32Imm8 (rm : Rm32) (imm : Byte) :
    EncodingLength.Statement (.cmpRm32Imm8 rm imm) :=
  length_opcode_rm [0x83] [imm] Reg32.num 7 rm
theorem EncodingLength.shlRm32Imm8 (rm : Rm32) (count : Byte) :
    EncodingLength.Statement (.shlRm32Imm8 rm count) :=
  length_opcode_rm [0xC1] [count] Reg32.num 4 rm
theorem EncodingLength.shrRm32Imm8 (rm : Rm32) (count : Byte) :
    EncodingLength.Statement (.shrRm32Imm8 rm count) :=
  length_opcode_rm [0xC1] [count] Reg32.num 5 rm
theorem EncodingLength.shlRm32One (rm : Rm32) :
    EncodingLength.Statement (.shlRm32One rm) :=
  length_opcode_rm_only [0xD1] Reg32.num 4 rm
theorem EncodingLength.shrRm32One (rm : Rm32) :
    EncodingLength.Statement (.shrRm32One rm) :=
  length_opcode_rm_only [0xD1] Reg32.num 5 rm
theorem EncodingLength.testRm32Imm32 (rm : Rm32) (imm : Word) :
    EncodingLength.Statement (.testRm32Imm32 rm imm) :=
  length_opcode_rm [0xF7] (wordBytes 4 imm) Reg32.num 0 rm
theorem EncodingLength.testRm32Imm32Alt (rm : Rm32) (imm : Word) :
    EncodingLength.Statement (.testRm32Imm32Alt rm imm) :=
  length_opcode_rm [0xF7] (wordBytes 4 imm) Reg32.num 1 rm
theorem EncodingLength.notRm32 (rm : Rm32) :
    EncodingLength.Statement (.notRm32 rm) :=
  length_opcode_rm_only [0xF7] Reg32.num 2 rm
theorem EncodingLength.negRm32 (rm : Rm32) :
    EncodingLength.Statement (.negRm32 rm) :=
  length_opcode_rm_only [0xF7] Reg32.num 3 rm
theorem EncodingLength.mulRm32 (rm : Rm32) :
    EncodingLength.Statement (.mulRm32 rm) :=
  length_opcode_rm_only [0xF7] Reg32.num 4 rm
theorem EncodingLength.imulRm32 (rm : Rm32) :
    EncodingLength.Statement (.imulRm32 rm) :=
  length_opcode_rm_only [0xF7] Reg32.num 5 rm
theorem EncodingLength.divRm32 (rm : Rm32) :
    EncodingLength.Statement (.divRm32 rm) :=
  length_opcode_rm_only [0xF7] Reg32.num 6 rm
theorem EncodingLength.idivRm32 (rm : Rm32) :
    EncodingLength.Statement (.idivRm32 rm) :=
  length_opcode_rm_only [0xF7] Reg32.num 7 rm
theorem EncodingLength.nop :
    EncodingLength.Statement .nop := rfl
theorem EncodingLength.pushf :
    EncodingLength.Statement .pushf := rfl
theorem EncodingLength.popf :
    EncodingLength.Statement .popf := rfl
theorem EncodingLength.ret :
    EncodingLength.Statement .ret := rfl
theorem EncodingLength.hlt :
    EncodingLength.Statement .hlt := rfl
theorem EncodingLength.cli :
    EncodingLength.Statement .cli := rfl
theorem EncodingLength.sti :
    EncodingLength.Statement .sti := rfl
theorem EncodingLength.cld :
    EncodingLength.Statement .cld := rfl
theorem EncodingLength.std :
    EncodingLength.Statement .std := rfl
theorem EncodingLength.movAddr32Eax (addr : Word) :
    EncodingLength.Statement (.movAddr32Eax addr) := rfl
theorem EncodingLength.movR8Imm8 (r : Reg8) (imm : Byte) :
    EncodingLength.Statement (.movR8Imm8 r imm) := rfl
theorem EncodingLength.movR32Imm32 (r : Reg32) (imm : Word) :
    EncodingLength.Statement (.movR32Imm32 r imm) := rfl
theorem EncodingLength.intImm8 (vector : Byte) :
    EncodingLength.Statement (.intImm8 vector) := rfl
theorem EncodingLength.callTarget32 (target : Word) :
    EncodingLength.Statement (.callTarget32 target) := rfl
theorem EncodingLength.jmpTarget32 (target : Word) :
    EncodingLength.Statement (.jmpTarget32 target) := rfl
theorem EncodingLength.jmpRel8 (rel : Byte) :
    EncodingLength.Statement (.jmpRel8 rel) := rfl
theorem EncodingLength.rdtsc :
    EncodingLength.Statement .rdtsc := rfl
theorem EncodingLength.jlTarget32 (target : Word) :
    EncodingLength.Statement (.jlTarget32 target) := rfl
theorem EncodingLength.imul2R32Rm32 (r : Reg32) (rm : Rm32) :
    EncodingLength.Statement (.imul2R32Rm32 r rm) :=
  length_opcode_rm_only [0x0F, 0xAF] Reg32.num r.num rm
theorem EncodingLength.rdrandRm32 (rm : Rm32) :
    EncodingLength.Statement (.rdrandRm32 rm) :=
  length_opcode_rm_only [0x0F, 0xC7] Reg32.num 6 rm
theorem EncodingLength.rdseedRm32 (rm : Rm32) :
    EncodingLength.Statement (.rdseedRm32 rm) :=
  length_opcode_rm_only [0x0F, 0xC7] Reg32.num 7 rm

end Sys2Proof.Laws
end

