-- ==== Sys2Proof/Laws/Step.lean ====
section
/-! SUPPORT. Everything a step can do to the state, once: a relation kept by the few updates that
meanings are made of is kept by every instruction, every fetch and every step
(spec/40_execution.md R200 to R211). -/

namespace Sys2Proof.Machine

/-- A relation between the states before and after that every update a step is made of keeps. -/
structure Preserved (R : State → State → Prop) : Prop where
  refl : ∀ s, R s s
  trans : ∀ {s t u}, R s t → R t u → R s u
  regs : ∀ s g, R s { s with regs := g }
  flags : ∀ s f, f.intf = s.flags.intf → R s (s.setFlags f)
  control : ∀ s f, R s { s with flags := f, interruptEnabled := f.intf }
  eip : ∀ s v, R s (s.setEip v)
  halt : ∀ s, R s { s with halted := true }
  interrupts : ∀ s, R s { s with interrupts := s.interrupts + 1 }
  clock : ∀ s, R s (afterClockDraw s)
  rand : ∀ s, R s (afterRandDraw s)
  counts : ∀ s n k, R s { s with instructionCount := n, cycleCount := k }
  readOk : ∀ {s v w x t}, memRead v w s = .ok x t → R s t
  readFault : ∀ {s v w f}, memRead v w s = .fault f → R s f.left
  writeOk : ∀ {s v w x t}, memWrite v w x s = .ok () t → R s t
  writeFault : ∀ {s v w x f}, memWrite v w x s = .fault f → R s f.left

/-- The relation holds between a state and what an operation on it leaves. -/
def Res.Keeps {α : Type} (R : State → State → Prop) (s : State) : Res α → Prop
  | .ok _ t => R s t
  | .fault f => R s f.left

/-- The relation holds between a state and what an instruction or a step leaves. -/
def Keeps (R : State → State → Prop) (s : State) : Outcome → Prop
  | .next t => R s t
  | .fault f => R s f.left
  | .refused _ => True

namespace Preserved

variable {R : State → State → Prop} (h : Preserved R)
include h

theorem bind {α β : Type} {s : State} {r : Res α} {k : α → State → Res β} (hr : r.Keeps R s)
    (hk : ∀ x t, (k x t).Keeps R t) : (r.bind k).Keeps R s := by
  cases r with
  | fault f => exact hr
  | ok x t =>
    have := hk x t
    rw [Res.bind_ok]
    cases hkt : k x t with
    | ok y u => rw [hkt] at this; exact h.trans hr this
    | fault f => rw [hkt] at this; exact h.trans hr this

omit h in
theorem outcome {s : State} {r : Res Unit} (hr : r.Keeps R s) : Keeps R s r.outcome := by
  cases r <;> exact hr

theorem memRead (v : Word) (w : Width) (s : State) : (Machine.memRead v w s).Keeps R s := by
  cases hr : Machine.memRead v w s with
  | ok x t => exact h.readOk hr
  | fault f => exact h.readFault hr

theorem memWrite (v : Word) (w : Width) (x : Word) (s : State) :
    (Machine.memWrite v w x s).Keeps R s := by
  cases hr : Machine.memWrite v w x s with
  | ok x t => exact h.writeOk hr
  | fault f => exact h.writeFault hr

theorem readPlace (p : Place) (s : State) : (Machine.readPlace p s).Keeps R s := by
  cases p with
  | reg8 r => exact h.refl s
  | reg32 r => exact h.refl s
  | mem w m => exact h.memRead _ _ _

theorem readOperand (o : Operand) (s : State) : (Machine.readOperand o s).Keeps R s := by
  cases o with
  | place p => exact h.readPlace p s
  | imm8 v => exact h.refl s
  | imm32 v => exact h.refl s

theorem writePlace (p : Place) (v : Word) (s : State) : (Machine.writePlace p v s).Keeps R s := by
  cases p with
  | reg8 r => exact h.regs s _
  | reg32 r => exact h.regs s _
  | mem w m => exact h.memWrite _ _ _ _

theorem push (v : Word) (s : State) : (Machine.push v s).Keeps R s := by
  have hw := h.memWrite (s.reg .esp - 4) .dword v (s.setReg .esp (s.reg .esp - 4))
  have hr := h.regs s (s.regs.set .esp (s.reg .esp - 4))
  unfold Machine.push
  cases hm : Machine.memWrite (s.reg .esp - 4) .dword v (s.setReg .esp (s.reg .esp - 4)) with
  | ok x t => rw [hm] at hw; exact h.trans hr hw
  | fault f => rw [hm] at hw; exact h.trans hr hw

theorem pop (s : State) : (Machine.pop s).Keeps R s :=
  h.bind (h.memRead _ _ _) fun _ _ => h.regs _ _

theorem aluWrite (op : AluOp) (w : Width) (dst : Place) (src : Operand) (s : State) :
    (Machine.aluWrite op w dst src s).Keeps R s :=
  h.bind (h.readPlace _ _) fun _ _ => h.bind (h.readOperand _ _) fun _ _ =>
    h.bind (h.writePlace _ _ _) fun _ _ => h.flags _ _ (by cases op <;> rfl)

theorem aluTest (op : AluOp) (w : Width) (dst : Place) (src : Operand) (s : State) :
    (Machine.aluTest op w dst src s).Keeps R s :=
  h.bind (h.readPlace _ _) fun _ _ => h.bind (h.readOperand _ _) fun _ _ =>
    h.flags _ _ (by cases op <;> rfl)

theorem move (dst : Place) (src : Operand) (s : State) : (Machine.move dst src s).Keeps R s :=
  h.bind (h.readOperand _ _) fun _ _ => h.writePlace _ _ _

theorem unaryWrite (f : Word → Word) (g : Word → Flags → Flags) (dst : Place) (s : State)
    (hg : ∀ a x, (g a x).intf = x.intf) : (Machine.unaryWrite f g dst s).Keeps R s :=
  h.bind (h.readPlace _ _) fun _ _ => h.bind (h.writePlace _ _ _) fun _ _ => h.flags _ _ (hg _ _)

theorem shiftWrite (op : ShiftOp) (dst : Place) (count : Byte) (s : State) :
    (Machine.shiftWrite op dst count s).Keeps R s :=
  h.bind (h.readPlace _ _) fun _ _ => h.bind (h.writePlace _ _ _) fun _ _ => h.flags _ _ rfl

theorem jumpRel8If (cond : Cond) (rel : Byte) (s : State) :
    (Machine.jumpRel8If cond rel s).Keeps R s := by
  unfold Machine.jumpRel8If
  split
  · exact h.eip _ _
  · exact h.refl _

theorem drawInto (dst : Place) (s : State) : (Machine.drawInto dst s).Keeps R s := by
  have hw := h.writePlace dst (randDraw s) (afterRandDraw s)
  have hb : (Machine.drawInto dst s).Keeps R (afterRandDraw s) :=
    h.bind hw fun _ _ => h.flags _ _ rfl
  cases hd : Machine.drawInto dst s with
  | ok x t => rw [hd] at hb; exact h.trans (h.rand s) hb
  | fault f => rw [hd] at hb; exact h.trans (h.rand s) hb

/-- Every instruction keeps the relation, whether it completes or raises. -/
theorem exec (i : Instr) (s : State) : Keeps R s (Machine.exec i s) := by
  cases i with
  | adcRm32Imm32 rm imm =>
    simp only [Machine.exec, execAdcRm32Imm32]; split
    · trivial
    · exact outcome (h.aluWrite _ _ _ _ _)
  | sbbRm32Imm32 rm imm =>
    simp only [Machine.exec, execSbbRm32Imm32]; split
    · trivial
    · exact outcome (h.aluWrite _ _ _ _ _)
  | adcRm32Imm8 rm imm =>
    simp only [Machine.exec, execAdcRm32Imm8]; split
    · trivial
    · exact outcome (h.aluWrite _ _ _ _ _)
  | sbbRm32Imm8 rm imm =>
    simp only [Machine.exec, execSbbRm32Imm8]; split
    · trivial
    · exact outcome (h.aluWrite _ _ _ _ _)
  | nop => exact h.refl s
  | hlt => exact h.halt s
  | intImm8 v => exact h.interrupts s
  | cli => exact h.control s { s.flags with intf := false }
  | sti => exact h.control s { s.flags with intf := true }
  | cld => exact h.flags s _ rfl
  | std => exact h.flags s _ rfl
  | jmpRel8 rel => exact h.eip s _
  | jmpTarget32 target => exact h.eip s _
  | jlTarget32 target =>
    simp only [Machine.exec, execJlTarget32]; split
    · exact h.eip s _
    · exact h.refl s
  | callTarget32 target => exact outcome (h.bind (h.push _ _) fun _ _ => h.eip _ _)
  | ret => exact outcome (h.bind (h.pop _) fun _ _ => h.eip _ _)
  | pushR32 r => exact outcome (h.push _ _)
  | pushf => exact outcome (h.push _ _)
  | popR32 r => exact outcome (h.bind (h.pop _) fun _ _ => h.regs _ _)
  | popf => exact outcome (h.bind (h.pop _) fun _ _ => h.control _ _)
  | movAddr32Eax a => exact outcome (h.memWrite _ _ _ _)
  | xchgRm32R32 rm r =>
    exact outcome (h.bind (h.readPlace _ _) fun _ _ => h.bind (h.readPlace _ _) fun _ _ =>
      h.bind (h.writePlace _ _ _) fun _ _ => h.writePlace _ _ _)
  | rdtsc => exact h.trans (h.clock s) (h.trans (h.regs _ _) (h.regs _ _))
  | rdrandRm32 rm => exact outcome (h.drawInto _ _)
  | rdseedRm32 rm => exact outcome (h.drawInto _ _)
  | mulRm32 rm =>
    exact outcome (h.bind (h.readPlace _ _) fun _ _ =>
      h.trans (h.regs _ _) (h.trans (h.regs _ _) (h.flags _ _ rfl)))
  | imulRm32 rm =>
    exact outcome (h.bind (h.readPlace _ _) fun _ _ =>
      h.trans (h.regs _ _) (h.trans (h.regs _ _) (h.flags _ _ rfl)))
  | imul2R32Rm32 r rm =>
    exact outcome (h.bind (h.readPlace _ _) fun _ _ => h.bind (h.readPlace _ _) fun _ _ =>
      h.bind (h.writePlace _ _ _) fun _ _ => h.flags _ _ rfl)
  | divRm32 rm =>
    refine outcome (h.bind (h.readPlace _ _) fun x t => ?_)
    dsimp only
    split
    · exact h.refl _
    · exact h.trans (h.regs _ _) (h.regs _ _)
  | idivRm32 rm =>
    refine outcome (h.bind (h.readPlace _ _) fun x t => ?_)
    dsimp only
    split
    · exact h.refl _
    · split
      · exact h.trans (h.regs _ _) (h.regs _ _)
      · exact h.refl _
  | incR32 r =>
    simp only [Machine.exec, execIncR32]; exact outcome (h.unaryWrite _ _ _ _ fun _ _ => rfl)
  | decR32 r =>
    simp only [Machine.exec, execDecR32]; exact outcome (h.unaryWrite _ _ _ _ fun _ _ => rfl)
  | andEaxImm32 imm =>
    simp only [Machine.exec, execAndEaxImm32]; exact outcome (h.aluWrite _ _ _ _ _)
  | xorEaxImm32 imm =>
    simp only [Machine.exec, execXorEaxImm32]; exact outcome (h.aluWrite _ _ _ _ _)
  | cmpEaxImm32 imm =>
    simp only [Machine.exec, execCmpEaxImm32]; exact outcome (h.aluTest _ _ _ _ _)
  | movR8Imm8 r imm =>
    simp only [Machine.exec, execMovR8Imm8]; exact outcome (h.move _ _ _)
  | movR32Imm32 r imm =>
    simp only [Machine.exec, execMovR32Imm32]; exact outcome (h.move _ _ _)
  | notRm32 rm => exact outcome (h.unaryWrite _ _ _ _ fun _ _ => rfl)
  | negRm32 rm => exact outcome (h.unaryWrite _ _ _ _ fun _ _ => rfl)
  | _ =>
    first
      | exact outcome (h.aluWrite _ _ _ _ _)
      | exact outcome (h.aluTest _ _ _ _ _)
      | exact outcome (h.move _ _ _)
      | exact outcome (h.shiftWrite _ _ _ _)
      | exact outcome (h.jumpRel8If _ _ _)

/-- The reads of a decode keep the relation. -/
theorem onMmu (start : Word) (f : Fetch) (a : Word) (s : State) :
    (Fetch.onMmu start f a s).Keeps R s := by
  induction f generalizing a s with
  | done i => exact h.refl s
  | reject e => exact h.refl s
  | byte k ih => exact h.bind (h.memRead _ _ _) fun _ _ => ih _ _ _
  | dword k ih => exact h.bind (h.memRead _ _ _) fun _ _ => ih _ _ _

theorem fetch (s : State) : (Machine.fetch s).Keeps R s := h.onMmu _ _ _ _

theorem retire (i : Instr) (eip0 : Word) (s : State) : R s (Machine.retire i eip0 s) :=
  h.trans (h.counts s (s.instructionCount + 1) (s.cycleCount + cycleCost i.mnemonic))
    (h.eip _ (if s.eip = eip0 then eip0 + BitVec.ofNat 32 i.size else s.eip))

/-- Every step keeps the relation, whether it completes or raises. -/
theorem step (s : State) : Keeps R s (Machine.step s) := by
  unfold Machine.step
  split
  · exact h.refl s
  · have hf := h.fetch s
    cases hfe : Machine.fetch s with
    | fault f => rw [hfe] at hf; exact hf
    | ok i s1 =>
      rw [hfe] at hf
      have he := h.exec i s1
      dsimp only
      cases hex : Machine.exec i s1 with
      | next t => rw [hex] at he; exact h.trans hf (h.trans he (h.retire i s.eip t))
      | fault f => rw [hex] at he; exact h.trans hf he
      | refused r => trivial

end Preserved

/-- What an outcome kept, read off a next state. -/
theorem Keeps.next {R : State → State → Prop} {s t : State} {o : Outcome} (h : Keeps R s o)
    (ho : o = .next t) : R s t := by subst ho; exact h

/-- What an outcome kept, read off a fault. -/
theorem Keeps.fault {R : State → State → Prop} {s : State} {f : Fault} {o : Outcome} (h : Keeps R s o)
    (ho : o = .fault f) : R s f.left := by subst ho; exact h

end Sys2Proof.Machine
end

