-- ==== Sys2Proof/Tests/Slice0.lean ====
section
/-! SUPPORT. Tests: the well-formedness check, every constructor decoded from a word written out from
spec/30_encoding.md, single steps with the expected results of spec/95_test_vectors.md, and a witness for
the hypotheses of every obligation that has some. -/

namespace Sys2Proof.Tests

open Sys2Proof Sys2Proof.Machine

set_option maxRecDepth 4000

/-! ## Well-formedness: `[EBP]` without a displacement has no encoding (30_encoding R144) -/

abbrev illFormed8 : Rm8 := .mem (.ind .ebp)
abbrev illFormed32 : Rm32 := .mem (.ind .ebp)

theorem test_wf_refuses_ebp8 :
    ¬ (Instr.addRm8R8 illFormed8 .al).wf ∧ ¬ (Instr.addR8Rm8 .al illFormed8).wf ∧
    ¬ (Instr.orRm8R8 illFormed8 .al).wf ∧ ¬ (Instr.andRm8R8 illFormed8 .al).wf ∧
    ¬ (Instr.subRm8R8 illFormed8 .al).wf ∧ ¬ (Instr.xorRm8R8 illFormed8 .al).wf ∧
    ¬ (Instr.cmpRm8R8 illFormed8 .al).wf ∧ ¬ (Instr.movRm8R8 illFormed8 .al).wf := by decide
theorem test_wf_refuses_ebp32 :
    ¬ (Instr.addRm32R32 illFormed32 .eax).wf ∧ ¬ (Instr.addR32Rm32 .eax illFormed32).wf ∧
    ¬ (Instr.orRm32R32 illFormed32 .eax).wf ∧ ¬ (Instr.andRm32R32 illFormed32 .eax).wf ∧
    ¬ (Instr.subRm32R32 illFormed32 .eax).wf ∧ ¬ (Instr.xorRm32R32 illFormed32 .eax).wf ∧
    ¬ (Instr.cmpRm32R32 illFormed32 .eax).wf ∧ ¬ (Instr.movsxdR32Rm32 .eax illFormed32).wf ∧
    ¬ (Instr.testRm32R32 illFormed32 .eax).wf ∧ ¬ (Instr.xchgRm32R32 illFormed32 .eax).wf ∧
    ¬ (Instr.movRm32R32 illFormed32 .eax).wf ∧ ¬ (Instr.addRm32Imm32 illFormed32 0).wf ∧
    ¬ (Instr.orRm32Imm32 illFormed32 0).wf ∧ ¬ (Instr.adcRm32Imm32 illFormed32 0).wf ∧
    ¬ (Instr.sbbRm32Imm32 illFormed32 0).wf ∧ ¬ (Instr.andRm32Imm32 illFormed32 0).wf ∧
    ¬ (Instr.subRm32Imm32 illFormed32 0).wf ∧ ¬ (Instr.xorRm32Imm32 illFormed32 0).wf ∧
    ¬ (Instr.cmpRm32Imm32 illFormed32 0).wf ∧ ¬ (Instr.addRm32Imm8 illFormed32 0).wf ∧
    ¬ (Instr.orRm32Imm8 illFormed32 0).wf := by decide
theorem test_wf_refuses_ebp32_more :
    ¬ (Instr.adcRm32Imm8 illFormed32 0).wf ∧ ¬ (Instr.sbbRm32Imm8 illFormed32 0).wf ∧
    ¬ (Instr.andRm32Imm8 illFormed32 0).wf ∧ ¬ (Instr.subRm32Imm8 illFormed32 0).wf ∧
    ¬ (Instr.xorRm32Imm8 illFormed32 0).wf ∧ ¬ (Instr.cmpRm32Imm8 illFormed32 0).wf ∧
    ¬ (Instr.shlRm32Imm8 illFormed32 0).wf ∧ ¬ (Instr.shrRm32Imm8 illFormed32 0).wf ∧
    ¬ (Instr.shlRm32One illFormed32).wf ∧ ¬ (Instr.shrRm32One illFormed32).wf ∧
    ¬ (Instr.testRm32Imm32 illFormed32 0).wf ∧ ¬ (Instr.testRm32Imm32Alt illFormed32 0).wf ∧
    ¬ (Instr.notRm32 illFormed32).wf ∧ ¬ (Instr.negRm32 illFormed32).wf ∧
    ¬ (Instr.mulRm32 illFormed32).wf ∧ ¬ (Instr.imulRm32 illFormed32).wf ∧
    ¬ (Instr.divRm32 illFormed32).wf ∧ ¬ (Instr.idivRm32 illFormed32).wf ∧
    ¬ (Instr.imul2R32Rm32 .eax illFormed32).wf ∧ ¬ (Instr.rdrandRm32 illFormed32).wf ∧
    ¬ (Instr.rdseedRm32 illFormed32).wf := by decide

/-! ## Decoding: bytes written out from the rows of 30_encoding R150 to R153, fields apart by `_` -/

abbrev decodes (bs : List Byte) (i : Instr) : Prop := decode bs = .instr i []

theorem test_decode_data_transfer :
    decodes [0x63, 0b11_010_001] (.movsxdR32Rm32 .edx (.reg .ecx)) ∧
    decodes [0x87, 0b01_111_100, 0xF8] (.xchgRm32R32 (.mem (.disp8 .esp 0xF8)) .edi) ∧
    decodes [0x88, 0b00_100_101, 0x78, 0x56, 0x34, 0x12] (.movRm8R8 (.mem (.abs 0x12345678)) .ah) ∧
    decodes [0x89, 0b00_001_010] (.movRm32R32 (.mem (.ind .edx)) .ecx) ∧
    decodes [0b01010_110] (.pushR32 .esi) ∧
    decodes [0b01011_001] (.popR32 .ecx) ∧
    decodes [0x9C] .pushf ∧
    decodes [0x9D] .popf ∧
    decodes [0xA3, 0xF0, 0xDE, 0xBC, 0x9A] (.movAddr32Eax 0x9ABCDEF0) ∧
    decodes [0b10110_101, 0x9A] (.movR8Imm8 .ch 0x9A) ∧
    decodes [0b10111_000, 0xF0, 0xDE, 0xBC, 0x9A] (.movR32Imm32 .eax 0x9ABCDEF0) := by decide
theorem test_decode_add_or :
    decodes [0x00, 0b01_001_010, 0xF8] (.addRm8R8 (.mem (.disp8 .edx 0xF8)) .cl) ∧
    decodes [0x01, 0b00_110_101, 0x78, 0x56, 0x34, 0x12] (.addRm32R32 (.mem (.abs 0x12345678)) .esi) ∧
    decodes [0x02, 0b00_011_000] (.addR8Rm8 .bl (.mem (.ind .eax))) ∧
    decodes [0x03, 0b10_000_011, 0x00, 0x00, 0x00, 0x80] (.addR32Rm32 .eax (.mem (.disp32 .ebx 0x80000000))) ∧
    decodes [0x08, 0b11_101_110] (.orRm8R8 (.reg .dh) .ch) ∧
    decodes [0x09, 0b01_010_001, 0xF8] (.orRm32R32 (.mem (.disp8 .ecx 0xF8)) .edx) ∧
    decodes [0x81, 0b00_000_101, 0x78, 0x56, 0x34, 0x12, 0xF0, 0xDE, 0xBC, 0x9A] (.addRm32Imm32 (.mem (.abs 0x12345678)) 0x9ABCDEF0) ∧
    decodes [0x81, 0b00_001_111, 0xF0, 0xDE, 0xBC, 0x9A] (.orRm32Imm32 (.mem (.ind .edi)) 0x9ABCDEF0) ∧
    decodes [0x83, 0b10_000_010, 0x00, 0x00, 0x00, 0x80, 0x9A] (.addRm32Imm8 (.mem (.disp32 .edx 0x80000000)) 0x9A) ∧
    decodes [0x83, 0b11_001_101, 0x9A] (.orRm32Imm8 (.reg .ebp) 0x9A) := by decide
theorem test_decode_adc_sbb_and :
    decodes [0x20, 0b01_011_000, 0xF8] (.andRm8R8 (.mem (.disp8 .eax 0xF8)) .bl) ∧
    decodes [0x21, 0b00_000_101, 0x78, 0x56, 0x34, 0x12] (.andRm32R32 (.mem (.abs 0x12345678)) .eax) ∧
    decodes [0x25, 0xF0, 0xDE, 0xBC, 0x9A] (.andEaxImm32 0x9ABCDEF0) ∧
    decodes [0x81, 0b10_010_001, 0x00, 0x00, 0x00, 0x80, 0xF0, 0xDE, 0xBC, 0x9A] (.adcRm32Imm32 (.mem (.disp32 .ecx 0x80000000)) 0x9ABCDEF0) ∧
    decodes [0x81, 0b11_011_100, 0xF0, 0xDE, 0xBC, 0x9A] (.sbbRm32Imm32 (.reg .esp) 0x9ABCDEF0) ∧
    decodes [0x81, 0b01_100_111, 0xF8, 0xF0, 0xDE, 0xBC, 0x9A] (.andRm32Imm32 (.mem (.disp8 .edi 0xF8)) 0x9ABCDEF0) ∧
    decodes [0x83, 0b00_010_101, 0x78, 0x56, 0x34, 0x12, 0x9A] (.adcRm32Imm8 (.mem (.abs 0x12345678)) 0x9A) ∧
    decodes [0x83, 0b00_011_100, 0x9A] (.sbbRm32Imm8 (.mem (.ind .esp)) 0x9A) ∧
    decodes [0x83, 0b10_100_000, 0x00, 0x00, 0x00, 0x80, 0x9A] (.andRm32Imm8 (.mem (.disp32 .eax 0x80000000)) 0x9A) := by decide
theorem test_decode_sub_xor :
    decodes [0x28, 0b11_000_011] (.subRm8R8 (.reg .bl) .al) ∧
    decodes [0x29, 0b01_101_110, 0xF8] (.subRm32R32 (.mem (.disp8 .esi 0xF8)) .ebp) ∧
    decodes [0x30, 0b00_010_101, 0x78, 0x56, 0x34, 0x12] (.xorRm8R8 (.mem (.abs 0x12345678)) .dl) ∧
    decodes [0x31, 0b00_111_100] (.xorRm32R32 (.mem (.ind .esp)) .edi) ∧
    decodes [0x35, 0xF0, 0xDE, 0xBC, 0x9A] (.xorEaxImm32 0x9ABCDEF0) ∧
    decodes [0x81, 0b11_101_010, 0xF0, 0xDE, 0xBC, 0x9A] (.subRm32Imm32 (.reg .edx) 0x9ABCDEF0) ∧
    decodes [0x81, 0b01_110_101, 0xF8, 0xF0, 0xDE, 0xBC, 0x9A] (.xorRm32Imm32 (.mem (.disp8 .ebp 0xF8)) 0x9ABCDEF0) ∧
    decodes [0x83, 0b00_101_101, 0x78, 0x56, 0x34, 0x12, 0x9A] (.subRm32Imm8 (.mem (.abs 0x12345678)) 0x9A) ∧
    decodes [0x83, 0b00_110_011, 0x9A] (.xorRm32Imm8 (.mem (.ind .ebx)) 0x9A) := by decide
theorem test_decode_cmp_inc_dec_test :
    decodes [0x38, 0b10_101_110, 0x00, 0x00, 0x00, 0x80] (.cmpRm8R8 (.mem (.disp32 .esi 0x80000000)) .ch) ∧
    decodes [0x39, 0b11_010_001] (.cmpRm32R32 (.reg .ecx) .edx) ∧
    decodes [0x85, 0b01_111_100, 0xF8] (.testRm32R32 (.mem (.disp8 .esp 0xF8)) .edi) ∧
    decodes [0x3D, 0xF0, 0xDE, 0xBC, 0x9A] (.cmpEaxImm32 0x9ABCDEF0) ∧
    decodes [0b01000_011] (.incR32 .ebx) ∧
    decodes [0b01001_110] (.decR32 .esi) ∧
    decodes [0x81, 0b11_111_000, 0xF0, 0xDE, 0xBC, 0x9A] (.cmpRm32Imm32 (.reg .eax) 0x9ABCDEF0) ∧
    decodes [0x83, 0b01_111_011, 0xF8, 0x9A] (.cmpRm32Imm8 (.mem (.disp8 .ebx 0xF8)) 0x9A) ∧
    decodes [0xF7, 0b00_000_101, 0x78, 0x56, 0x34, 0x12, 0xF0, 0xDE, 0xBC, 0x9A] (.testRm32Imm32 (.mem (.abs 0x12345678)) 0x9ABCDEF0) ∧
    decodes [0xF7, 0b00_001_001, 0xF0, 0xDE, 0xBC, 0x9A] (.testRm32Imm32Alt (.mem (.ind .ecx)) 0x9ABCDEF0) := by decide
theorem test_decode_not_neg_shifts :
    decodes [0xC1, 0b10_100_100, 0x00, 0x00, 0x00, 0x80, 0x9A] (.shlRm32Imm8 (.mem (.disp32 .esp 0x80000000)) 0x9A) ∧
    decodes [0xC1, 0b11_101_111, 0x9A] (.shrRm32Imm8 (.reg .edi) 0x9A) ∧
    decodes [0xD1, 0b01_100_010, 0xF8] (.shlRm32One (.mem (.disp8 .edx 0xF8))) ∧
    decodes [0xD1, 0b00_101_101, 0x78, 0x56, 0x34, 0x12] (.shrRm32One (.mem (.abs 0x12345678))) ∧
    decodes [0xF7, 0b00_010_000] (.notRm32 (.mem (.ind .eax))) ∧
    decodes [0xF7, 0b10_011_011, 0x00, 0x00, 0x00, 0x80] (.negRm32 (.mem (.disp32 .ebx 0x80000000))) := by decide
theorem test_decode_mul_div :
    decodes [0xF7, 0b11_100_110] (.mulRm32 (.reg .esi)) ∧
    decodes [0xF7, 0b01_101_001, 0xF8] (.imulRm32 (.mem (.disp8 .ecx 0xF8))) ∧
    decodes [0xF7, 0b00_110_101, 0x78, 0x56, 0x34, 0x12] (.divRm32 (.mem (.abs 0x12345678))) ∧
    decodes [0xF7, 0b00_111_111] (.idivRm32 (.mem (.ind .edi))) ∧
    decodes [0x0F, 0xAF, 0b10_001_010, 0x00, 0x00, 0x00, 0x80] (.imul2R32Rm32 .ecx (.mem (.disp32 .edx 0x80000000))) := by decide
theorem test_decode_short_jumps :
    decodes [0x70, 0x9A] (.joRel8 0x9A) ∧
    decodes [0x71, 0x9A] (.jnoRel8 0x9A) ∧
    decodes [0x72, 0x9A] (.jcRel8 0x9A) ∧
    decodes [0x73, 0x9A] (.jncRel8 0x9A) ∧
    decodes [0x74, 0x9A] (.jzRel8 0x9A) ∧
    decodes [0x75, 0x9A] (.jnzRel8 0x9A) ∧
    decodes [0x76, 0x9A] (.jbeRel8 0x9A) ∧
    decodes [0x77, 0x9A] (.jaRel8 0x9A) ∧
    decodes [0x78, 0x9A] (.jsRel8 0x9A) ∧
    decodes [0x79, 0x9A] (.jnsRel8 0x9A) ∧
    decodes [0x7A, 0x9A] (.jpRel8 0x9A) ∧
    decodes [0x7B, 0x9A] (.jnpRel8 0x9A) ∧
    decodes [0x7C, 0x9A] (.jlRel8 0x9A) ∧
    decodes [0x7D, 0x9A] (.jgeRel8 0x9A) ∧
    decodes [0x7E, 0x9A] (.jleRel8 0x9A) ∧
    decodes [0x7F, 0x9A] (.jgRel8 0x9A) ∧
    decodes [0x0F, 0x8C, 0xF0, 0xDE, 0xBC, 0x9A] (.jlTarget32 0x9ABCDEF0) := by decide
theorem test_decode_jumps_calls :
    decodes [0xC3] .ret ∧
    decodes [0xE8, 0xF0, 0xDE, 0xBC, 0x9A] (.callTarget32 0x9ABCDEF0) ∧
    decodes [0xE9, 0xF0, 0xDE, 0xBC, 0x9A] (.jmpTarget32 0x9ABCDEF0) ∧
    decodes [0xEB, 0x9A] (.jmpRel8 0x9A) := by decide
theorem test_decode_system :
    decodes [0x90] .nop ∧
    decodes [0xF4] .hlt ∧
    decodes [0xFA] .cli ∧
    decodes [0xFB] .sti ∧
    decodes [0xFC] .cld ∧
    decodes [0xFD] .std ∧
    decodes [0xCD, 0x9A] (.intImm8 0x9A) ∧
    decodes [0x0F, 0x31] .rdtsc ∧
    decodes [0x0F, 0xC7, 0b10_110_100, 0x00, 0x00, 0x00, 0x80] (.rdrandRm32 (.mem (.disp32 .esp 0x80000000))) ∧
    decodes [0x0F, 0xC7, 0b11_111_111] (.rdseedRm32 (.reg .edi)) := by decide

/-! ## One step, with the results of 95_test_vectors sections 2 to 7 -/

/-- The instruction's bytes at an address that EIP holds, everything else at reset. -/
def machineAt (a : Word) (p : Params) (code : List Byte) : State :=
  let s := State.create p []
  { s with eip := a, mmu := s.mmu.place p a code }

def machine : Params → List Byte → State := machineAt 0x1000

def regs (rs : List (Reg32 × Word)) (s : State) : State := rs.foldl (fun s r => s.setReg r.1 r.2) s
def flags (f : Flags) (s : State) : State := s.setFlags f
def bytes (a : Word) (bs : List Byte) (s : State) : State := s.setMmu (s.mmu.place s.params a bs)

/-- CF, PF, AF, ZF, SF, OF as digits. -/
def status (s : State) (f : List Nat) : Bool :=
  [s.flags.cf, s.flags.pf, s.flags.af, s.flags.zf, s.flags.sf, s.flags.of].map Bool.toNat == f

def loaded (s : State) (a : Word) (w : Width) : Word :=
  match hostRead a w s with
  | .ok v _ => v
  | .fault _ => 0

def completes (o : Outcome) (q : State → Bool) : Bool :=
  match o with
  | .next t => q t
  | .fault _ => false
  | .refused _ => false

def raises (o : Outcome) (q : Fault → Bool) : Bool :=
  match o with
  | .next _ => false
  | .fault f => q f
  | .refused _ => false

def steps (s : State) (q : State → Bool) : Bool := completes (step s) q

def divideByZeroAt (s : State) (q : State → Bool) : Bool :=
  raises (step s) fun f => match f with
    | .divideByZero a t => a == s.eip && q t
    | _ => false

def refuses (s : State) : Bool :=
  match step s with
  | .refused _ => true
  | _ => false

-- T42-3: ADD AL,BL (U32 flags)
theorem test_addRm8R8 :
    steps (machine initialParams [0x00, 0xD8] |> regs [(.eax, 0xFF), (.ebx, 0x1)]) fun t =>
      t.reg .eax == 0x00000000 && t.eip == 0x1002 && status t [0, 1, 1, 0, 0, 0] := by decide
-- T42-4: ADD AL,BL (WIDTH8)
theorem test_addRm8R8_2 :
    steps (machine { initialParams with flags8 := .width8 } [0x00, 0xD8]
        |> regs [(.eax, 0xFF), (.ebx, 0x1)]) fun t =>
      t.reg .eax == 0x00000000 && t.eip == 0x1002 && status t [1, 1, 1, 1, 0, 0] := by decide
-- T42-1: ADD EAX,EBX
theorem test_addRm32R32 :
    steps (machine initialParams [0x01, 0xD8] |> regs [(.eax, 0x7FFFFFFF), (.ebx, 0x1)]) fun t =>
      t.reg .eax == 0x80000000 && t.eip == 0x1002 && status t [0, 1, 1, 0, 1, 1] := by decide
-- T42-51: ADD [EBX],EAX mem dest
theorem test_addRm32R32_2 :
    steps (machine initialParams [0x01, 0x03]
        |> regs [(.eax, 0x1), (.ebx, 0x2000)] |> bytes 0x2000 [0xFF, 0xFF, 0xFF, 0xFF]) fun t =>
      t.eip == 0x1002 && status t [1, 1, 1, 1, 0, 0] && loaded t 0x2000 .dword == 0x00000000 := by decide
-- T42-6: ADD BL,AL (02)
theorem test_addR8Rm8 :
    steps (machine initialParams [0x02, 0xD8] |> regs [(.eax, 0x80), (.ebx, 0x80)]) fun t =>
      t.reg .ebx == 0x00000000 && t.eip == 0x1002 && status t [0, 1, 0, 0, 0, 0] := by decide
-- T42-52: ADD EAX,[EBX+disp8]
theorem test_addR32Rm32 :
    steps (machine initialParams [0x03, 0x43, 0x04]
        |> regs [(.eax, 0x1), (.ebx, 0x2000)] |> bytes 0x2004 [0x41]) fun t =>
      t.reg .eax == 0x00000042 && t.eip == 0x1003 && status t [0, 1, 0, 0, 0, 0] := by decide
-- T42-10: OR r/m8 (08)
theorem test_orRm8R8 :
    steps (machine initialParams [0x08, 0xD8] |> regs [(.eax, 0xF), (.ebx, 0xF0)]) fun t =>
      t.reg .eax == 0x000000FF && t.eip == 0x1002 && status t [0, 1, 0, 0, 0, 0] := by decide
-- T42-9: OR EAX,EAX
theorem test_orRm32R32 :
    steps (machine initialParams [0x09, 0xC0]
        |> regs [(.eax, 0x80000000)] |> flags { Flags.clear with cf := true, of := true, af := true }) fun t =>
      t.eip == 0x1002 && status t [0, 1, 0, 0, 1, 0] := by decide
-- by hand from R274
theorem test_andRm8R8 :
    steps (machine initialParams [0x20, 0xC8] |> regs [(.eax, 0xFF3C), (.ecx, 0xF0F)]) fun t =>
      t.reg .eax == 0x0000FF0C && t.eip == 0x1002 && status t [0, 1, 0, 0, 0, 0] := by decide
-- T42-12: AND r/m32 (21)
theorem test_andRm32R32 :
    steps (machine initialParams [0x21, 0xD8] |> regs [(.eax, 0xF0F0), (.ebx, 0xF0F)]) fun t =>
      t.reg .eax == 0x00000000 && t.eip == 0x1002 && status t [0, 1, 0, 1, 0, 0] := by decide
-- T42-16: SUB r/m8 (28)
theorem test_subRm8R8 :
    steps (machine initialParams [0x28, 0xD8] |> regs [(.eax, 0x0), (.ebx, 0x1)]) fun t =>
      t.reg .eax == 0x000000FF && t.eip == 0x1002 && status t [1, 1, 1, 0, 1, 0] := by decide
-- T42-15: SUB signed overflow
theorem test_subRm32R32 :
    steps (machine initialParams [0x29, 0xD8] |> regs [(.eax, 0x80000000), (.ebx, 0x1)]) fun t =>
      t.reg .eax == 0x7FFFFFFF && t.eip == 0x1002 && status t [0, 1, 1, 0, 0, 1] := by decide
-- T42-20: XOR r/m8 (30)
theorem test_xorRm8R8 :
    steps (machine initialParams [0x30, 0xC0] |> regs [(.eax, 0x1234)]) fun t =>
      t.reg .eax == 0x00001200 && t.eip == 0x1002 && status t [0, 1, 0, 1, 0, 0] := by decide
-- T42-18: XOR EAX,EAX (31)
theorem test_xorRm32R32 :
    steps (machine initialParams [0x31, 0xC0]
        |> regs [(.eax, 0x1234)] |> flags { Flags.clear with cf := true, of := true }) fun t =>
      t.reg .eax == 0x00000000 && t.eip == 0x1002 && status t [0, 1, 0, 1, 0, 0] := by decide
-- T42-24: CMP r/m8 (38)
theorem test_cmpRm8R8 :
    steps (machine initialParams [0x38, 0xD8] |> regs [(.eax, 0x1), (.ebx, 0x2)]) fun t =>
      t.eip == 0x1002 && status t [1, 1, 1, 0, 1, 0] := by decide
-- T42-22: CMP EAX,EBX below
theorem test_cmpRm32R32 :
    steps (machine initialParams [0x39, 0xD8] |> regs [(.eax, 0x3), (.ebx, 0x5)]) fun t =>
      t.eip == 0x1002 && status t [1, 0, 1, 0, 1, 0] := by decide
-- T41-11: MOVSXD r32,r/m32 (copy)
theorem test_movsxdR32Rm32 :
    steps (machine initialParams [0x63, 0xC1] |> regs [(.ecx, 0x80000001)]) fun t =>
      t.reg .eax == 0x80000001 && t.eip == 0x1002 := by decide
-- T42-30: TEST r/m32 (85)
theorem test_testRm32R32 :
    steps (machine initialParams [0x85, 0xC0] |> regs [(.eax, 0x0)]) fun t =>
      t.eip == 0x1002 && status t [0, 1, 0, 1, 0, 0] := by decide
-- T41-12: XCHG EAX,EBX
theorem test_xchgRm32R32 :
    steps (machine initialParams [0x87, 0xD8] |> regs [(.eax, 0x1), (.ebx, 0x2)]) fun t =>
      t.reg .eax == 0x00000002 && t.reg .ebx == 0x00000001 && t.eip == 0x1002 := by decide
-- T41-2: MOV AL,AH (88 /r, width 1)
theorem test_movRm8R8 :
    steps (machine initialParams [0x88, 0xE0] |> regs [(.eax, 0xAABBCCDD)]) fun t =>
      t.reg .eax == 0xAABBCCCC && t.eip == 0x1002 := by decide
-- T41-7: MOV [EBX+disp8 FF] SEXT
theorem test_movRm32R32 :
    steps (machine initialParams [0x89, 0x4B, 0xFF] |> regs [(.ebx, 0x2001), (.ecx, 0x1020304)]) fun t =>
      t.eip == 0x1003 && loaded t 0x2000 .dword == 0x01020304 := by decide
-- T41-8: MOV [EBX+disp8 FF] ZEXT
theorem test_movRm32R32_2 :
    steps (machine { initialParams with disp8Ea := .zext } [0x89, 0x4B, 0xFF]
        |> regs [(.ebx, 0x2001), (.ecx, 0x1020304)]) fun t =>
      t.eip == 0x1003 && loaded t 0x2100 .dword == 0x01020304 := by decide
-- T42-11: AND EAX,imm32 (25)
theorem test_andEaxImm32 :
    steps (machine initialParams [0x25, 0x0F, 0x00, 0x00, 0x00] |> regs [(.eax, 0x12345678)]) fun t =>
      t.reg .eax == 0x00000008 && t.eip == 0x1005 := by decide
-- T42-19: XOR EAX,imm32 (35)
theorem test_xorEaxImm32 :
    steps (machine initialParams [0x35, 0xFF, 0xFF, 0xFF, 0xFF] |> regs [(.eax, 0xF0F0F0F)]) fun t =>
      t.reg .eax == 0xF0F0F0F0 && t.eip == 0x1005 && status t [0, 1, 0, 0, 1, 0] := by decide
-- T42-23: CMP EAX,imm32 (3D)
theorem test_cmpEaxImm32 :
    steps (machine initialParams [0x3D, 0x00, 0x00, 0x00, 0x80] |> regs [(.eax, 0x7FFFFFFF)]) fun t =>
      t.eip == 0x1005 && status t [1, 1, 0, 0, 1, 1] := by decide
-- T42-26: INC EAX
theorem test_incR32 :
    steps (machine initialParams [0x40] |> regs [(.eax, 0xFFFFFFFF)]) fun t =>
      t.reg .eax == 0x00000000 && t.eip == 0x1001 && status t [1, 1, 1, 1, 0, 0] := by decide
-- T42-28: DEC EDX
theorem test_decR32 :
    steps (machine initialParams [0x4A] |> regs [(.edx, 0x0)]) fun t =>
      t.reg .edx == 0xFFFFFFFF && t.eip == 0x1001 && status t [1, 1, 1, 0, 1, 0] := by decide
-- T41-15: PUSH ESP
theorem test_pushR32 :
    steps (machine initialParams [0x54] |> regs [(.esp, 0x8000)]) fun t =>
      t.reg .esp == 0x00007FFC && t.eip == 0x1001 && loaded t 0x7FFC .dword == 0x00008000 := by decide
-- T41-16: POP EBX
theorem test_popR32 :
    steps (machine initialParams [0x5B]
        |> regs [(.esp, 0x7FFC)] |> bytes 0x7FFC [0xEF, 0xBE, 0xAD, 0xDE]) fun t =>
      t.reg .ebx == 0xDEADBEEF && t.reg .esp == 0x00008000 && t.eip == 0x1001 := by decide
-- T41-17: POP ESP
theorem test_popR32_2 :
    steps (machine initialParams [0x5C]
        |> regs [(.esp, 0x7FFC)] |> bytes 0x7FFC [0x00, 0x50, 0x00, 0x00]) fun t =>
      t.reg .esp == 0x00005000 && t.eip == 0x1001 := by decide
-- T44-1: JO taken
theorem test_joRel8 :
    steps (machine initialParams [0x70, 0x10] |> flags { Flags.clear with of := true }) fun t =>
      t.eip == 0x1010 && status t [0, 0, 0, 0, 0, 1] := by decide
-- T44-2: JO not taken
theorem test_joRel8_2 : steps (machine initialParams [0x70, 0x10]) fun t => t.eip == 0x1002 := by decide
-- T44-3: JNO taken
theorem test_jnoRel8 : steps (machine initialParams [0x71, 0x10]) fun t => t.eip == 0x1010 := by decide
-- T44-4: JNO not taken
theorem test_jnoRel8_2 :
    steps (machine initialParams [0x71, 0x10] |> flags { Flags.clear with of := true }) fun t =>
      t.eip == 0x1002 && status t [0, 0, 0, 0, 0, 1] := by decide
-- T44-5: JC taken
theorem test_jcRel8 :
    steps (machine initialParams [0x72, 0x10] |> flags { Flags.clear with cf := true }) fun t =>
      t.eip == 0x1010 && status t [1, 0, 0, 0, 0, 0] := by decide
-- T44-6: JC not taken
theorem test_jcRel8_2 : steps (machine initialParams [0x72, 0x10]) fun t => t.eip == 0x1002 := by decide
-- T44-7: JNC taken
theorem test_jncRel8 : steps (machine initialParams [0x73, 0x10]) fun t => t.eip == 0x1010 := by decide
-- T44-8: JNC not taken
theorem test_jncRel8_2 :
    steps (machine initialParams [0x73, 0x10] |> flags { Flags.clear with cf := true }) fun t =>
      t.eip == 0x1002 && status t [1, 0, 0, 0, 0, 0] := by decide
-- T44-35: JZ backward F0
theorem test_jzRel8 :
    steps (machine initialParams [0x74, 0xF0] |> flags { Flags.clear with zf := true }) fun t =>
      t.eip == 0xFF0 && status t [0, 0, 0, 1, 0, 0] := by decide
-- T44-10: JZ not taken
theorem test_jzRel8_2 : steps (machine initialParams [0x74, 0x10]) fun t => t.eip == 0x1002 := by decide
-- T44-11: JNZ taken
theorem test_jnzRel8 : steps (machine initialParams [0x75, 0x10]) fun t => t.eip == 0x1010 := by decide
-- T44-12: JNZ not taken
theorem test_jnzRel8_2 :
    steps (machine initialParams [0x75, 0x10] |> flags { Flags.clear with zf := true }) fun t =>
      t.eip == 0x1002 && status t [0, 0, 0, 1, 0, 0] := by decide
-- T44-33: JBE CF only
theorem test_jbeRel8 :
    steps (machine initialParams [0x76, 0x10] |> flags { Flags.clear with cf := true }) fun t =>
      t.eip == 0x1010 && status t [1, 0, 0, 0, 0, 0] := by decide
-- T44-14: JBE not taken
theorem test_jbeRel8_2 : steps (machine initialParams [0x76, 0x10]) fun t => t.eip == 0x1002 := by decide
-- T44-15: JA taken
theorem test_jaRel8 : steps (machine initialParams [0x77, 0x10]) fun t => t.eip == 0x1010 := by decide
-- T44-16: JA not taken
theorem test_jaRel8_2 :
    steps (machine initialParams [0x77, 0x10] |> flags { Flags.clear with cf := true }) fun t =>
      t.eip == 0x1002 && status t [1, 0, 0, 0, 0, 0] := by decide
-- T44-17: JS taken
theorem test_jsRel8 :
    steps (machine initialParams [0x78, 0x10] |> flags { Flags.clear with sf := true }) fun t =>
      t.eip == 0x1010 && status t [0, 0, 0, 0, 1, 0] := by decide
-- T44-18: JS not taken
theorem test_jsRel8_2 : steps (machine initialParams [0x78, 0x10]) fun t => t.eip == 0x1002 := by decide
-- T44-19: JNS taken
theorem test_jnsRel8 : steps (machine initialParams [0x79, 0x10]) fun t => t.eip == 0x1010 := by decide
-- T44-20: JNS not taken
theorem test_jnsRel8_2 :
    steps (machine initialParams [0x79, 0x10] |> flags { Flags.clear with sf := true }) fun t =>
      t.eip == 0x1002 && status t [0, 0, 0, 0, 1, 0] := by decide
-- T44-21: JP taken
theorem test_jpRel8 :
    steps (machine initialParams [0x7A, 0x10] |> flags { Flags.clear with pf := true }) fun t =>
      t.eip == 0x1010 && status t [0, 1, 0, 0, 0, 0] := by decide
-- T44-22: JP not taken
theorem test_jpRel8_2 : steps (machine initialParams [0x7A, 0x10]) fun t => t.eip == 0x1002 := by decide
-- T44-23: JNP taken
theorem test_jnpRel8 : steps (machine initialParams [0x7B, 0x10]) fun t => t.eip == 0x1010 := by decide
-- T44-24: JNP not taken
theorem test_jnpRel8_2 :
    steps (machine initialParams [0x7B, 0x10] |> flags { Flags.clear with pf := true }) fun t =>
      t.eip == 0x1002 && status t [0, 1, 0, 0, 0, 0] := by decide
-- T44-25: JL taken
theorem test_jlRel8 :
    steps (machine initialParams [0x7C, 0x10] |> flags { Flags.clear with sf := true }) fun t =>
      t.eip == 0x1010 && status t [0, 0, 0, 0, 1, 0] := by decide
-- T44-26: JL not taken
theorem test_jlRel8_2 :
    steps (machine initialParams [0x7C, 0x10] |> flags { Flags.clear with sf := true, of := true }) fun t =>
      t.eip == 0x1002 && status t [0, 0, 0, 0, 1, 1] := by decide
-- T44-27: JGE taken
theorem test_jgeRel8 :
    steps (machine initialParams [0x7D, 0x10] |> flags { Flags.clear with sf := true, of := true }) fun t =>
      t.eip == 0x1010 && status t [0, 0, 0, 0, 1, 1] := by decide
-- T44-28: JGE not taken
theorem test_jgeRel8_2 :
    steps (machine initialParams [0x7D, 0x10] |> flags { Flags.clear with of := true }) fun t =>
      t.eip == 0x1002 && status t [0, 0, 0, 0, 0, 1] := by decide
-- T44-34: JLE SF!=OF
theorem test_jleRel8 :
    steps (machine initialParams [0x7E, 0x10] |> flags { Flags.clear with sf := true }) fun t =>
      t.eip == 0x1010 && status t [0, 0, 0, 0, 1, 0] := by decide
-- T44-30: JLE not taken
theorem test_jleRel8_2 : steps (machine initialParams [0x7E, 0x10]) fun t => t.eip == 0x1002 := by decide
-- T44-31: JG taken
theorem test_jgRel8 :
    steps (machine initialParams [0x7F, 0x10] |> flags { Flags.clear with sf := true, of := true }) fun t =>
      t.eip == 0x1010 && status t [0, 0, 0, 0, 1, 1] := by decide
-- T44-32: JG not taken
theorem test_jgRel8_2 :
    steps (machine initialParams [0x7F, 0x10] |> flags { Flags.clear with zf := true }) fun t =>
      t.eip == 0x1002 && status t [0, 0, 0, 1, 0, 0] := by decide
-- T42-7: ADD EAX,imm32 (81 /0)
theorem test_addRm32Imm32 :
    steps (machine initialParams [0x81, 0xC0, 0x01, 0x00, 0x00, 0x80] |> regs [(.eax, 0x80000000)]) fun t =>
      t.reg .eax == 0x00000001 && t.eip == 0x1006 && status t [1, 0, 0, 0, 0, 1] := by decide
-- by hand from R271
theorem test_orRm32Imm32 :
    steps (machine initialParams [0x81, 0xC8, 0x00, 0x00, 0x00, 0x80] |> regs [(.eax, 0x1)]) fun t =>
      t.reg .eax == 0x80000001 && t.eip == 0x1006 && status t [0, 0, 0, 0, 1, 0] := by decide
-- by hand from R272
theorem test_adcRm32Imm32 :
    steps (machine initialParams [0x81, 0xD0, 0xFF, 0xFF, 0xFF, 0xFF]
        |> regs [(.eax, 0x0)] |> flags { Flags.clear with cf := true }) fun t =>
      t.reg .eax == 0x00000000 && t.eip == 0x1006 && status t [1, 1, 1, 1, 0, 0] := by decide
-- by hand from R273
theorem test_sbbRm32Imm32 :
    steps (machine initialParams [0x81, 0xD8, 0x01, 0x00, 0x00, 0x00]
        |> regs [(.eax, 0x80000000)] |> flags { Flags.clear with cf := true }) fun t =>
      t.reg .eax == 0x7FFFFFFE && t.eip == 0x1006 && status t [0, 0, 1, 0, 0, 1] := by decide
-- T42-13: AND (81 /4)
theorem test_andRm32Imm32 :
    steps (machine initialParams [0x81, 0xE0, 0xFF, 0x00, 0x00, 0x00] |> regs [(.eax, 0x1234)]) fun t =>
      t.reg .eax == 0x00000034 && t.eip == 0x1006 := by decide
-- by hand from R275
theorem test_subRm32Imm32 :
    steps (machine initialParams [0x81, 0xE8, 0x02, 0x00, 0x00, 0x00] |> regs [(.eax, 0x1)]) fun t =>
      t.reg .eax == 0xFFFFFFFF && t.eip == 0x1006 && status t [1, 1, 1, 0, 1, 0] := by decide
-- by hand from R276
theorem test_xorRm32Imm32 :
    steps (machine initialParams [0x81, 0xF0, 0xFF, 0xFF, 0xFF, 0xFF] |> regs [(.eax, 0xF0F0F0F)]) fun t =>
      t.reg .eax == 0xF0F0F0F0 && t.eip == 0x1006 && status t [0, 1, 0, 0, 1, 0] := by decide
-- by hand from R277
theorem test_cmpRm32Imm32 :
    steps (machine initialParams [0x81, 0xF8, 0x05, 0x00, 0x00, 0x00] |> regs [(.eax, 0x5)]) fun t =>
      t.eip == 0x1006 && status t [0, 1, 0, 1, 0, 0] := by decide
-- T42-8: ADD EAX,imm8 FF (83 /0)
theorem test_addRm32Imm8 :
    steps (machine initialParams [0x83, 0xC0, 0xFF] |> regs [(.eax, 0x1)]) fun t =>
      t.reg .eax == 0x00000100 && t.eip == 0x1003 && status t [0, 1, 1, 0, 0, 0] := by decide
-- T30-7: 0x83 /1 OR imm8
theorem test_orRm32Imm8 :
    steps (machine initialParams [0x83, 0xC8, 0x80] |> regs [(.eax, 0x0)]) fun t =>
      t.reg .eax == 0x00000080 && t.eip == 0x1003 := by decide
-- T42-48: ADC refused
theorem test_adcRm32Imm8 :
    refuses (machine { initialParams with adcSbb := .refuse } [0x83, 0xD0, 0x01]
      |> regs [(.eax, 0x1)] |> flags { Flags.clear with cf := true }) := by decide
-- T42-49: ADC IA32
theorem test_adcRm32Imm8_2 :
    steps (machine initialParams [0x83, 0xD0, 0x01]
        |> regs [(.eax, 0x1)] |> flags { Flags.clear with cf := true }) fun t =>
      t.reg .eax == 0x00000003 && t.eip == 0x1003 && status t [0, 1, 0, 0, 0, 0] := by decide
-- T42-50: SBB IA32
theorem test_sbbRm32Imm8 :
    steps (machine initialParams [0x83, 0xD8, 0x00]
        |> regs [(.eax, 0x0)] |> flags { Flags.clear with cf := true }) fun t =>
      t.reg .eax == 0xFFFFFFFF && t.eip == 0x1003 && status t [1, 1, 1, 0, 1, 0] := by decide
-- by hand from R274
theorem test_andRm32Imm8 :
    steps (machine initialParams [0x83, 0xE0, 0xFF] |> regs [(.eax, 0x12345678)]) fun t =>
      t.reg .eax == 0x00000078 && t.eip == 0x1003 && status t [0, 1, 0, 0, 0, 0] := by decide
-- T42-17: SUB (83 /5)
theorem test_subRm32Imm8 :
    steps (machine initialParams [0x83, 0xE8, 0x10] |> regs [(.eax, 0x10)]) fun t =>
      t.reg .eax == 0x00000000 && t.eip == 0x1003 && status t [0, 1, 0, 1, 0, 0] := by decide
-- by hand from R276
theorem test_xorRm32Imm8 :
    steps (machine initialParams [0x83, 0xF0, 0xFF] |> regs [(.eax, 0x100)]) fun t =>
      t.reg .eax == 0x000001FF && t.eip == 0x1003 && status t [0, 1, 0, 0, 0, 0] := by decide
-- T42-25: CMP (83 /7)
theorem test_cmpRm32Imm8 :
    steps (machine initialParams [0x83, 0xF8, 0x05] |> regs [(.eax, 0x5)]) fun t =>
      t.eip == 0x1003 && status t [0, 1, 0, 1, 0, 0] := by decide
-- T42-40: SHL imm8 4 (C1 /4)
theorem test_shlRm32Imm8 :
    steps (machine initialParams [0xC1, 0xE0, 0x04]
        |> regs [(.eax, 0x12345678)] |> flags { Flags.clear with of := true }) fun t =>
      t.reg .eax == 0x23456780 && t.eip == 0x1003 && status t [1, 0, 0, 0, 0, 1] := by decide
-- T42-44: SHL count 32
theorem test_shlRm32Imm8_2 :
    steps (machine initialParams [0xC1, 0xE0, 0x20] |> regs [(.eax, 0x1)]) fun t =>
      t.reg .eax == 0x00000000 && t.eip == 0x1003 && status t [1, 1, 0, 1, 0, 0] := by decide
-- T42-41: SHR imm8 4 (C1 /5)
theorem test_shrRm32Imm8 :
    steps (machine initialParams [0xC1, 0xE8, 0x04] |> regs [(.eax, 0x12345678)]) fun t =>
      t.reg .eax == 0x01234567 && t.eip == 0x1003 && status t [1, 0, 0, 0, 0, 0] := by decide
-- T42-47: SHR count 0xFF
theorem test_shrRm32Imm8_2 :
    steps (machine initialParams [0xC1, 0xE8, 0xFF]
        |> regs [(.eax, 0xFFFFFFFF)] |> flags { Flags.clear with cf := true }) fun t =>
      t.reg .eax == 0x00000000 && t.eip == 0x1003 && status t [0, 1, 0, 1, 0, 0] := by decide
-- T42-37: SHL by 1 (D1 /4)
theorem test_shlRm32One :
    steps (machine initialParams [0xD1, 0xE0] |> regs [(.eax, 0xC0000000)]) fun t =>
      t.reg .eax == 0x80000000 && t.eip == 0x1002 && status t [1, 1, 0, 0, 1, 0] := by decide
-- T42-39: SHR by 1 (D1 /5)
theorem test_shrRm32One :
    steps (machine initialParams [0xD1, 0xE8] |> regs [(.eax, 0x80000001)]) fun t =>
      t.reg .eax == 0x40000000 && t.eip == 0x1002 && status t [1, 1, 0, 0, 0, 1] := by decide
-- T42-31: TEST imm32 (F7 /0)
theorem test_testRm32Imm32 :
    steps (machine initialParams [0xF7, 0xC0, 0x00, 0x00, 0x00, 0x80] |> regs [(.eax, 0x80000000)]) fun t =>
      t.eip == 0x1006 && status t [0, 1, 0, 0, 1, 0] := by decide
-- T42-32: TEST imm32 (F7 /1)
theorem test_testRm32Imm32Alt :
    steps (machine initialParams [0xF7, 0xC8, 0x01, 0x00, 0x00, 0x00] |> regs [(.eax, 0x2)]) fun t =>
      t.eip == 0x1006 && status t [0, 1, 0, 1, 0, 0] := by decide
-- T42-33: NOT EAX
theorem test_notRm32 :
    steps (machine initialParams [0xF7, 0xD0]
        |> regs [(.eax, 0xF0F0F0F)] |> flags { Flags.clear with cf := true, zf := true }) fun t =>
      t.reg .eax == 0xF0F0F0F0 && t.eip == 0x1002 && status t [1, 0, 0, 1, 0, 0] := by decide
-- T42-36: NEG 0x80000000
theorem test_negRm32 :
    steps (machine initialParams [0xF7, 0xD8] |> regs [(.eax, 0x80000000)]) fun t =>
      t.eip == 0x1002 && status t [1, 1, 0, 0, 1, 1] := by decide
-- T43-2: MUL ECX overflow
theorem test_mulRm32 :
    steps (machine initialParams [0xF7, 0xE1] |> regs [(.eax, 0x10000), (.ecx, 0x10000)]) fun t =>
      t.reg .eax == 0x00000000 && t.eip == 0x1002 && status t [1, 1, 0, 1, 0, 1] := by decide
-- T43-6: IMUL 0x80000000*-1
theorem test_imulRm32 :
    steps (machine initialParams [0xF7, 0xE9] |> regs [(.eax, 0x80000000), (.ecx, 0xFFFFFFFF)]) fun t =>
      t.eip == 0x1002 && status t [1, 1, 0, 0, 1, 1] := by decide
-- T43-11: DIV 100/7
theorem test_divRm32 :
    steps (machine initialParams [0xF7, 0xF1] |> regs [(.eax, 0x64), (.ecx, 0x7), (.edx, 0x99)]) fun t =>
      t.reg .eax == 0x0000000E && t.reg .edx == 0x00000002 && t.eip == 0x1002 := by decide
-- T43-13: DIV by 0
theorem test_divRm32_2 :
    divideByZeroAt (machine initialParams [0xF7, 0xF1]
        |> regs [(.eax, 0x5), (.ecx, 0x0), (.edx, 0x9)]) fun t =>
      t.eip == 0x1000 := by decide
-- T43-14: IDIV -7/2 TRUNC
theorem test_idivRm32 :
    steps (machine initialParams [0xF7, 0xF9] |> regs [(.eax, 0xFFFFFFF9), (.ecx, 0x2)]) fun t =>
      t.reg .eax == 0xFFFFFFFD && t.reg .edx == 0xFFFFFFFF && t.eip == 0x1002 := by decide
-- T43-15: IDIV -7/2 FLOOR
theorem test_idivRm32_2 :
    steps (machine { initialParams with idiv := .floor } [0xF7, 0xF9]
        |> regs [(.eax, 0xFFFFFFF9), (.ecx, 0x2)]) fun t =>
      t.reg .eax == 0xFFFFFFFC && t.reg .edx == 0x00000001 && t.eip == 0x1002 := by decide
-- T45-1: NOP
theorem test_nop : steps (machine initialParams [0x90]) fun t => t.eip == 0x1001 := by decide
-- T41-20: PUSHF all flags
theorem test_pushf :
    steps (machine initialParams [0x9C]
        |> flags { Flags.clear with cf := true, pf := true, af := true, zf := true, sf := true, tf := true, intf := true, df := true, of := true }) fun t =>
      t.reg .esp == 0x0000FFFB && t.eip == 0x1001 && status t [1, 1, 1, 1, 1, 1] && t.flags.intf &&
      t.flags.df && t.flags.tf && loaded t 0xFFFB .dword == 0x00000FD7 := by decide
-- T41-21: POPF 0xFFFFFFFF
theorem test_popf :
    steps (machine initialParams [0x9D]
        |> regs [(.esp, 0x7FFC)] |> bytes 0x7FFC [0xFF, 0xFF, 0xFF, 0xFF]) fun t =>
      t.reg .esp == 0x00008000 && t.eip == 0x1001 && status t [1, 1, 1, 1, 1, 1] && t.flags.intf &&
      t.flags.df && t.flags.tf := by decide
-- T44-47: RET
theorem test_ret :
    steps (machine initialParams [0xC3]
        |> regs [(.esp, 0x7FFC)] |> bytes 0x7FFC [0x00, 0x30, 0x00, 0x00]) fun t =>
      t.reg .esp == 0x00008000 && t.eip == 0x3000 := by decide
-- T45-2: HLT
theorem test_hlt : steps (machine initialParams [0xF4]) fun t => t.eip == 0x1001 && t.halted := by decide
-- T45-4: CLI
theorem test_cli :
    steps (machine initialParams [0xFA] |> flags { Flags.clear with intf := true }) fun t =>
      t.eip == 0x1001 && status t [0, 0, 0, 0, 0, 0] && !t.flags.intf && !t.interruptEnabled := by decide
-- T45-5: STI
theorem test_sti :
    steps (machine initialParams [0xFB]) fun t =>
      t.eip == 0x1001 && t.flags.intf && t.interruptEnabled := by decide
-- T45-6: CLD
theorem test_cld :
    steps (machine initialParams [0xFC] |> flags { Flags.clear with df := true }) fun t =>
      t.eip == 0x1001 && status t [0, 0, 0, 0, 0, 0] && !t.flags.df := by decide
-- T45-7: STD
theorem test_std : steps (machine initialParams [0xFD]) fun t => t.eip == 0x1001 && t.flags.df := by decide
-- T41-5: MOV [disp32],EAX
theorem test_movAddr32Eax :
    steps (machine initialParams [0xA3, 0x00, 0x20, 0x00, 0x00] |> regs [(.eax, 0xDEADBEEF)]) fun t =>
      t.eip == 0x1005 && loaded t 0x2000 .dword == 0xDEADBEEF := by decide
-- T41-3: MOV r8,imm8 to BH
theorem test_movR8Imm8 :
    steps (machine initialParams [0xB7, 0x5A] |> regs [(.ebx, 0x11223344)]) fun t =>
      t.reg .ebx == 0x11225A44 && t.eip == 0x1002 := by decide
-- T41-4: MOV r32,imm32 to EDI
theorem test_movR32Imm32 :
    steps (machine initialParams [0xBF, 0x78, 0x56, 0x34, 0x12]) fun t =>
      t.reg .edi == 0x12345678 && t.eip == 0x1005 := by decide
-- T45-3: INT 0x80
theorem test_intImm8 :
    steps (machine initialParams [0xCD, 0x80]) fun t =>
      t.eip == 0x1002 && t.interrupts == 1 && t.cycleCount == 10 := by decide
-- T44-45: CALL absolute
theorem test_callTarget32 :
    steps (machine initialParams [0xE8, 0x00, 0x20, 0x00, 0x00]) fun t =>
      t.reg .esp == 0x0000FFFB && t.eip == 0x2000 && loaded t 0xFFFB .dword == 0x00001000 := by decide
-- T44-44: JMP rel32 to self
theorem test_jmpTarget32 :
    steps (machine initialParams [0xE9, 0x00, 0x10, 0x00, 0x00]) fun t => t.eip == 0x1005 := by decide
-- T44-40: JMP rel8 EB FE
theorem test_jmpRel8 : steps (machine initialParams [0xEB, 0xFE]) fun t => t.eip == 0xFFE := by decide
-- T45-8: RDTSC clock 0x123456789A
theorem test_rdtsc :
    steps (machine initialParams [0x0F, 0x31]) fun t => t.clockDraws == 1 && t.eip == 0x1002 := by decide
-- T44-37: JL rel32 (0F 8C) taken
theorem test_jlTarget32 :
    steps (machine initialParams [0x0F, 0x8C, 0x00, 0x30, 0x00, 0x00]
        |> flags { Flags.clear with sf := true }) fun t =>
      t.eip == 0x3000 && status t [0, 0, 0, 0, 1, 0] := by decide
-- T44-38: JL rel32 (0F 8C) not taken
theorem test_jlTarget32_2 :
    steps (machine initialParams [0x0F, 0x8C, 0x00, 0x30, 0x00, 0x00]) fun t => t.eip == 0x1006 := by decide
-- T43-10: IMUL2 EBX,[disp32]
theorem test_imul2R32Rm32 :
    steps (machine initialParams [0x0F, 0xAF, 0x1D, 0x00, 0x20, 0x00, 0x00]
        |> regs [(.ebx, 0xFFFFFFFF)] |> bytes 0x2000 [0x05]) fun t =>
      t.reg .ebx == 0xFFFFFFFB && t.eip == 0x1007 && status t [0, 0, 0, 0, 1, 0] := by decide
-- T45-9: RDRAND EAX
theorem test_rdrandRm32 :
    steps (machine initialParams [0x0F, 0xC7, 0xF0]
        |> flags { Flags.clear with zf := true, of := true }) fun t =>
      t.randDraws == 1 && t.eip == 0x1003 && status t [1, 0, 0, 0, 0, 0] := by decide
-- T45-10: RDSEED ECX
theorem test_rdseedRm32 :
    steps (machine initialParams [0x0F, 0xC7, 0xF9]) fun t =>
      t.randDraws == 1 && t.eip == 0x1003 && status t [1, 0, 0, 0, 0, 0] := by decide
-- T41-23: MOV AL,[EBX] is not in the map
theorem test_decode_error :
    raises (step (machine initialParams [0x8A, 0x03])) fun f => match f with
      | .decodeError a (.unknownOpcode 0x8A) t => a == 0x1000 && t.eip == 0x1000
      | _ => false := by decide
-- T43-18: IDIV overflow
theorem test_divide_overflow :
    raises (step (machine initialParams [0xF7, 0xF9]
        |> regs [(.eax, 0x80000000), (.ecx, 0xFFFFFFFF)])) fun f => match f with
      | .divideOverflow a t => a == 0x1000 && t.reg .eax == 0x80000000 && t.reg .edx == 0
      | _ => false := by decide
-- T44-50: a jump past 2^32
theorem test_jump_wraps :
    steps (machineAt 0xFFFFFFF0 initialParams [0xEB, 0x7F]) fun t => t.eip == 0x6F := by decide
-- 70_reset R441: the reset state
theorem test_reset : State.reset.reg .esp = 0xFFFF ∧ State.reset.eip = 0 ∧
    State.reset.flags.pack = 2 ∧ Memory.wf State.reset.mmu.phys := by decide
-- 70_reset R443: the bytes are fetched by the next step
theorem test_withFetchWord : steps (State.reset.withFetchWord 16 0xD801) fun t => t.eip == 2 := by decide
theorem test_decodeTableWord :
    decodeTableWord 16 0xD801 = some (.addRm32R32 (.reg .eax) .ebx) ∧
    decodeTableWord 8 0xE8 = some (.callTarget32 0) ∧ decodeTableWord 8 0x04 = none := by decide

/-! ## Witnesses: concrete states and operands that meet the hypotheses of the obligations -/

theorem exists_next {o : Outcome} {q : State → Bool} (h : completes o q = true) :
    ∃ t, o = .next t ∧ q t = true := by
  cases o with
  | next t => exact ⟨t, rfl, h⟩
  | fault f => cases h
  | refused r => cases h

theorem exists_fault {o : Outcome} {q : Fault → Bool} (h : raises o q = true) :
    ∃ f, o = .fault f ∧ q f = true := by
  cases o with
  | next t => cases h
  | fault f => exact ⟨f, rfl, h⟩
  | refused r => cases h

/-- Whether an operation gives a value that passes, or a fault that passes. -/
def gives {α : Type} (r : Res α) (q : α → Bool) : Bool :=
  match r with
  | .ok x _ => q x
  | .fault _ => false

def failsWith {α : Type} (r : Res α) (q : Fault → Bool) : Bool :=
  match r with
  | .ok _ _ => false
  | .fault f => q f

theorem exists_ok {α : Type} {r : Res α} {q : α → Bool} (h : gives r q = true) :
    ∃ x t, r = .ok x t ∧ q x = true := by
  cases r with
  | ok x t => exact ⟨x, t, rfl, h⟩
  | fault f => cases h

theorem exists_failure {α : Type} {r : Res α} {q : Fault → Bool} (h : failsWith r q = true) :
    ∃ f, r = .fault f ∧ q f = true := by
  cases r with
  | ok x t => cases h
  | fault f => exact ⟨f, rfl, h⟩

theorem not_accessible_unmapped {v : Word} {w : Width} {s : State} (h : physAddr v s = none) :
    ¬ Accessible v w s := by
  rintro ⟨a, ha, _⟩
  rw [h] at ha; cases ha

theorem not_accessible_outside {v : Word} {w : Width} {s : State} {a : Nat} (h : physAddr v s = some a)
    (hb : s.params.memSize < a + w.bytes) : ¬ Accessible v w s := by
  rintro ⟨b, hb', hle⟩
  rw [h] at hb'; cases hb'; omega

/-- ADD EAX, EBX at 0x1000, the stack at 0x8000, EBX at 0x2000. -/
def plain : State :=
  machine initialParams [0x01, 0xD8] |> regs [(.eax, 7), (.ebx, 0x2000), (.esp, 0x8000)]

/-- The state after its step: the page of the code is in the TLB, its lines are in L1. -/
def stepped : State :=
  match step plain with
  | .next t => t
  | .fault f => f.left
  | .refused _ => plain

/-- One frame of memory, which holds the code. -/
def oneFrame : Params := { initialParams with memSize := 4096 }

/-- PUSH EAX where the one frame is that of the protected page 1, and the stack is in page 7. -/
def full : State := protectPage 1 (machine oneFrame [0x50] |> regs [(.esp, 0x8000), (.ebx, 0x2000)])

/-- The same with the stack across the end of memory. -/
def crossing : State := full |> regs [(.esp, 0x2002), (.ebx, 0x1FFD)]

theorem accessible_stack : Accessible (plain.reg .esp - 4) .dword plain := ⟨0x1FFC, by decide, by decide⟩
theorem accessible_top : Accessible (plain.reg .esp) .dword plain := ⟨0x1000, by decide, by decide⟩
theorem ready_byte : placeReady (.mem .byte (.ind .ebx)) plain := ⟨0x1000, by decide, by decide⟩
theorem ready_ind : placeReady (.mem .dword (.ind .ebx)) plain := ⟨0x1000, by decide, by decide⟩
theorem ready_disp8 : placeReady (.mem .dword (.disp8 .ebx 0xFC)) plain := ⟨0xFFC, by decide, by decide⟩
theorem ready_abs : placeReady (.mem .dword (.abs 0xFFFFFFFC)) plain := ⟨0x1FFC, by decide, by decide⟩

theorem test_witness_DecodeOfEncode :
    (Instr.addRm32Imm32 (.mem (.disp8 .ebp 0x80)) 0xFFFFFFFF).wf ∧
    (Instr.movRm8R8 (.mem (.ind .esp)) .bh).wf := by decide

theorem test_witness_EncodeOfDecode : decode [0x00, 0x00, 0x90] = .instr (.addRm8R8 (.mem (.ind .eax)) .al)
    [0x90] := by decide

theorem test_witness_EncodingMatchesOneRow :
    OpcodeRow.fits (Instr.row (.incR32 .eax)) (encode (.incR32 .edi)) = true ∧
    OpcodeRow.fits (Instr.row (.notRm32 (.reg .eax))) (encode (.negRm32 (.reg .eax))) = false := by decide

theorem test_witness_IllegalEncodingsExactly :
    decode [0x04] = .reject (.unknownOpcode 0x04) ∧ decode [0xFF, 0x00] = .reject (.unknownOpcode 0xFF) ∧
    decode [0x0F, 0x05] = .reject (.unknownTwoByte 0x05) ∧
    decode [0xC1, 0b11_011_000] = .reject (.invalidGroup 0xC1 none 0b11_011_000) ∧
    decode [0xD1, 0b11_110_000] = .reject (.invalidGroup 0xD1 none 0b11_110_000) ∧
    decode [0x0F, 0xC7, 0b11_101_000] = .reject (.invalidGroup 0x0F (some 0xC7) 0b11_101_000) := by decide

theorem test_witness_StepRunsDecodedInstruction :
    (plain.halted = false ∧ physAddr plain.eip plain = some 0 ∧ offsetOf plain.eip + 2 ≤ 4096 ∧
      0 + 2 ≤ plain.params.memSize ∧
      decode (codeBytes 2 plain) = .instr (.addRm32R32 (.reg .eax) .ebx) []) ∧
    (let s := machineAt 0x1FFE initialParams [0x01, 0xD8];
      s.halted = false ∧ physAddr s.eip s = some 0xFFE ∧ offsetOf s.eip + 2 ≤ 4096 ∧
      decode (codeBytes 2 s) = .instr (.addRm32R32 (.reg .eax) .ebx) []) := by decide

theorem test_witness_FetchReadsTheParts : plain.params.frameFill = .keep ∧
    ∃ i s1, fetch plain = .ok i s1 ∧ decide (i = .addRm32R32 (.reg .eax) .ebx) = true :=
  ⟨by decide, exists_ok (by decide)⟩

theorem test_witness_HaltedStepDoesNothing :
    ({ plain with halted := true } : State).halted = true ∧
    (∃ t, exec .hlt plain = .next t ∧ t.halted = true) ∧
    (∃ t, exec .nop plain = .next t ∧ (!t.halted) = true) ∧
    (∃ f, step full = .fault f ∧ (!f.left.halted) = true) ∧
    HostLeaves plain (getInstructionAt 0x1000 plain).left ∧
    ∃ t, loadProgram [0x90] 0x3000 plain = .next t ∧ HostLeaves plain t := by
  refine ⟨by decide, exists_next (by decide), exists_next (by decide), exists_fault (by decide),
    .disassembled 0x1000, ?_⟩
  obtain ⟨t, ht, _⟩ := exists_next (o := loadProgram [0x90] 0x3000 plain) (q := fun _ => true) (by decide)
  exact ⟨t, ht, .loaded _ _ ht⟩

theorem test_witness_FailedStepLeavesTheState :
    (∃ f, step full = .fault f ∧ (f.left.reg .esp == 0x7FFC && f.left.eip == 0x1000) = true) ∧
    (∃ f, step (machine initialParams [0xF7, 0xF1]) = .fault f ∧ (f.left.reg .esp == 0xFFFF) = true) ∧
    full.params.frameFill = .keep :=
  ⟨exists_fault (by decide), exists_fault (by decide), by decide⟩

theorem test_witness_FailedFetchEndsTheStep :
    (machine initialParams [0x8A]).halted = false ∧
    ∃ f, fetch (machine initialParams [0x8A]) = .fault f ∧ (match f with
      | .decodeError a _ _ => a == 0x1000
      | _ => false) = true :=
  ⟨by decide, exists_failure (by decide)⟩

theorem test_witness_WhatNoStepWrites :
    (∃ t, step plain = .next t ∧ (t.reg .eax == 0x2007) = true) ∧
    (∃ f, step full = .fault f ∧ (f.left.reg .esp == 0x7FFC) = true) ∧
    plain.interruptEnabled = plain.flags.intf :=
  ⟨exists_next (by decide), exists_fault (by decide), by decide⟩

theorem test_witness_FlagWriters :
    ∃ t, exec .popf (plain |> bytes 0x8000 [0xD5, 0x0F]) = .next t ∧
      (t.flags.tf && t.flags.intf && t.flags.df && t.flags.af && t.flags.cf) = true :=
  exists_next (by decide)

theorem test_witness_ControlFlagsAreInert :
    Instr.sti ≠ .pushf ∧
    plain.SameButControlFlags (plain |> flags { Flags.clear with tf := true, df := true }) ∧
    ∃ t, exec .sti plain = .next t ∧ t.interruptEnabled = true :=
  ⟨by decide, rfl, exists_next (by decide)⟩

theorem test_witness_ResetMeetsInvariant :
    Params.wf { initialParams with memSize := 2 ^ 32 - 1 } ∧
    Memory.wf [(0, 0x90), (2 ^ 32 - 2, 0xFF)] ∧
    ∀ c ∈ ([(0, 0x90), (2 ^ 32 - 2, 0xFF)] : Memory), c.1 < 2 ^ 32 - 1 := by decide

theorem test_witness_StepKeepsInvariant :
    stepped.Inv ∧ full.Inv ∧ (∃ t, step plain = .next t ∧ (t.mmu.l1.length == 1) = true) ∧
    (∃ f, step full = .fault f ∧ (f.left.mmu.tlb.length == 1) = true) :=
  ⟨by decide, by decide, exists_next (by decide), exists_fault (by decide)⟩

theorem test_witness_HostOperationsKeepInvariant :
    stepped.Inv ∧ full.Inv ∧ HostLeaves stepped (hostRead 0x3000 .dword stepped).left ∧
    (∃ f, loadProgram [0x90] 0x2000 full = .fault f ∧ HostLeaves full f.left) ∧
    (match getInstructionsAt 2 0x1000 stepped with
      | .ok l _ => l.length == 2
      | .fault _ => false) = true := by
  refine ⟨by decide, by decide, .read 0x3000 .dword, ?_, by decide⟩
  obtain ⟨f, hf, _⟩ := exists_fault (o := loadProgram [0x90] 0x2000 full) (q := fun _ => true) (by decide)
  exact ⟨f, hf, .loadRaised _ _ hf⟩

/-- `stepped` with the TLB and the caches emptied. -/
def forgetful : State := stepped.setMmu { stepped.mmu with tlb := [], l1 := [], counters := .zero }

theorem test_witness_HiddenStateDecidesNothing :
    stepped.Inv ∧ forgetful.Inv ∧ stepped.SameData forgetful ∧ stepped ≠ forgetful :=
  ⟨by decide, by decide, ⟨⟨rfl, rfl, rfl, rfl, rfl⟩, rfl⟩, by decide⟩

theorem test_witness_ReadGivesTheStoredBytes :
    frameOf plain (pageOf 0x1FFC) = some 0 ∧
    0 * 4096 + offsetOf 0x1FFC + Width.dword.bytes ≤ plain.params.memSize := by decide

theorem test_witness_WriteThenRead : Accessible 0x2FFE .dword plain := ⟨0x1FFE, by decide, by decide⟩

theorem test_witness_BytesOfAWrittenDoubleword :
    Accessible 0x2FFC .dword plain ∧ offsetOf 0x2FFC + 4 ≤ 4096 ∧ 3 < 4 :=
  ⟨⟨0x1FFC, by decide, by decide⟩, by decide, by decide⟩

theorem test_witness_AccessPastMemoryIsAViolation :
    physAddr 0x1FFD crossing = some 0xFFD ∧ crossing.params.memSize < 0xFFD + Width.dword.bytes := by
  decide

theorem test_witness_OutOfMemoryExactly :
    frameOf full (pageOf 0x2000) = none ∧ full.mmu.freeFrames = [] ∧
    (∀ e ∈ full.mmu.pageDir, e.1 ∈ full.mmu.protectedPages) ∧
    ∃ f, memRead 0x2000 .byte full = .fault f ∧ (match f with
      | .outOfPhysicalMemory _ => true
      | _ => false) = true :=
  ⟨by decide, by decide, by decide, exists_failure (by decide)⟩

theorem test_witness_PageFaultTakesAFrame :
    (frameOf plain (pageOf 0x2000) = none ∧ DirInv plain.params plain.mmu ∧
      1 ∈ plain.mmu.freeFrames ∧ ∀ g ∈ plain.mmu.freeFrames, 1 ≤ g) ∧
    (let s := machine oneFrame [0x90];
      frameOf s (pageOf 0x2000) = none ∧ s.mmu.freeFrames = [] ∧
      s.mmu.pageDir = [] ++ (1, newEntry 0) :: [] ∧ 1 ∉ s.mmu.protectedPages) := by decide

theorem test_witness_ProtectedPagesStay :
    let s := protectPage 1 plain;
    1 ∈ s.mmu.protectedPages ∧ s.mmu.residentFrame 1 = some 0 ∧
    (∃ t, step s = .next t ∧ true = true) ∧ 1 ∈ full.mmu.protectedPages ∧
    full.mmu.residentFrame 1 = some 0 ∧ ∃ f, step full = .fault f ∧ true = true :=
  ⟨by decide, by decide, exists_next (q := fun _ => true) (by decide), by decide, by decide,
    exists_fault (q := fun _ => true) (by decide)⟩

theorem test_witness_EffectiveAddresses :
    plain.params.disp8Ea = .sext ∧
    (machine { initialParams with disp8Ea := .zext } []).params.disp8Ea = .zext := by decide

theorem test_witness_MoveCopies :
    (moveForm (.movRm8R8 (.mem (.ind .ebx)) .bh) =
        some (.byte, .mem .byte (.ind .ebx), .place (.reg8 .bh)) ∧
      placeReady (.mem .byte (.ind .ebx)) plain ∧ operandReady (.place (.reg8 .bh)) plain) ∧
    (moveForm (.movsxdR32Rm32 .eax (.mem (.disp8 .ebx 0xFC))) =
        some (.dword, .reg32 .eax, .place (.mem .dword (.disp8 .ebx 0xFC))) ∧
      placeReady (.reg32 .eax) plain ∧ operandReady (.place (.mem .dword (.disp8 .ebx 0xFC))) plain) ∧
    ¬ placeInMemory (.reg8 .ah) ∧ ¬ operandInMemory (.imm8 0xFF) :=
  ⟨⟨rfl, ready_byte, trivial⟩, ⟨rfl, trivial, ready_disp8⟩, id, id⟩

theorem test_witness_ExchangeSwaps : placeReady (Rm32.place (.mem (.ind .ebx))) plain ∧
    placeReady (Rm32.place (.reg .edi)) plain := ⟨ready_ind, trivial⟩

theorem test_witness_PushStores :
    ((∃ r, Instr.pushR32 .esp = .pushR32 r ∧ (0x8000 : Word) = plain.reg r) ∨
      (Instr.pushR32 .esp = .pushf ∧ (0x8000 : Word) = plain.flags.pack)) ∧
    Accessible (plain.reg .esp - 4) .dword plain :=
  ⟨.inl ⟨.esp, rfl, by decide⟩, accessible_stack⟩

theorem test_witness_FailedPushLowersEsp :
    ¬ Accessible (full.reg .esp - 4) .dword full ∧ ¬ Accessible (crossing.reg .esp - 4) .dword crossing :=
  ⟨not_accessible_unmapped (by decide), not_accessible_outside (a := 0xFFE) (by decide) (by decide)⟩

theorem test_witness_PopLoads : Accessible (plain.reg .esp) .dword plain ∧ Reg32.eax ≠ .esp :=
  ⟨accessible_top, by decide⟩

theorem test_witness_PopfLoadsFlags : Accessible (plain.reg .esp) .dword plain := accessible_top

theorem test_witness_PushThenPop : Accessible (plain.reg .esp - 4) .dword plain ∧ Reg32.edi ≠ .esp :=
  ⟨accessible_stack, by decide⟩

theorem test_witness_AluOperationsWrite :
    (aluForm (.adcRm32Imm8 (.mem (.ind .ebx)) 0xFF) =
        some (.adc, .dword, .mem .dword (.ind .ebx), .imm8 0xFF) ∧ plain.params.adcSbb = .ia32 ∧
      placeReady (.mem .dword (.ind .ebx)) plain ∧ operandReady (.imm8 0xFF) plain) ∧
    (aluForm (.addR8Rm8 .bh (.mem (.ind .ebx))) =
        some (.add, .byte, .reg8 .bh, .place (.mem .byte (.ind .ebx))) ∧
      placeReady (.reg8 .bh) plain ∧ operandReady (.place (.mem .byte (.ind .ebx))) plain) ∧
    ¬ placeInMemory (.reg32 .eax) ∧ ¬ operandInMemory (.imm32 0) :=
  ⟨⟨rfl, by decide, ready_ind, trivial⟩, ⟨rfl, trivial, ready_byte⟩, id, id⟩

theorem test_witness_CompareWritesOnlyFlags :
    testForm (.cmpRm32Imm8 (.mem (.disp8 .ebx 0xFC)) 1) =
      some (.sub, .dword, .mem .dword (.disp8 .ebx 0xFC), .imm8 1) ∧
    placeReady (.mem .dword (.disp8 .ebx 0xFC)) plain ∧ operandReady (.imm8 1) plain :=
  ⟨rfl, ready_disp8, trivial⟩

theorem test_witness_InaccessibleOperandRaises :
    ReadsInaccessible (.movRm32R32 (.mem (.ind .ebx)) .eax) full ∧
    ReadsInaccessible (.testRm32R32 (.mem (.ind .ebx)) .eax) crossing ∧
    ReadsInaccessible (.adcRm32Imm8 (.mem (.ind .ebx)) 1) full ∧
    ReadsInaccessible (.xchgRm32R32 (.mem (.ind .ebx)) .eax) crossing ∧
    ReadsInaccessible (.shlRm32Imm8 (.mem (.ind .ebx)) 0) full ∧
    ReadsInaccessible .ret full ∧
    drawForm (.rdrandRm32 (.mem (.ind .ebx))) = some (.mem (.ind .ebx)) ∧
    ¬ placeReady (Rm32.place (.mem (.ind .ebx))) full := by
  have hf : ¬ placeReady (.mem .dword (.ind .ebx)) full := not_accessible_unmapped (by decide)
  have hc : ¬ placeReady (.mem .dword (.ind .ebx)) crossing :=
    not_accessible_outside (a := 0xFFD) (by decide) (by decide)
  exact ⟨.inl ⟨_, _, _, .inl rfl, .inl hf⟩, .inl ⟨_, _, _, .inr (.inl ⟨_, rfl⟩), .inl hc⟩,
    .inl ⟨_, _, _, .inr (.inr ⟨_, rfl, fun _ => by decide⟩), .inl hf⟩, .inr (.inl ⟨_, rfl, hc⟩),
    .inr (.inl ⟨_, rfl, hf⟩), .inr (.inr ⟨rfl, not_accessible_unmapped (by decide)⟩), rfl, hf⟩

theorem test_witness_AdcSbbRefused :
    (machine { initialParams with adcSbb := .refuse } []).params.adcSbb = .refuse := by decide

theorem test_witness_NotAndNeg : placeReady (Rm32.place (.mem (.abs 0xFFFFFFFC))) plain ∧
    ¬ placeInMemory (Rm32.place (.reg .eax)) := ⟨ready_abs, id⟩

theorem test_witness_ShiftsShift :
    shiftForm (.shlRm32Imm8 (.mem (.ind .ebx)) 31) = some (.shl, .mem (.ind .ebx), 31) ∧
    shiftForm (.shrRm32One (.reg .eax)) = some (.shr, .reg .eax, 1) ∧
    shiftForm (.shrRm32Imm8 (.reg .eax) 32) = some (.shr, .reg .eax, 32) ∧
    placeReady (Rm32.place (.mem (.ind .ebx))) plain ∧ placeReady (Rm32.place (.reg .eax)) plain ∧
    ¬ placeInMemory (Rm32.place (.reg .eax)) := ⟨rfl, rfl, rfl, ready_ind, trivial, id⟩

theorem test_witness_ShiftReferenceCorners :
    shiftForm (.shlRm32Imm8 (.reg .eax) 0) = some (.shl, .reg .eax, 0) ∧
    shiftForm (.shlRm32Imm8 (.reg .eax) 32) = some (.shl, .reg .eax, 32) ∧
    shiftForm (.shrRm32Imm8 (.reg .eax) 33) = some (.shr, .reg .eax, 33) ∧
    shiftForm (.shrRm32Imm8 (.reg .eax) 255) = some (.shr, .reg .eax, 255) ∧
    placeReady (Rm32.place (.reg .eax)) plain ∧ plain.params.shiftCorner = .reference :=
  ⟨rfl, rfl, rfl, rfl, trivial, by decide⟩

theorem test_witness_MultiplyResults : placeReady (Rm32.place (.mem (.ind .ebx))) plain ∧
    placeReady (Rm32.place (.reg .edx)) plain := ⟨ready_ind, trivial⟩

theorem test_witness_DivideResults :
    placeReady (Rm32.place (.reg .ebx)) plain ∧ placeValue (Rm32.place (.reg .ebx)) plain ≠ 0 :=
  ⟨trivial, by decide⟩

/-- EAX is the most negative number. -/
def mostNegative : State := plain |> regs [(.eax, 0x80000000), (.ecx, 0xFFFFFFFF), (.ebx, 1)]

theorem test_witness_SignedDivideResults :
    placeReady (Rm32.place (.reg .ebx)) mostNegative ∧
    placeValue (Rm32.place (.reg .ebx)) mostNegative ≠ 0 ∧
    ¬ (mostNegative.reg .eax = 0x80000000 ∧
      placeValue (Rm32.place (.reg .ebx)) mostNegative = 0xFFFFFFFF) ∧
    mostNegative.params.idiv = .trunc ∧
    (machine { initialParams with idiv := .floor } []).params.idiv = .floor :=
  ⟨trivial, by decide, by decide, by decide, by decide⟩

theorem test_witness_DivideErrorsRaise :
    placeReady (Rm32.place (.reg .edi)) mostNegative ∧
    placeValue (Rm32.place (.reg .edi)) mostNegative = 0 ∧ mostNegative.reg .eax = 0x80000000 ∧
    placeValue (Rm32.place (.reg .ecx)) mostNegative = 0xFFFFFFFF :=
  ⟨trivial, by decide, by decide, by decide⟩

theorem test_witness_ShortConditionalJumps :
    jccForm Flags.clear (.jnoRel8 0x80) = some (true, 0x80) ∧
    jccForm Flags.clear (.jlRel8 0x7F) = some (false, 0x7F) := by decide

theorem test_witness_CallPushesItsOwnAddress : Accessible (plain.reg .esp - 4) .dword plain :=
  accessible_stack

theorem test_witness_ReturnPopsEip : Accessible (plain.reg .esp) .dword plain := accessible_top

theorem test_witness_ReturnGoesBackToTheCall : Accessible (plain.reg .esp - 4) .dword plain :=
  accessible_stack

theorem test_witness_RandomDraws : placeReady (Rm32.place (.mem (.ind .ebx))) plain ∧
    placeReady (Rm32.place (.reg .esp)) plain := ⟨ready_ind, trivial⟩

theorem test_witness_LoadedPagesAreProtected :
    2 ^ 32 < (0xFFFFFFFF : Word).toNat + ([0x90, 0x90] : List Byte).length ∧
    (∃ t, loadProgram [0x90, 0x90] 0x2FFF plain = .next t ∧ (t.mmu.protectedPages == [2, 3]) = true) ∧
    physAddr 0x2FFE plain = some 0x1FFE ∧ ([0x90, 0x90] : List Byte) ≠ [] ∧
    offsetOf 0x2FFE + ([0x90, 0x90] : List Byte).length ≤ 4096 ∧
    0x1FFE + ([0x90, 0x90] : List Byte).length ≤ plain.params.memSize :=
  ⟨by decide, exists_next (by decide), by decide, by decide, by decide, by decide⟩

theorem test_witness_RunStopsAtTheFirstBreakpoint :
    (match runUntilBreakpoint 1 (setBreakpoint 0x1002 plain) with
      | .stopped t => t.eip == 0x1002
      | _ => false) = true ∧
    (match runUntilBreakpoint 0 (setBreakpoint 0x1000 plain) with
      | .stopped t => t.eip == 0x1000
      | _ => false) = true := by decide

theorem test_witness_OnlySixteenRegisterNames :
    "AX" ∉ ["EAX", "ECX", "EDX", "EBX", "ESP", "EBP", "ESI", "EDI",
      "AL", "CL", "DL", "BL", "AH", "CH", "DH", "BH"] := by decide

end Sys2Proof.Tests
end

section
/-! Settles the family of the state: what every step and every operation of the host keeps. -/

namespace Sys2Proof.Machine

/-! ## What an access leaves -/

@[simp] theorem MmuError.fault_left (e : MmuError) (s : State) : (e.fault s).left = s := by
  cases e <;> rfl

/-- An access made from a state leaves the state with the MMU the transaction leaves. -/
theorem liftMmu_left {α : Type} (s : State) (r : MmuResult α) : (liftMmu s r).left = s.setMmu r.mmu := by
  cases r <;> simp [liftMmu, raise]

theorem memRead_left (v : Word) (w : Width) (s : State) :
    (memRead v w s).left = s.setMmu (s.mmu.read s.params v w).mmu := liftMmu_left s _

theorem memWrite_left (v : Word) (w : Width) (x : Word) (s : State) :
    (memWrite v w x s).left = s.setMmu (s.mmu.write s.params v w x).mmu := liftMmu_left s _

/-- A relation that accesses keep, and the plain updates of an instruction too, is preserved. -/
theorem KeptByAccess.preserved {R : State → State → Prop} (h : KeptByAccess R)
    (regs : ∀ s g, R s { s with regs := g })
    (flags : ∀ s f, f.intf = s.flags.intf → R s (s.setFlags f))
    (control : ∀ s f, R s { s with flags := f, interruptEnabled := f.intf })
    (eip : ∀ s v, R s (s.setEip v)) (halt : ∀ s, R s { s with halted := true })
    (interrupts : ∀ s, R s { s with interrupts := s.interrupts + 1 })
    (clock : ∀ s, R s (afterClockDraw s)) (rand : ∀ s, R s (afterRandDraw s))
    (counts : ∀ s n k, R s { s with instructionCount := n, cycleCount := k }) : Preserved R where
  refl := h.refl
  trans := h.trans
  regs := regs
  flags := flags
  control := control
  eip := eip
  halt := halt
  interrupts := interrupts
  clock := clock
  rand := rand
  counts := counts
  readOk {s v w _ t} hr := by have := h.read v w s; rwa [hr] at this
  readFault {s v w f} hr := by have := h.read v w s; rwa [hr] at this
  writeOk {s v w x t} hr := by have := h.write v w x s; rwa [hr] at this
  writeFault {s v w x f} hr := by have := h.write v w x s; rwa [hr] at this

/-! ## Every step keeps the invariant (10_state R43, R48 to R52) -/

theorem inv_keptByAccess : KeptByAccess fun s t => s.Inv → t.Inv where
  refl _ h := h
  trans h h' := h' ∘ h
  read v w s := by
    rintro ⟨hp, hm, hrest⟩
    rw [memRead_left]
    exact ⟨hp, hm.read hp.2 v w, hrest⟩
  write v w x s := by
    rintro ⟨hp, hm, hrest⟩
    rw [memWrite_left]
    exact ⟨hp, hm.write v w x, hrest⟩

theorem inv_preserved : Preserved fun s t => s.Inv → t.Inv :=
  inv_keptByAccess.preserved
    (regs := fun _ _ h => h)
    (flags := fun _ _ hf ⟨hp, hm, hi, hrest⟩ => ⟨hp, hm, hi.trans hf.symm, hrest⟩)
    (control := fun _ _ ⟨hp, hm, _, hrest⟩ => ⟨hp, hm, rfl, hrest⟩)
    (eip := fun _ _ h => h) (halt := fun _ h => h) (interrupts := fun _ h => h)
    (clock := fun _ h => h) (rand := fun _ h => h) (counts := fun _ _ _ h => h)

/-- Settles O15: each update a step is made of keeps the invariant, so the step does. -/
theorem stepKeepsInvariant : Obligations.StepKeepsInvariant := fun s hs =>
  ⟨fun _ ht => (inv_preserved.step s).next ht hs, fun _ hf => (inv_preserved.step s).fault hf hs⟩

/-! ## What no step writes, and pages that stay (10_state R46, R47, R52 (d), R54) -/

/-- A preserved relation holds between a state and what a step on it leaves, completed or raised. -/
theorem Preserved.step_leaves {R : State → State → Prop} (h : Preserved R) {s t : State}
    (ht : Machine.step s = .next t ∨ ∃ f, Machine.step s = .fault f ∧ t = f.left) : R s t := by
  rcases ht with ht | ⟨f, hf, rfl⟩
  · exact (h.step s).next ht
  · exact (h.step s).fault hf

/-- A read leaves what its translation leaves, but for the caches and counters (20_memory R95). -/
theorem Mmu.read_mmu (p : Params) (v : Word) (w : Width) (m : Mmu) :
    (m.translate p v).mmu.SameButCaches (m.read p v w).mmu := by
  unfold Mmu.read
  cases m.translate p v with
  | err e n => rfl
  | ok a n =>
    obtain ⟨k, hk, hr⟩ := Mmu.readAt_spec p v a w n
    rw [MmuResult.bind_ok, hr]
    split <;> exact hk

/-- A write leaves what its translation leaves, but for bytes and cache lines (20_memory R100). -/
theorem Mmu.write_mmu (p : Params) (v : Word) (w : Width) (x : Word) (m : Mmu) :
    (m.write p v w x).mmu = { (m.translate p v).mmu with
      phys := (m.write p v w x).mmu.phys
      l1 := (m.write p v w x).mmu.l1
      l2 := (m.write p v w x).mmu.l2 } := by
  unfold Mmu.write
  cases m.translate p v with
  | err e n => rfl
  | ok a n =>
    rw [MmuResult.bind_ok, Mmu.writeAt_eq]
    split <;> rfl

@[simp] theorem Mmu.read_protectedPages (p : Params) (v : Word) (w : Width) (m : Mmu) :
    (m.read p v w).mmu.protectedPages = m.protectedPages := by
  rw [(Mmu.read_mmu p v w m).protectedPages, Mmu.translate_protectedPages]

@[simp] theorem Mmu.write_protectedPages (p : Params) (v : Word) (w : Width) (x : Word) (m : Mmu) :
    (m.write p v w x).mmu.protectedPages = m.protectedPages := by
  rw [Mmu.write_mmu]
  exact Mmu.translate_protectedPages p v m

/-- What no step writes, that IF and `interruptEnabled` stay equal, and that the clock never falls. -/
structure ConstantsKept (s t : State) : Prop where
  params : t.params = s.params
  breakpoints : t.breakpoints = s.breakpoints
  segmentRegisters : t.segmentRegisters = s.segmentRegisters
  controlRegisters : t.controlRegisters = s.controlRegisters
  protectedPages : t.mmu.protectedPages = s.mmu.protectedPages
  clock : s.clockLast ≤ t.clockLast
  interrupt : s.interruptEnabled = s.flags.intf → t.interruptEnabled = t.flags.intf

theorem ConstantsKept.refl (s : State) : ConstantsKept s s :=
  ⟨rfl, rfl, rfl, rfl, rfl, BitVec.le_refl _, id⟩

theorem ConstantsKept.trans {s t u : State} (h : ConstantsKept s t) (h' : ConstantsKept t u) :
    ConstantsKept s u :=
  ⟨h'.params.trans h.params, h'.breakpoints.trans h.breakpoints,
    h'.segmentRegisters.trans h.segmentRegisters, h'.controlRegisters.trans h.controlRegisters,
    h'.protectedPages.trans h.protectedPages, BitVec.le_trans h.clock h'.clock,
    h'.interrupt ∘ h.interrupt⟩

theorem ConstantsKept.setMmu {s : State} {m : Mmu} (h : m.protectedPages = s.mmu.protectedPages) :
    ConstantsKept s (s.setMmu m) := ⟨rfl, rfl, rfl, rfl, h, BitVec.le_refl _, id⟩

/-- A drawn clock value is not below the one before (60_exceptions R420). -/
theorem clockLast_le_clockDraw (s : State) : s.clockLast ≤ clockDraw s := by
  unfold clockDraw
  split
  · assumption
  · exact BitVec.le_refl _

theorem constantsKept_keptByAccess : KeptByAccess ConstantsKept where
  refl := .refl
  trans := .trans
  read v w s := by rw [memRead_left]; exact .setMmu (Mmu.read_protectedPages _ _ _ _)
  write v w x s := by rw [memWrite_left]; exact .setMmu (Mmu.write_protectedPages _ _ _ _ _)

theorem constantsKept_preserved : Preserved ConstantsKept :=
  constantsKept_keptByAccess.preserved
    (regs := fun s _ => { ConstantsKept.refl s with })
    (flags := fun s _ hf => { ConstantsKept.refl s with interrupt := fun h => h.trans hf.symm })
    (control := fun s _ => { ConstantsKept.refl s with interrupt := fun _ => rfl })
    (eip := fun s _ => { ConstantsKept.refl s with })
    (halt := fun s => { ConstantsKept.refl s with })
    (interrupts := fun s => { ConstantsKept.refl s with })
    (clock := fun s => { ConstantsKept.refl s with clock := clockLast_le_clockDraw s })
    (rand := fun s => { ConstantsKept.refl s with })
    (counts := fun s _ _ => { ConstantsKept.refl s with })

/-- Settles O11: `ConstantsKept` is preserved by every update a step is made of. -/
theorem whatNoStepWrites : Obligations.WhatNoStepWrites := fun s t ht => by
  have h : ConstantsKept s t := constantsKept_preserved.step_leaves ht
  exact ⟨h.params, h.breakpoints, h.segmentRegisters, h.controlRegisters, h.protectedPages, h.clock,
    h.interrupt⟩

/-- The same pages are protected, and each that was resident is so in the same frame. -/
def ProtectedKept (s t : State) : Prop :=
  t.mmu.protectedPages = s.mmu.protectedPages ∧
  ∀ page f, page ∈ s.mmu.protectedPages → s.mmu.residentFrame page = some f →
    t.mmu.residentFrame page = some f

theorem ProtectedKept.refl (s : State) : ProtectedKept s s := ⟨rfl, fun _ _ _ h => h⟩

theorem ProtectedKept.trans {s t u : State} (h : ProtectedKept s t) (h' : ProtectedKept t u) :
    ProtectedKept s u :=
  ⟨h'.1.trans h.1, fun page f hp hf => h'.2 page f (h.1 ▸ hp) (h.2 page f hp hf)⟩

/-- An access finds the pages as its translation leaves them. -/
theorem ProtectedKept.of_translate {s : State} {v : Word} {m : Mmu}
    (hp : m.protectedPages = s.mmu.protectedPages)
    (hd : m.pageDir = (s.mmu.translate s.params v).mmu.pageDir) : ProtectedKept s (s.setMmu m) := by
  refine ⟨hp, fun page f hpage hf => ?_⟩
  have := Mmu.translate_protected (p := s.params) v hpage hf
  simpa only [Mmu.residentFrame, State.setMmu_mmu, hd] using this

theorem protectedKept_keptByAccess : KeptByAccess ProtectedKept where
  refl := .refl
  trans := .trans
  read v w s := by
    rw [memRead_left]
    exact .of_translate (Mmu.read_protectedPages _ _ _ _) (Mmu.read_mmu _ v w _).pageDir
  write v w x s := by
    rw [memWrite_left]
    exact .of_translate (Mmu.write_protectedPages _ _ _ _ _) (by rw [Mmu.write_mmu])

theorem protectedKept_preserved : Preserved ProtectedKept :=
  protectedKept_keptByAccess.preserved (fun s _ => .refl s) (fun s _ _ => .refl s)
    (fun s _ => .refl s) (fun s _ => .refl s) .refl .refl .refl .refl (fun s _ _ => .refl s)

/-- Settles O24: translation takes no frame from a protected page, and nothing else moves a page. -/
theorem protectedPagesStay : Obligations.ProtectedPagesStay := fun _ _ page f hp hf ht =>
  (protectedKept_preserved.step_leaves ht).2 page f hp hf

end Sys2Proof.Machine
end

section
/-! Settles what creation, reset and the operations of the host keep of the invariant
(20_memory R125 to R133, 60_exceptions R430 to R435, 70_reset R440, R441). -/

namespace Sys2Proof.Machine

/-! ## Creation and reset -/

/-- The MMU at creation: no page, no line, every frame free (10_state R48, R52). -/
theorem Mmu.create_inv {p : Params} {phys : Memory} (hw : phys.wf) (hb : ∀ c ∈ phys, c.1 < p.memSize) :
    (Mmu.create p phys).Inv p := by
  refine ⟨⟨hw, hb⟩, ⟨?_, ?_, ?_, ?_⟩, ?_, ⟨?_, ?_, ?_⟩, ?_, ?_, ?_, ?_, ?_, ?_⟩ <;>
    simp [Mmu.create, Mmu.ownedFrames]

theorem State.create_inv {p : Params} {phys : Memory} (hp : p.wf) (hw : phys.wf)
    (hb : ∀ c ∈ phys, c.1 < p.memSize) : (State.create p phys).Inv :=
  ⟨hp, Mmu.create_inv hw hb, rfl, List.Pairwise.nil, rfl, rfl⟩

/-- Settles O14: a created machine has no page and no line yet. -/
theorem resetMeetsInvariant : Obligations.ResetMeetsInvariant :=
  ⟨State.create_inv (by decide) Memory.wf_nil (by simp),
    fun _ _ _ hp hw hb => State.create_inv hp hw hb⟩

theorem hostReset_inv {s : State} (h : s.Inv) : (hostReset s).Inv := by
  obtain ⟨hp, ⟨⟨hw, hb⟩, -⟩, -, hbr, -, -⟩ := h
  exact ⟨hp, Mmu.create_inv hw hb, rfl, hbr, rfl, rfl⟩

/-- Settles O56: the registers at creation, which reset gives back. -/
theorem resetRegisters : Obligations.ResetRegisters := fun s r => by
  cases r <;> exact ⟨rfl, rfl⟩

/-- Settles O57: each field of `hostReset`, by its definition. -/
theorem resetKeepsMemory : Obligations.ResetKeepsMemory := fun s => by
  refine ⟨rfl, rfl, ?_, rfl, rfl, rfl, rfl, rfl, rfl, rfl, rfl, rfl, rfl, rfl, rfl, rfl, rfl, rfl, rfl⟩
  show Flags.clear.pack = 2
  decide

/-! ## The operations of the host -/

/-- An eviction takes the page out of the TLB too, so the TLB agrees with the directory (20_memory R91). -/
theorem TlbInv.evict {m : Mmu} (h : TlbInv m) (page : Nat) : TlbInv (m.evict page) := by
  obtain ⟨hkeys, hlen, hres⟩ := h
  cases hf : tableFind m.pageDir page with
  | none => unfold Mmu.evict; rw [hf]; exact ⟨hkeys, hlen, hres⟩
  | some e =>
    have htlb : (m.evict page).tlb = tableErase m.tlb page := by unfold Mmu.evict; rw [hf]
    refine ⟨?_, ?_, fun d hd => ?_⟩
    · rw [htlb]; exact hkeys.sublist (List.filter_sublist.map _)
    · rw [htlb]; exact (tableErase_length_le _ _).trans hlen
    · rw [htlb, mem_tableErase] at hd
      rw [Mmu.evict_other hd.2]
      exact hres d hd.1

theorem Mmu.evict_caches (m : Mmu) (page : Nat) : (m.evict page).l1 = m.l1 ∧
    (m.evict page).l2 = m.l2 ∧ (m.evict page).cacheClock = m.cacheClock := by
  unfold Mmu.evict
  split <;> exact ⟨rfl, rfl, rfl⟩

theorem Mmu.Inv.evict {p : Params} {m : Mmu} (h : m.Inv p) (page : Nat) : (m.evict page).Inv p := by
  obtain ⟨hp, hd, hs, ht, hc⟩ := h
  obtain ⟨h1, h2, h3⟩ := m.evict_caches page
  refine ⟨?_, hd.evict page, by rw [Mmu.evict_protectedPages]; exact hs, ht.evict page, ?_⟩
  · unfold PhysInv; rw [Mmu.evict_phys]; exact hp
  · unfold CacheInv; rw [h1, h2, h3]; exact hc

/-- An update of the MMU that keeps its invariant keeps the state's. -/
theorem State.Inv.onMmu {s : State} (h : s.Inv) {f : Mmu → Mmu}
    (hf : s.mmu.Inv s.params → (f s.mmu).Inv s.params) : (Machine.onMmu f s).Inv := by
  obtain ⟨hp, hm, hrest⟩ := h
  exact ⟨hp, hf hm, hrest⟩

theorem protectPage_inv (page : Nat) (s : State) (h : s.Inv) : (protectPage page s).Inv :=
  h.onMmu fun ⟨hp, hd, hs, ht, hc⟩ => ⟨hp, hd, setInsert_rising hs page, ht, hc⟩

theorem clearCaches_inv {s : State} (h : s.Inv) : (clearCaches s).Inv :=
  h.onMmu fun ⟨hp, _, hs, _, _⟩ => by
    obtain ⟨-, hd, -, ht, hc⟩ := Mmu.create_inv (p := s.params) hp.1 hp.2
    exact ⟨hp, hd, hs, ht, hc⟩

theorem mem_setInsertBy {α : Type} {key : α → Nat} {l : List α} {a b : α}
    (h : b ∈ setInsertBy key l a) : b = a ∨ b ∈ l := by
  induction l with
  | nil => simpa [setInsertBy] using h
  | cons k l ih =>
    simp only [setInsertBy] at h
    split at h
    · rcases List.mem_cons.1 h with rfl | h
      · simp
      · rcases ih h with h | h <;> simp [h]
    · split at h
      · exact .inr h
      · simpa using h

theorem setInsertBy_rising {α : Type} {key : α → Nat} {l : List α}
    (h : l.Pairwise fun x y => key x < key y) (a : α) :
    (setInsertBy key l a).Pairwise fun x y => key x < key y := by
  induction l with
  | nil => exact List.pairwise_singleton _ _
  | cons k l ih =>
    obtain ⟨h1, h2⟩ := List.pairwise_cons.1 h
    simp only [setInsertBy]
    split
    · next hk =>
      refine List.pairwise_cons.2 ⟨fun b hb => ?_, ih h2⟩
      rcases mem_setInsertBy hb with rfl | hb
      · exact hk
      · exact h1 b hb
    · split
      · exact h
      · refine List.pairwise_cons.2 ⟨fun b hb => ?_, h⟩
        rcases List.mem_cons.1 hb with rfl | hb
        · omega
        · have := h1 b hb; omega

theorem setBreakpoint_inv {s : State} (h : s.Inv) (a : Word) : (setBreakpoint a s).Inv := by
  obtain ⟨hp, hm, hi, hb, hrest⟩ := h
  exact ⟨hp, hm, hi, setInsertBy_rising hb a, hrest⟩

theorem removeBreakpoint_inv {s : State} (h : s.Inv) (a : Word) : (removeBreakpoint a s).Inv := by
  obtain ⟨hp, hm, hi, hb, hrest⟩ := h
  exact ⟨hp, hm, hi, hb.filter _, hrest⟩

theorem clearBreakpoints_inv {s : State} (h : s.Inv) : (clearBreakpoints s).Inv := by
  obtain ⟨hp, hm, hi, -, hrest⟩ := h
  exact ⟨hp, hm, hi, List.Pairwise.nil, hrest⟩

/-- Every operation of the host but stepping and reset keeps the invariant. -/
theorem HostLeaves.inv {s t : State} (h : HostLeaves s t) (hs : s.Inv) : t.Inv := by
  have hk := inv_keptByAccess
  cases h with
  | looked => exact hs
  | namedRegister name => rw [readRegisterByName_left]; exact hs
  | pageProtected page => exact protectPage_inv page s hs
  | pageUnprotected page =>
    exact hs.onMmu fun ⟨hp, hd, hs, ht, hc⟩ => ⟨hp, hd, hs.filter _, ht, hc⟩
  | pagesUnprotected =>
    exact hs.onMmu fun ⟨hp, hd, _, ht, hc⟩ => ⟨hp, hd, List.Pairwise.nil, ht, hc⟩
  | freed page => exact hs.onMmu fun hm => hm.evict page
  | clearedCaches => exact clearCaches_inv hs
  | resetCounters => exact hs.onMmu fun hm => hm
  | breakpointSet a => exact setBreakpoint_inv hs a
  | breakpointRemoved a => exact removeBreakpoint_inv hs a
  | breakpointsCleared => exact clearBreakpoints_inv hs
  | eipSet a => exact hs
  | read v w => exact hk.read v w s hs
  | wrote v w x => exact hk.write v w x s hs
  | disassembled a => exact hk.disassembleOne a s hs
  | disassembledMany n a => exact hk.disassemble n a s hs
  | loaded bytes a hl => exact hk.loadProgram_next protectPage_inv hl hs
  | loadRaised bytes a hl => exact hk.loadProgram_fault hl hs

/-- A bounded run keeps the invariant, however it ends (60_exceptions R431). -/
theorem runUntilBreakpoint_inv (n : Nat) {s : State} (h : s.Inv) :
    (runUntilBreakpoint n s).Leaves State.Inv := by
  induction n generalizing s with
  | zero => unfold runUntilBreakpoint; split <;> exact h
  | succ n ih =>
    unfold runUntilBreakpoint
    split
    · exact h
    · cases hst : step s with
      | next t => exact ih ((stepKeepsInvariant s h).1 t hst)
      | fault f => exact (stepKeepsInvariant s h).2 f hst
      | refused r => trivial

/-- Settles O16: each operation is an access, a plain update or a bounded run of steps. -/
theorem hostOperationsKeepInvariant : Obligations.HostOperationsKeepInvariant := fun _ hs =>
  ⟨fun _ ht => ht.inv hs, hostReset_inv hs, fun n => runUntilBreakpoint_inv n hs⟩

/-! ## Registers by name (60_exceptions R407) -/

/-- Settles O60: `readRegisterByName` looks a name up in the two lists of registers. -/
theorem onlySixteenRegisterNames : Obligations.OnlySixteenRegisterNames := by
  refine ⟨fun s r => ?_, fun s r => ?_, fun name s hn => ?_⟩
  · cases r <;> rfl
  · cases r <;> rfl
  · have h32 : (allReg32.find? fun r => Reg32.name r == name) = none :=
      List.find?_eq_none.2 fun r _ hr => hn (by rw [← beq_iff_eq.1 hr]; cases r <;> decide)
    have h8 : (allReg8.find? fun r => Reg8.name r == name) = none :=
      List.find?_eq_none.2 fun r _ hr => hn (by rw [← beq_iff_eq.1 hr]; cases r <;> decide)
    simp only [readRegisterByName, h32, h8, raise]

end Sys2Proof.Machine
end

section
/-! Settles the registers, the flags word and POPF (10_state R33, R41, 41_data_transfer R250). -/

namespace Sys2Proof.Machine

/-! ## Registers and the flags word (10_state R33, R41) -/

/-- A byte of a word, zero-extended, is the word shifted and masked. -/
theorem extractByte_setWidth (x : Word) (n : Nat) :
    (x.extractLsb' n 8).setWidth 32 = (x >>> n) &&& 0xFF#32 := by
  apply BitVec.eq_of_getLsbD_eq
  intro i hi
  rw [BitVec.getLsbD_and, byteMask_getLsbD]
  simp [hi, Bool.and_comm]

/-- Settles O26: the bits of a word one of whose bytes was replaced. -/
theorem registerWrites : Obligations.RegisterWrites := by
  refine ⟨fun s r v => ⟨s.setReg r v, rfl, rfl, State.reg_setReg_self s r v, fun r' hr' => ?_⟩,
    fun s r v => ⟨s.setReg8 r (v.setWidth 8), rfl, rfl, fun r' hr' => ?_, fun i hi => ?_⟩, fun s r => ?_⟩
  · exact State.reg_setReg_other s v (by simpa using hr')
  · exact Regs.get_set_other _ _ (by simpa using hr')
  · show ((s.regs.set8 r (v.setWidth 8)).get (Reg8.parent r)).getLsbD i = _
    rw [Regs.set8, Regs.get_set_self, replaceByte_getLsbD _ _ _ _ hi]
    split
    · next h => rw [BitVec.getLsbD_setWidth, decide_eq_true (by omega), Bool.true_and]
    · rfl
  · exact congrArg (Res.ok · s) (extractByte_setWidth _ _)

/-- The flags word bit by bit (10_state R41). -/
theorem Flags.pack_getLsbD (f : Flags) (i : Nat) : f.pack.getLsbD i =
    if i = 0 then f.cf else if i = 1 then true else if i = 2 then f.pf else if i = 4 then f.af
    else if i = 6 then f.zf else if i = 7 then f.sf else if i = 8 then f.tf else if i = 9 then f.intf
    else if i = 10 then f.df else if i = 11 then f.of else false := by
  rcases Nat.lt_or_ge i 32 with hi | hi
  · unfold Flags.pack
    simp only [BitVec.getLsbD_or, BitVec.getLsbD_shiftLeft, BitVec.getLsbD_setWidth,
      BitVec.getLsbD_ofBool]
    interval_cases i <;> simp
  · rw [BitVec.getLsbD_of_ge _ _ hi]
    simp only [show i ≠ 0 by omega, show i ≠ 1 by omega, show i ≠ 2 by omega, show i ≠ 4 by omega,
      show i ≠ 6 by omega, show i ≠ 7 by omega, show i ≠ 8 by omega, show i ≠ 9 by omega,
      show i ≠ 10 by omega, show i ≠ 11 by omega, if_false]

/-- Settles O27: both directions follow from the bits. -/
theorem flagsWord : Obligations.FlagsWord := by
  refine ⟨Flags.pack_getLsbD, fun f => ?_, fun w => ?_⟩
  · simp only [Flags.unpack, Flags.pack_getLsbD]
    rfl
  · apply BitVec.eq_of_getLsbD_eq
    intro i hi
    rw [Flags.pack_getLsbD, BitVec.getLsbD_or, BitVec.getLsbD_and]
    interval_cases i <;> simp [Flags.unpack]

/-! ## POPF (41_data_transfer R250) -/

/-- Settles O33: the pop, then the flags of the word popped. -/
theorem popfLoadsFlags : Obligations.PopfLoadsFlags := fun s h => by
  obtain ⟨t, ht, honly, hmem, hprot⟩ := pop_accessible h
  have hexec : exec .popf s = .next { t with
      flags := Flags.unpack (loadedValue (s.reg .esp) .dword s)
      interruptEnabled := (Flags.unpack (loadedValue (s.reg .esp) .dword s)).intf } := by
    simp only [exec, execPopf, ht, Res.bind_ok, Res.outcome_ok]
  refine ⟨_, _, hexec, rfl, ?_, hmem.congr rfl rfl rfl, fun r hr => ?_, ?_, hprot, rfl⟩
  · rw [honly]; rfl
  · rw [honly]
    exact State.reg_setReg_other s _ (by simpa using hr)
  · rw [honly]
    exact State.reg_setReg_self s .esp _

end Sys2Proof.Machine
end

section
/-! Settles which frame a page fault takes (20_memory R85, R88, R90, R91). -/

namespace Sys2Proof.Machine

/-- What a page fault leaves of `k`, the MMU after the allocation: the frame filled, the page mapped to
it and put into the TLB (20_memory R88). -/
def Mmu.mapped (p : Params) (page f : Nat) (k : Mmu) : Mmu :=
  ((k.fillFrame p f).mapPage page f).tlbInsert page f

section
variable {p : Params} {m k : Mmu} {f : Nat}

/-- A translation of a page that has no frame allocates one and maps the page to it. -/
theorem Mmu.translate_fault {v : Word} (ht : tableFind m.tlb (pageOf v) = none)
    (hr : m.residentFrame (pageOf v) = none) :
    m.translate p v = m.countTlbMiss.countPageFault.allocFrame.bind fun f k =>
      .ok (frameAddr f (offsetOf v)) (k.mapped p (pageOf v) f) := by
  have hr' : m.countTlbMiss.residentFrame (pageOf v) = none := hr
  simp only [Mmu.translate, Mmu.walk, Mmu.pageFault, ht, hr']
  cases m.countTlbMiss.countPageFault.allocFrame <;> rfl

@[simp] theorem Mmu.mapped_freeFrames (page : Nat) :
    (k.mapped p page f).freeFrames = k.freeFrames := by
  unfold Mmu.mapped
  rw [Mmu.fillFrame_eq]
  rfl

@[simp] theorem Mmu.mapped_resident (page : Nat) :
    (k.mapped p page f).residentFrame page = some f := Mmu.mapPage_resident page f _

theorem Mmu.mapped_other {page q : Nat} (h : q ≠ page) :
    (k.mapped p page f).residentFrame q = k.residentFrame q :=
  (Mmu.mapPage_other h).trans (Mmu.fillFrame_residentFrame f q)

@[simp] theorem Mmu.mapped_getLast? (page : Nat) :
    (k.mapped p page f).pageDir.getLast? = some (page, newEntry f) := List.getLast?_concat

/-- The first page of the directory that is not protected is the victim (20_memory R90). -/
theorem Mmu.victim_of_append {pre post : List (Nat × PageTableEntry)} {d : Nat × PageTableEntry}
    (hd : m.pageDir = pre ++ d :: post) (hpre : ∀ c ∈ pre, c.1 ∈ m.protectedPages)
    (hn : d.1 ∉ m.protectedPages) : m.victim = some d := by
  unfold Mmu.victim
  rw [hd, List.find?_eq_some_iff_append]
  exact ⟨by simpa using hn, pre, post, rfl, fun c hc => by simpa using hpre c hc⟩

theorem Mmu.evict_of_find {page : Nat} {e : PageTableEntry} (h : tableFind m.pageDir page = some e) :
    m.evict page = { m with
      pageDir := tableErase m.pageDir page
      tlb := tableErase m.tlb page
      freeFrames := setInsert m.freeFrames e.frameNumber } := by
  unfold Mmu.evict; rw [h]

/-- An evicted page is not resident (20_memory R91). -/
theorem Mmu.evict_self (page : Nat) : (m.evict page).residentFrame page = none := by
  cases h : tableFind m.pageDir page with
  | none => unfold Mmu.evict Mmu.residentFrame; simp only [h]
  | some e => rw [Mmu.evict_of_find h]; unfold Mmu.residentFrame; simp [tableFind_tableErase]

/-- The smallest element of a rising list is its head. -/
theorem rising_head {l : List Nat} (h : l.Pairwise (· < ·)) (hf : f ∈ l) (hmin : ∀ g ∈ l, f ≤ g) :
    ∃ rest, l = f :: rest ∧ ∀ g, g ∈ rest ↔ g ∈ l ∧ g ≠ f := by
  cases l with
  | nil => cases hf
  | cons a rest =>
    obtain ⟨h1, -⟩ := List.pairwise_cons.1 h
    have ha : f = a := by
      rcases List.mem_cons.1 hf with hf | hf
      · exact hf
      · have := h1 f hf
        have := hmin a List.mem_cons_self
        omega
    subst ha
    refine ⟨rest, rfl, fun g => ⟨fun hg => ⟨List.mem_cons_of_mem _ hg, ?_⟩, fun ⟨hg, hne⟩ => ?_⟩⟩
    · exact (h1 g hg).ne'
    · exact (List.mem_cons.1 hg).resolve_left hne

/-- The frame a page fault takes when one is free. -/
theorem Mmu.translate_free {v : Word} {rest : List Nat} (ht : tableFind m.tlb (pageOf v) = none)
    (hr : m.residentFrame (pageOf v) = none) (hf : m.freeFrames = f :: rest) :
    m.translate p v = .ok (frameAddr f (offsetOf v))
      (Mmu.mapped p (pageOf v) f { m.countTlbMiss.countPageFault with freeFrames := rest }) := by
  have hf' : m.countTlbMiss.countPageFault.freeFrames = f :: rest := hf
  simp only [Mmu.translate_fault ht hr, Mmu.allocFrame, hf', MmuResult.bind_ok]

/-- The frame a page fault takes when none is free. -/
theorem Mmu.translate_evict {v : Word} {page : Nat} {e : PageTableEntry}
    (ht : tableFind m.tlb (pageOf v) = none) (hr : m.residentFrame (pageOf v) = none)
    (hf : m.freeFrames = []) (hv : m.victim = some (page, e)) :
    m.translate p v = .ok (frameAddr e.frameNumber (offsetOf v))
      (Mmu.mapped p (pageOf v) e.frameNumber { m.countTlbMiss.countPageFault.evict page with
        freeFrames := setErase (m.countTlbMiss.countPageFault.evict page).freeFrames e.frameNumber }) := by
  have hf' : m.countTlbMiss.countPageFault.freeFrames = [] := hf
  have hv' : m.countTlbMiss.countPageFault.victim = some (page, e) := hv
  simp only [Mmu.translate_fault ht hr, Mmu.allocFrame, hf', hv', MmuResult.bind_ok]

end

/-- A page without a frame is neither in the TLB nor in the directory. -/
theorem frameOf_eq_none {s : State} {page : Nat} (h : frameOf s page = none) :
    tableFind s.mmu.tlb page = none ∧ s.mmu.residentFrame page = none := by
  unfold frameOf at h
  split at h
  · cases h
  · next ht => exact ⟨ht, h⟩

/-- Settles O23: the head of the free frames is the smallest, and a victim is evicted only when there
is none. -/
theorem pageFaultTakesAFrame : Obligations.PageFaultTakesAFrame := fun s v hnone => by
  obtain ⟨ht, hr⟩ := frameOf_eq_none hnone
  refine ⟨fun f hdir hf hmin => ?_, fun pre page e post hfree hdir hpre hn => ?_⟩
  · obtain ⟨rest, hfr, hrest⟩ := rising_head hdir.free_rising hf hmin
    refine ⟨_, Mmu.translate_free ht hr hfr, fun g => ?_, Mmu.mapped_resident _,
      Mmu.mapped_getLast? _, fun q hq => Mmu.mapped_other hq⟩
    rw [Mmu.mapped_freeFrames]
    exact hrest g
  · have hvic : s.mmu.victim = some (page, e) := Mmu.victim_of_append hdir hpre hn
    have hfind : tableFind s.mmu.countTlbMiss.countPageFault.pageDir page = some e := by
      have hpn : tableFind pre page = none := by
        by_contra hne
        obtain ⟨x, hx⟩ := Option.ne_none_iff_exists'.1 hne
        exact hn (hpre _ (mem_of_tableFind hx))
      show tableFind s.mmu.pageDir page = some e
      rw [hdir, tableFind_append, hpn, tableFind_cons, if_pos rfl]
      rfl
    refine ⟨_, Mmu.translate_evict ht hr hfree hvic, ?_, Mmu.mapped_resident _, fun hp => ?_,
      Mmu.mapped_getLast? _, fun q hq hq' => ?_⟩
    · rw [Mmu.mapped_freeFrames, Mmu.evict_of_find hfind]
      show setErase (setInsert s.mmu.freeFrames e.frameNumber) e.frameNumber = []
      rw [hfree]
      simp [setInsert, setInsertBy, setErase]
    · exact (Mmu.mapped_other hp).trans (Mmu.evict_self page)
    · exact (Mmu.mapped_other hq).trans (Mmu.evict_other hq')

end Sys2Proof.Machine
end

section
/-! Settles which flags an instruction writes and which one halts (10_state R38, R42): the operand
accesses of an instruction write neither, so its last update decides. -/

namespace Sys2Proof.Machine

/-! ## Operand accesses -/

section
variable {R : State → State → Prop} (h : KeptByAccess R) (hregs : ∀ s g, R s { s with regs := g })
include h

theorem KeptByAccess.readPlace (p : Place) (s : State) : R s (readPlace p s).left := by
  cases p with
  | reg8 r => exact h.refl s
  | reg32 r => exact h.refl s
  | mem w m => exact h.read _ _ _

theorem KeptByAccess.readOperand (o : Operand) (s : State) : R s (readOperand o s).left := by
  cases o with
  | place p => exact h.readPlace p s
  | imm8 v => exact h.refl s
  | imm32 v => exact h.refl s

include hregs

theorem KeptByAccess.writePlace (p : Place) (v : Word) (s : State) : R s (writePlace p v s).left := by
  cases p with
  | reg8 r => exact hregs s _
  | reg32 r => exact hregs s _
  | mem w m => exact h.write _ _ _ _

theorem KeptByAccess.push (v : Word) (s : State) : R s (push v s).left :=
  h.trans (hregs s _) (h.write _ _ v (s.setReg .esp (s.reg .esp - 4)))

theorem KeptByAccess.pop (s : State) : R s (pop s).left :=
  h.bind (h.read _ _ _) fun _ t => hregs t _

end

/-- The flags and `halted` are the same. -/
structure FlagsKept (s t : State) : Prop where
  flags : t.flags = s.flags
  halted : t.halted = s.halted

theorem FlagsKept.refl (s : State) : FlagsKept s s := ⟨rfl, rfl⟩

theorem flagsKept_keptByAccess : KeptByAccess FlagsKept where
  refl := .refl
  trans h h' := ⟨h'.flags.trans h.flags, h'.halted.trans h.halted⟩
  read v w s := by rw [memRead_left]; exact ⟨rfl, rfl⟩
  write v w x s := by rw [memWrite_left]; exact ⟨rfl, rfl⟩

theorem FlagsKept.writePlace (p : Place) (v : Word) (s : State) :
    FlagsKept s (Machine.writePlace p v s).left :=
  flagsKept_keptByAccess.writePlace (fun _ _ => ⟨rfl, rfl⟩) p v s

theorem FlagsKept.push (v : Word) (s : State) : FlagsKept s (Machine.push v s).left :=
  flagsKept_keptByAccess.push (fun _ _ => ⟨rfl, rfl⟩) v s

theorem FlagsKept.pop (s : State) : FlagsKept s (Machine.pop s).left :=
  flagsKept_keptByAccess.pop (fun _ _ => ⟨rfl, rfl⟩) s

/-! ## The flags an instruction writes -/

/-- The flags an instruction can write, by the classes of the table of 10_state R38. -/
inductive FlagEffect where
  | none
  | status
  | statusNotAf
  | interrupt
  | direction
  | all

/-- What the class lets change of the flags `f`. -/
def FlagEffect.Allows (f g : Flags) : FlagEffect → Prop
  | .none => g = f
  | .status => g = { g with tf := f.tf, intf := f.intf, df := f.df }
  | .statusNotAf => g = { g with af := f.af, tf := f.tf, intf := f.intf, df := f.df }
  | .interrupt => g = { f with intf := g.intf }
  | .direction => g = { f with df := g.df }
  | .all => True

/-- The class of each mnemonic (10_state R38). -/
def flagEffect : Mnemonic → FlagEffect
  | .add | .or | .adc | .sbb | .and | .sub | .xor | .cmp | .test | .inc | .dec | .neg
  | .rdrand | .rdseed => .status
  | .shl | .shr | .mul | .imul | .imul2 => .statusNotAf
  | .cli | .sti => .interrupt
  | .cld | .std => .direction
  | .popf => .all
  | _ => .none

/-- The outcome writes at most the flags of the class, raising keeps them all, and nothing halts. -/
def FlagEffect.Bounds (e : FlagEffect) (s : State) : Outcome → Prop
  | .next t => e.Allows s.flags t.flags ∧ t.halted = s.halted
  | .fault f => FlagsKept s f.left
  | .refused _ => True

namespace FlagEffect

variable {e : FlagEffect} {α : Type}

theorem Bounds.bind {s : State} {r : Res α} {k : α → State → Res Unit} (hr : FlagsKept s r.left)
    (hk : ∀ x t, e.Bounds t (k x t).outcome) : e.Bounds s (r.bind k).outcome := by
  cases r with
  | fault f => exact hr
  | ok x t =>
    obtain ⟨hf, hh⟩ : FlagsKept s t := hr
    have ht := hk x t
    rw [Res.bind_ok]
    cases hkt : k x t with
    | ok y u =>
      rw [hkt] at ht
      obtain ⟨hu, hu'⟩ : e.Allows t.flags u.flags ∧ u.halted = t.halted := ht
      exact ⟨hf ▸ hu, hu'.trans hh⟩
    | fault f =>
      rw [hkt] at ht
      exact flagsKept_keptByAccess.trans ⟨hf, hh⟩ ht

/-- An operation that keeps the flags. -/
theorem Bounds.of_kept {s : State} {r : Res Unit} (h : FlagsKept s r.left) :
    FlagEffect.none.Bounds s r.outcome := by
  cases r with
  | ok x t => exact ⟨h.flags, h.halted⟩
  | fault f => exact h

theorem aluFlags (op : AluOp) (n : Nat) (a b : Word) (c : Bool) (f : Flags) :
    FlagEffect.status.Allows f (op.flags n a b c f) := by
  cases op <;> rfl

theorem aluWrite_bounds (op : AluOp) (w : Width) (dst : Place) (src : Operand) (s : State) :
    FlagEffect.status.Bounds s (aluWrite op w dst src s).outcome :=
  .bind (flagsKept_keptByAccess.readPlace dst s) fun _ t =>
    .bind (flagsKept_keptByAccess.readOperand src t) fun _ _ =>
    .bind (FlagsKept.writePlace dst _ _) fun _ _ => ⟨aluFlags op _ _ _ _ _, rfl⟩

theorem aluTest_bounds (op : AluOp) (w : Width) (dst : Place) (src : Operand) (s : State) :
    FlagEffect.status.Bounds s (aluTest op w dst src s).outcome :=
  .bind (flagsKept_keptByAccess.readPlace dst s) fun _ t =>
    .bind (flagsKept_keptByAccess.readOperand src t) fun _ _ => ⟨aluFlags op _ _ _ _ _, rfl⟩

theorem move_bounds (dst : Place) (src : Operand) (s : State) :
    FlagEffect.none.Bounds s (move dst src s).outcome :=
  .of_kept (flagsKept_keptByAccess.bind (flagsKept_keptByAccess.readOperand src s) fun _ _ =>
    FlagsKept.writePlace dst _ _)

theorem unaryWrite_bounds {f : Word → Word} {g : Word → Flags → Flags} (hg : ∀ a x, e.Allows x (g a x))
    (dst : Place) (s : State) : e.Bounds s (unaryWrite f g dst s).outcome :=
  .bind (flagsKept_keptByAccess.readPlace dst s) fun _ _ =>
    .bind (FlagsKept.writePlace dst _ _) fun _ _ => ⟨hg _ _, rfl⟩

theorem shiftWrite_bounds (op : ShiftOp) (dst : Place) (count : Byte) (s : State) :
    FlagEffect.statusNotAf.Bounds s (shiftWrite op dst count s).outcome :=
  .bind (flagsKept_keptByAccess.readPlace dst s) fun _ _ =>
    .bind (FlagsKept.writePlace dst _ _) fun _ _ => ⟨rfl, rfl⟩

theorem jumpRel8If_bounds (cond : Cond) (rel : Byte) (s : State) :
    FlagEffect.none.Bounds s (jumpRel8If cond rel s).outcome := by
  unfold Machine.jumpRel8If
  split <;> exact ⟨rfl, rfl⟩

theorem drawInto_bounds (dst : Place) (s : State) :
    FlagEffect.status.Bounds s (drawInto dst s).outcome :=
  .bind (flagsKept_keptByAccess.trans (t := afterRandDraw s) ⟨rfl, rfl⟩
    (FlagsKept.writePlace dst (randDraw s) (afterRandDraw s)))
    fun _ _ => ⟨rfl, rfl⟩

/-- Every instruction but HLT writes at most the flags of its class, and does not halt. -/
theorem exec_bounds (i : Instr) (s : State) (hi : i ≠ .hlt) :
    (flagEffect i.mnemonic).Bounds s (exec i s) := by
  have hk := flagsKept_keptByAccess
  cases i with
  | hlt => exact absurd rfl hi
  | adcRm32Imm32 rm imm | adcRm32Imm8 rm imm | sbbRm32Imm32 rm imm | sbbRm32Imm8 rm imm =>
    simp only [exec, execAdcRm32Imm32, execAdcRm32Imm8, execSbbRm32Imm32, execSbbRm32Imm8]
    split
    · trivial
    · exact aluWrite_bounds _ _ _ _ _
  | nop | intImm8 | cli | sti | cld | std | jmpRel8 | jmpTarget32 | rdtsc => exact ⟨rfl, rfl⟩
  | jlTarget32 target =>
    simp only [exec, execJlTarget32]; split <;> exact ⟨rfl, rfl⟩
  | callTarget32 => exact .bind (FlagsKept.push _ _) fun _ _ => ⟨rfl, rfl⟩
  | pushR32 | pushf => exact .of_kept (FlagsKept.push _ _)
  | popR32 | ret => exact .bind (FlagsKept.pop _) fun _ _ => ⟨rfl, rfl⟩
  | popf => exact .bind (FlagsKept.pop _) fun _ _ => ⟨trivial, rfl⟩
  | movAddr32Eax a => exact .of_kept (hk.write _ _ _ _)
  | xchgRm32R32 rm r =>
    exact .of_kept (hk.bind (hk.readPlace _ _) fun _ _ => hk.bind (hk.readPlace _ _) fun _ _ =>
      hk.bind (FlagsKept.writePlace _ _ _) fun _ _ => FlagsKept.writePlace _ _ _)
  | rdrandRm32 | rdseedRm32 => exact drawInto_bounds _ _
  | mulRm32 | imulRm32 => exact .bind (hk.readPlace _ _) fun _ _ => ⟨rfl, rfl⟩
  | imul2R32Rm32 r rm =>
    exact .bind (hk.readPlace _ _) fun _ _ => .bind (hk.readPlace _ _) fun _ _ =>
      .bind (FlagsKept.writePlace _ _ _) fun _ _ => ⟨rfl, rfl⟩
  | divRm32 rm =>
    refine .bind (hk.readPlace _ _) fun x t => ?_
    dsimp only
    split
    · exact FlagsKept.refl t
    · exact ⟨rfl, rfl⟩
  | idivRm32 rm =>
    refine .bind (hk.readPlace _ _) fun x t => ?_
    dsimp only
    split
    · exact FlagsKept.refl t
    · split
      · exact ⟨rfl, rfl⟩
      · exact FlagsKept.refl t
  | incR32 r | decR32 r =>
    simp only [exec, execIncR32, execDecR32]
    exact unaryWrite_bounds (e := .status) (by intros; rfl) _ _
  | notRm32 | negRm32 => exact unaryWrite_bounds (by intros; rfl) _ _
  | andEaxImm32 imm | xorEaxImm32 imm => exact aluWrite_bounds _ _ (.reg32 .eax) (.imm32 imm) s
  | cmpEaxImm32 imm => exact aluTest_bounds _ _ (.reg32 .eax) (.imm32 imm) s
  | movR8Imm8 r imm => exact move_bounds (.reg8 r) (.imm8 imm) s
  | movR32Imm32 r imm => exact move_bounds (.reg32 r) (.imm32 imm) s
  | addRm8R8 | addRm32R32 | addR8Rm8 | addR32Rm32 | orRm8R8 | orRm32R32 | andRm8R8 | andRm32R32
  | subRm8R8 | subRm32R32 | xorRm8R8 | xorRm32R32 | addRm32Imm32 | orRm32Imm32 | andRm32Imm32
  | subRm32Imm32 | xorRm32Imm32 | addRm32Imm8 | orRm32Imm8 | andRm32Imm8 | subRm32Imm8
  | xorRm32Imm8 => exact aluWrite_bounds _ _ _ _ _
  | cmpRm8R8 | cmpRm32R32 | cmpRm32Imm32 | cmpRm32Imm8 | testRm32R32 | testRm32Imm32
  | testRm32Imm32Alt => exact aluTest_bounds _ _ _ _ _
  | movsxdR32Rm32 | movRm8R8 | movRm32R32 => exact move_bounds _ _ _
  | shlRm32Imm8 | shrRm32Imm8 | shlRm32One | shrRm32One => exact shiftWrite_bounds _ _ _ _
  | joRel8 | jnoRel8 | jcRel8 | jncRel8 | jzRel8 | jnzRel8 | jbeRel8 | jaRel8 | jsRel8
  | jnsRel8 | jpRel8 | jnpRel8 | jlRel8 | jgeRel8 | jleRel8 | jgRel8 =>
    exact jumpRel8If_bounds _ _ _

/-! What a class lets change, flag by flag. -/

theorem Allows.tf {f g : Flags} (h : e.Allows f g) (hne : g.tf ≠ f.tf) : e = .all := by
  cases e with
  | all => rfl
  | _ => exact absurd (congrArg Flags.tf h) hne

theorem Allows.intf {f g : Flags} (h : e.Allows f g) (hne : g.intf ≠ f.intf) :
    e = .interrupt ∨ e = .all := by
  cases e with
  | interrupt => exact .inl rfl
  | all => exact .inr rfl
  | _ => exact absurd (congrArg Flags.intf h) hne

theorem Allows.df {f g : Flags} (h : e.Allows f g) (hne : g.df ≠ f.df) :
    e = .direction ∨ e = .all := by
  cases e with
  | direction => exact .inl rfl
  | all => exact .inr rfl
  | _ => exact absurd (congrArg Flags.df h) hne

theorem Allows.af {f g : Flags} (h : e.Allows f g) (hne : g.af ≠ f.af) : e = .status ∨ e = .all := by
  cases e with
  | status => exact .inl rfl
  | all => exact .inr rfl
  | _ => exact absurd (congrArg Flags.af h) hne

theorem Allows.status {f g : Flags} (h : e.Allows f g)
    (hne : g.cf ≠ f.cf ∨ g.zf ≠ f.zf ∨ g.sf ≠ f.sf ∨ g.pf ≠ f.pf ∨ g.of ≠ f.of) :
    e = .status ∨ e = .statusNotAf ∨ e = .all := by
  cases e with
  | status => exact .inl rfl
  | statusNotAf => exact .inr (.inl rfl)
  | all => exact .inr (.inr rfl)
  | _ => rw [h] at hne; simp at hne

end FlagEffect

/-- Settles O12: the class of the instruction bounds what changed, and each class has the mnemonics of
the table. -/
theorem flagWriters : Obligations.FlagWriters := fun i s t ht => by
  have h : (flagEffect i.mnemonic).Allows s.flags t.flags := by
    by_cases hi : i = .hlt
    · subst hi
      obtain rfl : { s with halted := true } = t := Host.Outcome.next.inj ht
      rfl
    · have := FlagEffect.exec_bounds i s hi
      rw [ht] at this
      exact this.1
  refine ⟨fun hne => (?_ : _ → _) (h.tf hne), fun hne => (?_ : _ → _) (h.intf hne),
    fun hne => (?_ : _ → _) (h.df hne), fun hne => (?_ : _ → _) (h.af hne),
    fun hne => (?_ : _ → _) (h.status hne)⟩
  all_goals cases i.mnemonic <;> simp [flagEffect]

/-! ## Halting (10_state R42) -/

/-- HLT is the only instruction that halts, and none ends the halted state. -/
theorem exec_halted {i : Instr} {s t : State} (h : exec i s = .next t) :
    t.halted = true ↔ s.halted = true ∨ i = .hlt := by
  by_cases hi : i = .hlt
  · subst hi
    obtain rfl : { s with halted := true } = t := Host.Outcome.next.inj h
    simp
  · have := FlagEffect.exec_bounds i s hi
    rw [h] at this
    obtain ⟨-, hh⟩ := this
    simp [hi, hh]

/-- An instruction that raises keeps the flags and `halted`. -/
theorem exec_fault_flagsKept {i : Instr} {s : State} {f : Fault} (h : exec i s = .fault f) :
    FlagsKept s f.left := by
  have := FlagEffect.exec_bounds i s (by rintro rfl; cases h)
  rwa [h] at this

theorem fetch_flagsKept (s : State) : FlagsKept s (fetch s).left :=
  flagsKept_keptByAccess.decode s.eip decoder s.eip s

theorem step_fault_flagsKept {s : State} {f : Fault} (h : step s = .fault f) : FlagsKept s f.left := by
  unfold step at h
  split at h
  · cases h
  · have hf := fetch_flagsKept s
    cases hfe : fetch s with
    | fault g =>
      rw [hfe] at hf h
      cases h
      exact hf
    | ok i s1 =>
      rw [hfe] at hf
      simp only [hfe] at h
      cases hex : exec i s1 with
      | next t => rw [hex] at h; cases h
      | refused r => rw [hex] at h; cases h
      | fault g =>
        rw [hex] at h
        cases h
        exact flagsKept_keptByAccess.trans hf (exec_fault_flagsKept hex)

/-- No operation of the host but stepping and reset halts the machine or ends the halted state. -/
theorem HostLeaves.halted {s t : State} (h : HostLeaves s t) : t.halted = s.halted := by
  have hk := flagsKept_keptByAccess
  cases h with
  | namedRegister name => rw [readRegisterByName_left]
  | read v w => exact (hk.read v w s).halted
  | wrote v w x => exact (hk.write v w x s).halted
  | disassembled a => exact (hk.disassembleOne a s).halted
  | disassembledMany n a => exact (hk.disassemble n a s).halted
  | loaded bytes a hl => exact (hk.loadProgram_next (fun _ _ => ⟨rfl, rfl⟩) hl).halted
  | loadRaised bytes a hl => exact (hk.loadProgram_fault hl).halted
  | _ => rfl

/-- Settles O8: of all that a step, an error or the host does, only HLT and reset write `halted`. -/
theorem haltedStepDoesNothing : Obligations.HaltedStepDoesNothing := by
  refine ⟨fun s h => ?_, fun n s h => ?_, fun i s t => exec_halted,
    fun s f hf => (step_fault_flagsKept hf).halted, fun s t ht => ht.halted, fun _ => rfl, rfl⟩
  · unfold step; rw [if_pos h]
  · unfold runUntilBreakpoint; rw [if_pos (.inl h)]

end Sys2Proof.Machine
end

section
/-! Settles what the control flags and the hidden state of the MMU cannot show (10_state R40, R53): a
relation between two states in which an instruction reads the same values, and that every update an
instruction is made of carries over, is carried over by every instruction. -/

namespace Sys2Proof.Machine

/-! ## Two runs side by side -/

/-- Two faults of the same kind with the same data, which leave related states. -/
inductive Fault.Alike (R : State → State → Prop) : Fault → Fault → Prop
  | decodeError {s t : State} (a : Word) (c : DecodeReject) (h : R s t) :
      Alike R (.decodeError a c s) (.decodeError a c t)
  | memoryAccessViolation {s t : State} (v : Word) (a n : Nat) (h : R s t) :
      Alike R (.memoryAccessViolation v a n s) (.memoryAccessViolation v a n t)
  | outOfPhysicalMemory {s t : State} (h : R s t) :
      Alike R (.outOfPhysicalMemory s) (.outOfPhysicalMemory t)
  | divideByZero {s t : State} (a : Word) (h : R s t) : Alike R (.divideByZero a s) (.divideByZero a t)
  | divideOverflow {s t : State} (a : Word) (h : R s t) :
      Alike R (.divideOverflow a s) (.divideOverflow a t)

/-- Two operations that give the same value and related states, or like faults. -/
inductive Res.Alike (R : State → State → Prop) {α : Type} : Res α → Res α → Prop
  | ok {s t : State} (x : α) (h : R s t) : Alike R (.ok x s) (.ok x t)
  | fault {f g : Fault} (h : f.Alike R g) : Alike R (.fault f) (.fault g)

/-- Two outcomes of the same kind that leave related states. -/
inductive Outcome.Alike (R : State → State → Prop) : Outcome → Outcome → Prop
  | next {s t : State} (h : R s t) : Alike R (.next s) (.next t)
  | fault {f g : Fault} (h : f.Alike R g) : Alike R (.fault f) (.fault g)
  | refused (r : Refusal) : Alike R (.refused r) (.refused r)

/-- Flags that differ at most in TF, IF and DF. -/
def Flags.SameStatus (f g : Flags) : Prop := g = { f with tf := g.tf, intf := g.intf, df := g.df }

/-- An update of the flags whose status flags do not depend on TF, IF and DF. -/
def StatusUpdate (u : Flags → Flags) : Prop := ∀ f g : Flags, f.SameStatus g → (u f).SameStatus (u g)

/-- A relation between two states in which an instruction, PUSHF apart, reads the same values, and that
every update an instruction is made of carries over. -/
structure Parallel (R : State → State → Prop) : Prop where
  params : ∀ {s t}, R s t → t.params = s.params
  regs : ∀ {s t}, R s t → t.regs = s.regs
  eip : ∀ {s t}, R s t → t.eip = s.eip
  status : ∀ {s t}, R s t → s.flags.SameStatus t.flags
  clockDraw : ∀ {s t}, R s t → clockDraw t = clockDraw s
  randDraw : ∀ {s t}, R s t → randDraw t = randDraw s
  setRegs : ∀ {s t} g, R s t → R { s with regs := g } { t with regs := g }
  setEip : ∀ {s t} v, R s t → R (s.setEip v) (t.setEip v)
  setFlags : ∀ {s t} {u : Flags → Flags}, StatusUpdate u → R s t →
    R (s.setFlags (u s.flags)) (t.setFlags (u t.flags))
  setControl : ∀ {s t} {u : Flags → Flags} (b : Bool), StatusUpdate u → R s t →
    R { s with flags := u s.flags, interruptEnabled := b }
      { t with flags := u t.flags, interruptEnabled := b }
  halt : ∀ {s t}, R s t → R { s with halted := true } { t with halted := true }
  interrupts : ∀ {s t}, R s t →
    R { s with interrupts := s.interrupts + 1 } { t with interrupts := t.interrupts + 1 }
  clock : ∀ {s t}, R s t → R (afterClockDraw s) (afterClockDraw t)
  rand : ∀ {s t}, R s t → R (afterRandDraw s) (afterRandDraw t)
  read : ∀ {s t} v w, R s t → Res.Alike R (memRead v w s) (memRead v w t)
  write : ∀ {s t} v w x, R s t → Res.Alike R (memWrite v w x s) (memWrite v w x t)

theorem Res.Alike.bind {R : State → State → Prop} {α β : Type} {r r' : Res α}
    {k k' : α → State → Res β} (h : Res.Alike R r r')
    (hk : ∀ x s t, R s t → Res.Alike R (k x s) (k' x t)) : Res.Alike R (r.bind k) (r'.bind k') := by
  cases h with
  | ok x h => exact hk x _ _ h
  | fault h => exact .fault h

theorem Res.Alike.outcome {R : State → State → Prop} {r r' : Res Unit} (h : Res.Alike R r r') :
    Outcome.Alike R r.outcome r'.outcome := by
  cases h with
  | ok _ h => exact .next h
  | fault h => exact .fault h

theorem Flags.SameStatus.cf {f g : Flags} (h : f.SameStatus g) : g.cf = f.cf := by rw [h]

/-- A condition tests no control flag (44_control R331). -/
theorem Flags.SameStatus.holds {f g : Flags} (h : f.SameStatus g) (cond : Cond) :
    cond.holds g = cond.holds f := by
  rw [h]; cases cond <;> rfl

theorem StatusUpdate.const (u : Flags) : StatusUpdate fun _ => u := fun _ _ _ => rfl

/-- The flags of a two-operand operation take CF as an operand. -/
theorem StatusUpdate.alu (op : AluOp) (n : Nat) (a b : Word) :
    StatusUpdate fun f => op.flags n a b f.cf f := fun f g h => by
  dsimp only
  rw [h.cf, h]
  cases op <;> rfl

theorem StatusUpdate.shift (k : ShiftCorner) : StatusUpdate (shiftFlags k) := fun f g h => by
  rw [h]; rfl

theorem StatusUpdate.mul (low : Word) (fits : Bool) : StatusUpdate (mulFlags low fits) := fun f g h => by
  rw [h]; rfl

/-- RDRAND and RDSEED set all six status flags (45_system R378, R379). -/
theorem StatusUpdate.draw : StatusUpdate fun f =>
    { f with cf := true, of := false, sf := false, zf := false, af := false, pf := false } :=
  fun _ _ _ => rfl

theorem StatusUpdate.intf (b : Bool) : StatusUpdate fun f => { f with intf := b } := fun f g h => by
  rw [h]; rfl

theorem StatusUpdate.df (b : Bool) : StatusUpdate fun f => { f with df := b } := fun f g h => by
  rw [h]; rfl

namespace Parallel

variable {R : State → State → Prop} (h : Parallel R) {s t : State}
include h

theorem reg (hR : R s t) (r : Reg32) : t.reg r = s.reg r := congrArg (Regs.get · r) (h.regs hR)

theorem effectiveAddress (hR : R s t) (m : MemOp) :
    Machine.effectiveAddress m t = Machine.effectiveAddress m s := by
  cases m <;> simp only [Machine.effectiveAddress, h.reg hR, h.params hR]

theorem setReg (hR : R s t) (r : Reg32) (v : Word) : R (s.setReg r v) (t.setReg r v) := by
  unfold State.setReg
  rw [h.regs hR]
  exact h.setRegs _ hR

theorem readPlace (hR : R s t) (p : Place) :
    Res.Alike R (Machine.readPlace p s) (Machine.readPlace p t) := by
  cases p with
  | reg8 r => simp only [Machine.readPlace, h.regs hR]; exact .ok _ hR
  | reg32 r => simp only [Machine.readPlace, h.reg hR]; exact .ok _ hR
  | mem w m => simp only [Machine.readPlace, h.effectiveAddress hR]; exact h.read _ _ hR

theorem readOperand (hR : R s t) (o : Operand) :
    Res.Alike R (Machine.readOperand o s) (Machine.readOperand o t) := by
  cases o with
  | place p => exact h.readPlace hR p
  | imm8 v => exact .ok _ hR
  | imm32 v => exact .ok _ hR

theorem writePlace (hR : R s t) (p : Place) (v : Word) :
    Res.Alike R (Machine.writePlace p v s) (Machine.writePlace p v t) := by
  cases p with
  | reg8 r =>
    simp only [Machine.writePlace, State.setReg8, h.regs hR]
    exact .ok _ (h.setRegs _ hR)
  | reg32 r => exact .ok _ (h.setReg hR r v)
  | mem w m => simp only [Machine.writePlace, h.effectiveAddress hR]; exact h.write _ _ _ hR

theorem push (hR : R s t) (v : Word) : Res.Alike R (Machine.push v s) (Machine.push v t) := by
  unfold Machine.push
  rw [h.reg hR]
  exact h.write _ _ _ (h.setReg hR _ _)

theorem pop (hR : R s t) : Res.Alike R (Machine.pop s) (Machine.pop t) := by
  unfold Machine.pop
  rw [h.reg hR]
  refine (h.read _ _ hR).bind fun v s t hR => ?_
  rw [h.reg hR]
  exact .ok v (h.setReg hR _ _)

theorem aluWrite (hR : R s t) (op : AluOp) (w : Width) (dst : Place) (src : Operand) :
    Res.Alike R (Machine.aluWrite op w dst src s) (Machine.aluWrite op w dst src t) := by
  refine (h.readPlace hR dst).bind fun a s t hR => (h.readOperand hR src).bind fun b s t hR => ?_
  rw [(h.status hR).cf]
  refine (h.writePlace hR dst _).bind fun _ s t hR => ?_
  rw [h.params hR]
  exact .ok _ (h.setFlags (.alu op _ a b) hR)

theorem aluTest (hR : R s t) (op : AluOp) (w : Width) (dst : Place) (src : Operand) :
    Res.Alike R (Machine.aluTest op w dst src s) (Machine.aluTest op w dst src t) := by
  refine (h.readPlace hR dst).bind fun a s t hR => (h.readOperand hR src).bind fun b s t hR => ?_
  rw [h.params hR]
  exact .ok _ (h.setFlags (.alu op _ a b) hR)

theorem move (hR : R s t) (dst : Place) (src : Operand) :
    Res.Alike R (Machine.move dst src s) (Machine.move dst src t) :=
  (h.readOperand hR src).bind fun v _ _ hR => h.writePlace hR dst v

theorem unaryWrite (hR : R s t) (f : Word → Word) {g : Word → Flags → Flags} (hg : ∀ a, StatusUpdate (g a))
    (dst : Place) : Res.Alike R (Machine.unaryWrite f g dst s) (Machine.unaryWrite f g dst t) :=
  (h.readPlace hR dst).bind fun a _ _ hR => (h.writePlace hR dst (f a)).bind fun _ _ _ hR =>
    .ok _ (h.setFlags (hg a) hR)

theorem shiftWrite (hR : R s t) (op : ShiftOp) (dst : Place) (count : Byte) :
    Res.Alike R (Machine.shiftWrite op dst count s) (Machine.shiftWrite op dst count t) := by
  refine (h.readPlace hR dst).bind fun a s t hR => ?_
  rw [h.params hR]
  refine (h.writePlace hR dst _).bind fun _ s t hR => ?_
  rw [h.params hR]
  exact .ok _ (h.setFlags (.shift _) hR)

theorem jumpRel8 (hR : R s t) (rel : Byte) : R (Machine.jumpRel8 rel s) (Machine.jumpRel8 rel t) := by
  unfold Machine.jumpRel8
  rw [h.eip hR]
  exact h.setEip _ hR

theorem jumpRel8If (hR : R s t) (cond : Cond) (rel : Byte) :
    Res.Alike R (Machine.jumpRel8If cond rel s) (Machine.jumpRel8If cond rel t) := by
  unfold Machine.jumpRel8If
  rw [(h.status hR).holds]
  split
  · exact .ok _ (h.jumpRel8 hR rel)
  · exact .ok _ hR

theorem drawInto (hR : R s t) (dst : Place) :
    Res.Alike R (Machine.drawInto dst s) (Machine.drawInto dst t) := by
  unfold Machine.drawInto
  rw [h.randDraw hR]
  exact (h.writePlace (h.rand hR) dst _).bind fun _ _ _ hR =>
    .ok _ (h.setFlags .draw hR)

/-- Every instruction carries the relation over; PUSHF, which stores the control flags, where they are
the same. -/
theorem exec (hR : R s t) (i : Instr) (hi : i = .pushf → t.flags = s.flags) :
    Outcome.Alike R (Machine.exec i s) (Machine.exec i t) := by
  cases i with
  | pushf =>
    simp only [Machine.exec, execPushf, hi rfl]
    exact (h.push hR _).outcome
  | adcRm32Imm32 | adcRm32Imm8 | sbbRm32Imm32 | sbbRm32Imm8 =>
    simp only [Machine.exec, execAdcRm32Imm32, execAdcRm32Imm8, execSbbRm32Imm32, execSbbRm32Imm8,
      h.params hR]
    split
    · exact .refused _
    · exact (h.aluWrite hR _ _ _ _).outcome
  | nop => exact .next hR
  | hlt => exact .next (h.halt hR)
  | intImm8 => exact .next (h.interrupts hR)
  | cli | sti => exact .next (h.setControl _ (.intf _) hR)
  | cld | std => exact .next (h.setFlags (.df _) hR)
  | jmpRel8 => exact .next (h.jumpRel8 hR _)
  | jmpTarget32 => exact .next (h.setEip _ hR)
  | jlTarget32 =>
    simp only [Machine.exec, execJlTarget32, (h.status hR).holds]
    split
    · exact .next (h.setEip _ hR)
    · exact .next hR
  | callTarget32 =>
    simp only [Machine.exec, execCallTarget32, h.eip hR]
    exact ((h.push hR _).bind fun _ _ _ hR => .ok _ (h.setEip _ hR)).outcome
  | ret => exact ((h.pop hR).bind fun v _ _ hR => .ok _ (h.setEip v hR)).outcome
  | pushR32 =>
    simp only [Machine.exec, execPushR32, h.reg hR]
    exact (h.push hR _).outcome
  | popR32 r => exact ((h.pop hR).bind fun v _ _ hR => .ok _ (h.setReg hR r v)).outcome
  | popf =>
    exact ((h.pop hR).bind fun v _ _ hR =>
      .ok _ (h.setControl (Flags.unpack v).intf (.const (Flags.unpack v)) hR)).outcome
  | movAddr32Eax =>
    simp only [Machine.exec, execMovAddr32Eax, h.reg hR]
    exact (h.write _ _ _ hR).outcome
  | xchgRm32R32 rm r =>
    exact ((h.readPlace hR _).bind fun a _ _ hR => (h.readPlace hR _).bind fun b _ _ hR =>
      (h.writePlace hR (Rm32.place rm) b).bind fun _ _ _ hR => h.writePlace hR (.reg32 r) a).outcome
  | rdtsc =>
    simp only [Machine.exec, execRdtsc, h.clockDraw hR]
    exact .next (h.setReg (h.setReg (h.clock hR) _ _) _ _)
  | rdrandRm32 | rdseedRm32 => exact (h.drawInto hR _).outcome
  | mulRm32 | imulRm32 =>
    refine ((h.readPlace hR _).bind fun x s t hR => ?_).outcome
    rw [h.reg hR]
    exact .ok _ (h.setFlags (.mul _ _) (h.setReg (h.setReg hR _ _) _ _))
  | imul2R32Rm32 r rm =>
    refine ((h.readPlace hR _).bind fun a _ _ hR => (h.readPlace hR _).bind fun b _ _ hR => ?_).outcome
    exact (h.writePlace hR (.reg32 r) _).bind fun _ _ _ hR => .ok _ (h.setFlags (.mul _ _) hR)
  | divRm32 =>
    refine ((h.readPlace hR _).bind fun x s t hR => ?_).outcome
    rw [h.reg hR, h.eip hR]
    dsimp only
    split
    · exact .fault (.divideByZero _ hR)
    · exact .ok _ (h.setReg (h.setReg hR _ _) _ _)
  | idivRm32 =>
    refine ((h.readPlace hR _).bind fun x s t hR => ?_).outcome
    rw [h.reg hR, h.eip hR, h.params hR]
    dsimp only
    split
    · exact .fault (.divideByZero _ hR)
    · split
      · exact .ok _ (h.setReg (h.setReg hR _ _) _ _)
      · exact .fault (.divideOverflow _ hR)
  | incR32 r | decR32 r =>
    simp only [Machine.exec, execIncR32, execDecR32]
    exact (h.unaryWrite hR _ (fun a f g hf => by rw [hf]; rfl) _).outcome
  | notRm32 =>
    exact (h.unaryWrite hR _ (fun _ _ _ hf => hf) _).outcome
  | negRm32 =>
    exact (h.unaryWrite hR _ (fun a f g hf => by rw [hf]; rfl) _).outcome
  | andEaxImm32 | xorEaxImm32 =>
    simp only [Machine.exec, execAndEaxImm32, execXorEaxImm32]
    exact (h.aluWrite hR _ _ _ _).outcome
  | cmpEaxImm32 =>
    simp only [Machine.exec, execCmpEaxImm32]
    exact (h.aluTest hR _ _ _ _).outcome
  | movR8Imm8 | movR32Imm32 =>
    simp only [Machine.exec, execMovR8Imm8, execMovR32Imm32]
    exact (h.move hR _ _).outcome
  | addRm8R8 | addRm32R32 | addR8Rm8 | addR32Rm32 | orRm8R8 | orRm32R32 | andRm8R8 | andRm32R32
  | subRm8R8 | subRm32R32 | xorRm8R8 | xorRm32R32 | addRm32Imm32 | orRm32Imm32 | andRm32Imm32
  | subRm32Imm32 | xorRm32Imm32 | addRm32Imm8 | orRm32Imm8 | andRm32Imm8 | subRm32Imm8
  | xorRm32Imm8 => exact (h.aluWrite hR _ _ _ _).outcome
  | cmpRm8R8 | cmpRm32R32 | cmpRm32Imm32 | cmpRm32Imm8 | testRm32R32 | testRm32Imm32
  | testRm32Imm32Alt => exact (h.aluTest hR _ _ _ _).outcome
  | movsxdR32Rm32 | movRm8R8 | movRm32R32 => exact (h.move hR _ _).outcome
  | shlRm32Imm8 | shrRm32Imm8 | shlRm32One | shrRm32One => exact (h.shiftWrite hR _ _ _).outcome
  | joRel8 | jnoRel8 | jcRel8 | jncRel8 | jzRel8 | jnzRel8 | jbeRel8 | jaRel8 | jsRel8
  | jnsRel8 | jpRel8 | jnpRel8 | jlRel8 | jgeRel8 | jleRel8 | jgRel8 =>
    exact (h.jumpRel8If hR _ _).outcome

/-- A decode makes the same reads. -/
theorem onMmu (hR : R s t) (start : Word) (f : Fetch) (a : Word) :
    Res.Alike R (Fetch.onMmu start f a s) (Fetch.onMmu start f a t) := by
  induction f generalizing a s t with
  | done i => exact .ok i hR
  | reject e => exact .fault (.decodeError start e hR)
  | byte k ih => exact (h.read _ _ hR).bind fun _ _ _ hR => ih _ hR _
  | dword k ih => exact (h.read _ _ hR).bind fun _ _ _ hR => ih _ hR _

theorem fetch (hR : R s t) : Res.Alike R (Machine.fetch s) (Machine.fetch t) := by
  unfold Machine.fetch
  rw [h.eip hR]
  exact h.onMmu hR _ _ _

end Parallel

/-- Two MMU operations that give the same value or error and related MMUs. -/
inductive MmuResult.Alike (E : Mmu → Mmu → Prop) {α : Type} : MmuResult α → MmuResult α → Prop
  | ok {m n : Mmu} (x : α) (h : E m n) : Alike E (.ok x m) (.ok x n)
  | err {m n : Mmu} (e : MmuError) (h : E m n) : Alike E (.err e m) (.err e n)

theorem MmuResult.Alike.refl {α : Type} (r : MmuResult α) : MmuResult.Alike Eq r r := by
  cases r with
  | ok x m => exact .ok x rfl
  | err e m => exact .err e rfl

theorem MmuResult.Alike.bind {E F : Mmu → Mmu → Prop} {α β : Type} {r r' : MmuResult α}
    {k : α → Mmu → MmuResult β} (h : MmuResult.Alike E r r') (hEF : ∀ m n, E m n → F m n)
    (hk : ∀ x m n, E m n → MmuResult.Alike F (k x m) (k x n)) :
    MmuResult.Alike F (r.bind k) (r'.bind k) := by
  cases h with
  | ok x h => exact hk x _ _ h
  | err e h => exact .err e (hEF _ _ h)

/-- Accesses made from two states whose transactions agree. -/
theorem MmuResult.Alike.liftMmu {E : Mmu → Mmu → Prop} {R : State → State → Prop} {α : Type}
    {s t : State} {r r' : MmuResult α} (h : MmuResult.Alike E r r')
    (hE : ∀ m n, E m n → R (s.setMmu m) (t.setMmu n)) :
    Res.Alike R (Machine.liftMmu s r) (Machine.liftMmu t r') := by
  cases h with
  | ok x h => exact .ok x (hE _ _ h)
  | err e h =>
    cases e with
    | memoryAccessViolation v a k => exact .fault (.memoryAccessViolation v a k (hE _ _ h))
    | outOfPhysicalMemory => exact .fault (.outOfPhysicalMemory (hE _ _ h))

/-! ## The control flags (10_state R40) -/

theorem State.SameButControlFlags.status {s t : State} (h : s.SameButControlFlags t) :
    s.flags.SameStatus t.flags := by rw [h]; rfl

/-- States that differ only in control flags still do so when their status flags become the same. -/
theorem State.SameButControlFlags.of_status {s t : State} (h : s.SameButControlFlags t) {f g : Flags}
    (hf : f.SameStatus g) (b c : Bool) :
    State.SameButControlFlags { s with flags := f, interruptEnabled := b }
      { t with flags := g, interruptEnabled := c } := by
  unfold State.SameButControlFlags
  rw [← show g = { f with tf := g.tf, intf := g.intf, df := g.df } from hf]
  exact congrArg (fun u : State => { u with flags := g, interruptEnabled := c }) h

theorem State.SameButControlFlags.setMmu {s t : State} (h : s.SameButControlFlags t) {m n : Mmu}
    (hm : m = n) : (s.setMmu m).SameButControlFlags (t.setMmu n) :=
  hm ▸ congrArg (State.setMmu · m) h

theorem controlFlags_parallel : Parallel State.SameButControlFlags where
  params h := by rw [h]
  regs h := by rw [h]
  eip h := by rw [h]
  status h := h.status
  clockDraw h := by rw [h]; rfl
  randDraw h := by rw [h]; rfl
  setRegs g h := congrArg (fun u : State => ({ u with regs := g } : State)) h
  setEip v h := congrArg (State.setEip · v) h
  setFlags hu h := h.of_status (hu _ _ h.status) _ _
  setControl b hu h := h.of_status (hu _ _ h.status) b b
  halt h := congrArg (fun u : State => ({ u with halted := true } : State)) h
  interrupts h := congrArg (fun u : State => ({ u with interrupts := u.interrupts + 1 } : State)) h
  clock h := congrArg afterClockDraw h
  rand h := congrArg afterRandDraw h
  read {s t} v w h := by
    unfold memRead
    rw [show t.mmu = s.mmu by rw [h], show t.params = s.params by rw [h]]
    exact (MmuResult.Alike.refl _).liftMmu fun _ _ => h.setMmu
  write {s t} v w x h := by
    unfold memWrite
    rw [show t.mmu = s.mmu by rw [h], show t.params = s.params by rw [h]]
    exact (MmuResult.Alike.refl _).liftMmu fun _ _ => h.setMmu

/-- Settles O13: the two runs go side by side. -/
theorem controlFlagsAreInert : Obligations.ControlFlagsAreInert := fun i s s' t hi hs ht => by
  have h := controlFlags_parallel.exec hs i fun he => absurd he hi
  rw [ht] at h
  generalize exec i s' = o at h
  cases h with
  | next h => exact ⟨_, rfl, h⟩

end Sys2Proof.Machine
end

section
/-! Settles that the TLB, the caches, the cache clock and the counters decide no value (10_state R53):
under the invariant the TLB gives a page the frame the directory gives it, and the caches hold no data. -/

namespace Sys2Proof.Machine

/-! ## MMUs that share their data -/

theorem Mmu.SameData.symm {m n : Mmu} (h : m.SameData n) : n.SameData m := by
  obtain ⟨h1, h2, h3, h4, h5⟩ := h
  exact ⟨h1.symm, h2.symm, h3.symm, h4.symm, h5.symm⟩

theorem Mmu.SameData.trans {m n k : Mmu} (h : m.SameData n) (h' : n.SameData k) : m.SameData k := by
  obtain ⟨h1, h2, h3, h4, h5⟩ := h
  obtain ⟨h1', h2', h3', h4', h5'⟩ := h'
  exact ⟨h1.trans h1', h2.trans h2', h3.trans h3', h4.trans h4', h5.trans h5'⟩

theorem Mmu.SameButCaches.sameData {m n : Mmu} (h : m.SameButCaches n) : m.SameData n :=
  ⟨h.phys.symm, h.pageDir.symm, h.freeFrames.symm, h.protectedPages.symm, h.fillDraws.symm⟩

theorem Mmu.SameData.residentFrame {m n : Mmu} (h : m.SameData n) (page : Nat) :
    n.residentFrame page = m.residentFrame page := by
  obtain ⟨-, hdir, -⟩ := h
  unfold Mmu.residentFrame
  rw [hdir]

/-- Frame allocation reads only data (20_memory R90). -/
theorem Mmu.SameData.allocFrame {m n : Mmu} (h : m.SameData n) :
    MmuResult.Alike Mmu.SameData m.allocFrame n.allocFrame := by
  obtain ⟨phys, dir, free, prot, tlb, l1, l2, clock, counters, draws⟩ := m
  obtain ⟨phys', dir', free', prot', tlb', l1', l2', clock', counters', draws'⟩ := n
  obtain ⟨rfl, rfl, rfl, rfl, rfl⟩ := h
  unfold Mmu.allocFrame Mmu.victim Mmu.evict
  dsimp only
  cases free with
  | cons f rest => exact .ok f ⟨rfl, rfl, rfl, rfl, rfl⟩
  | nil =>
    dsimp only
    cases dir.find? fun e => decide (e.1 ∉ prot) with
    | none => exact .err _ ⟨rfl, rfl, rfl, rfl, rfl⟩
    | some d =>
      dsimp only
      cases tableFind dir d.1 <;> exact .ok _ ⟨rfl, rfl, rfl, rfl, rfl⟩

/-- The contents of a frame depend only on data (20_memory R92). -/
theorem Mmu.SameData.fillFrame {m n : Mmu} (h : m.SameData n) (p : Params) (f : Nat) :
    (m.fillFrame p f).SameData (n.fillFrame p f) := by
  obtain ⟨phys, dir, free, prot, tlb, l1, l2, clock, counters, draws⟩ := m
  obtain ⟨phys', dir', free', prot', tlb', l1', l2', clock', counters', draws'⟩ := n
  obtain ⟨rfl, rfl, rfl, rfl, rfl⟩ := h
  unfold Mmu.fillFrame
  cases p.frameFill <;> exact ⟨rfl, rfl, rfl, rfl, rfl⟩

/-- What a page fault leaves depends only on data (20_memory R88). -/
theorem Mmu.SameData.mapped {m n : Mmu} (h : m.SameData n) (p : Params) (page f : Nat) :
    (m.mapped p page f).SameData (n.mapped p page f) := by
  obtain ⟨hphys, hdir, hfree, hprot, hdraws⟩ := h.fillFrame p f
  exact ⟨hphys, congrArg (tableErase · page ++ [(page, newEntry f)]) hdir, hfree, hprot, hdraws⟩

/-- A resident page translates to the frame the directory gives it, in the TLB or not. -/
theorem Mmu.translate_resident {p : Params} {m : Mmu} {v : Word} {f : Nat} (ht : TlbInv m)
    (hr : m.residentFrame (pageOf v) = some f) :
    ∃ n, m.translate p v = .ok (frameAddr f (offsetOf v)) n ∧ m.SameData n := by
  obtain ⟨-, -, htlb⟩ := ht
  rcases m.translate_cases p v with ⟨g, hg, h⟩ | ⟨_, g, hg, h⟩ | ⟨_, hn, _⟩ | ⟨_, hn, _⟩
  · obtain rfl : g = f := Option.some.inj ((htlb _ (mem_of_tableFind hg)).symm.trans hr)
    exact ⟨_, h, rfl, rfl, rfl, rfl, rfl⟩
  · obtain rfl : g = f := Option.some.inj (hg.symm.trans hr)
    exact ⟨_, h, rfl, rfl, rfl, rfl, rfl⟩
  · rw [hr] at hn; cases hn
  · rw [hr] at hn; cases hn

/-- A page the directory does not have is not in the TLB. -/
theorem TlbInv.find_none {m : Mmu} (ht : TlbInv m) {page : Nat} (hr : m.residentFrame page = none) :
    tableFind m.tlb page = none := by
  obtain ⟨-, -, htlb⟩ := ht
  by_contra hne
  obtain ⟨f, hf⟩ := Option.ne_none_iff_exists'.1 hne
  have := htlb _ (mem_of_tableFind hf)
  rw [hr] at this
  cases this

/-- Translation finds the same frame whatever the TLB holds. -/
theorem Mmu.SameData.translate {p : Params} {m n : Mmu} (h : m.SameData n) (hm : TlbInv m)
    (hn : TlbInv n) (v : Word) : MmuResult.Alike Mmu.SameData (m.translate p v) (n.translate p v) := by
  cases hr : m.residentFrame (pageOf v) with
  | some f =>
    obtain ⟨m', hm', hsm⟩ := Mmu.translate_resident (p := p) hm hr
    obtain ⟨n', hn', hsn⟩ := Mmu.translate_resident (p := p) hn ((h.residentFrame _).trans hr)
    rw [hm', hn']
    exact .ok _ (hsm.symm.trans (h.trans hsn))
  | none =>
    have hr' := (h.residentFrame _).trans hr
    rw [Mmu.translate_fault (hm.find_none hr) hr, Mmu.translate_fault (hn.find_none hr') hr']
    have hcount : m.countTlbMiss.countPageFault.SameData n.countTlbMiss.countPageFault := h
    exact hcount.allocFrame.bind (fun _ _ h => h) fun f _ _ h => .ok _ (h.mapped p _ f)

/-! ## The accesses -/

/-- Two MMUs that share their data and whose TLBs agree with the page directory. -/
structure Mmu.Agree (p : Params) (m n : Mmu) : Prop where
  data : m.SameData n
  dir : DirInv p m
  dir' : DirInv p n
  tlb : TlbInv m
  tlb' : TlbInv n

/-- Caches and counters do not matter. -/
theorem Mmu.Agree.of_caches {p : Params} {m n m' n' : Mmu} (h : m.Agree p n) (hm : m.SameButCaches m')
    (hn : n.SameButCaches n') : m'.Agree p n' := by
  have hdir : ∀ {k k' : Mmu}, k.SameButCaches k' → DirInv p k → DirInv p k' := fun hs hd => by
    unfold DirInv Mmu.ownedFrames; rwa [hs.pageDir, hs.freeFrames]
  have htlb : ∀ {k k' : Mmu}, k.SameButCaches k' → TlbInv k → TlbInv k' := fun hs ht => by
    unfold TlbInv Mmu.residentFrame; rwa [hs.tlb, hs.pageDir]
  exact ⟨hm.sameData.symm.trans (h.data.trans hn.sameData), hdir hm h.dir, hdir hn h.dir',
    htlb hm h.tlb, htlb hn h.tlb'⟩

theorem Mmu.Agree.translate {p : Params} {m n : Mmu} (h : m.Agree p n) (v : Word) :
    MmuResult.Alike (Mmu.Agree p) (m.translate p v) (n.translate p v) := by
  obtain ⟨hd, ht⟩ := h.dir.translate h.tlb v
  obtain ⟨hd', ht'⟩ := h.dir'.translate h.tlb' v
  have hs := h.data.translate (p := p) h.tlb h.tlb' v
  generalize m.translate p v = r at *
  generalize n.translate p v = r' at *
  cases hs with
  | ok x hs => exact .ok x ⟨hs, hd, hd', ht, ht'⟩
  | err e hs => exact .err e ⟨hs, hd, hd', ht, ht'⟩

/-- A cached read gives the stored bytes, whatever the caches hold (20_memory R94, R95). -/
theorem Mmu.Agree.readAt {p : Params} {m n : Mmu} (h : m.Agree p n) (v : Word) (a : Nat) (w : Width) :
    MmuResult.Alike (Mmu.Agree p) (m.readAt p v a w) (n.readAt p v a w) := by
  obtain ⟨m', hm, hrm⟩ := Mmu.readAt_spec p v a w m
  obtain ⟨n', hn, hrn⟩ := Mmu.readAt_spec p v a w n
  obtain ⟨hphys, -⟩ := h.data
  rw [hrm, hrn, hphys]
  split
  · exact .ok _ (h.of_caches hm hn)
  · exact .err _ (h.of_caches hm hn)

theorem Mmu.Agree.writeAt {p : Params} {m n : Mmu} (h : m.Agree p n) (v : Word) (a : Nat) (w : Width)
    (x : Word) : MmuResult.Alike (Mmu.Agree p) (m.writeAt p v a w x) (n.writeAt p v a w x) := by
  rw [Mmu.writeAt_eq, Mmu.writeAt_eq]
  split
  · obtain ⟨⟨hphys, hdata⟩, hd, hd', ht, ht'⟩ := h
    exact .ok _ ⟨⟨congrArg (Memory.writeBytes · a (wordBytes w.bytes x)) hphys, hdata⟩, hd, hd', ht, ht'⟩
  · exact .err _ h

theorem Mmu.Agree.read {p : Params} {m n : Mmu} (h : m.Agree p n) (v : Word) (w : Width) :
    MmuResult.Alike (Mmu.Agree p) (m.read p v w) (n.read p v w) :=
  (h.translate v).bind (fun _ _ h => h) fun a _ _ h => h.readAt v a w

theorem Mmu.Agree.write {p : Params} {m n : Mmu} (h : m.Agree p n) (v : Word) (w : Width) (x : Word) :
    MmuResult.Alike (Mmu.Agree p) (m.write p v w x) (n.write p v w x) :=
  (h.translate v).bind (fun _ _ h => h) fun a _ _ h => h.writeAt v a w x

/-! ## The step -/

/-- Two states that differ only in the MMU, and whose MMUs agree. -/
def State.Agree (s t : State) : Prop := s.mmu.Agree s.params t.mmu ∧ t = s.setMmu t.mmu

/-- An update that leaves the MMU and the parameters alone carries agreement over. -/
theorem State.Agree.map {s t : State} (h : s.Agree t) {u : State → State}
    (hu : ∀ m, u (s.setMmu m) = (u s).setMmu m) (hp : (u s).params = s.params)
    (hm : (u s).mmu = s.mmu) : (u s).Agree (u t) := by
  obtain ⟨hagree, ht⟩ := h
  have hut : u t = (u s).setMmu t.mmu := by rw [ht]; exact hu _
  rw [hut]
  exact ⟨by rwa [hp, hm], rfl⟩

theorem agree_parallel : Parallel State.Agree where
  params h := by rw [h.2]; rfl
  regs h := by rw [h.2]; rfl
  eip h := by rw [h.2]; rfl
  status h := by rw [h.2]; rfl
  clockDraw h := by rw [h.2]; rfl
  randDraw h := by rw [h.2]; rfl
  setRegs g h := h.map (u := fun s => { s with regs := g }) (fun _ => rfl) rfl rfl
  setEip v h := h.map (u := (State.setEip · v)) (fun _ => rfl) rfl rfl
  setFlags {_ _ u} _ h := h.map (u := fun s => s.setFlags (u s.flags)) (fun _ => rfl) rfl rfl
  setControl {_ _ u} b _ h :=
    h.map (u := fun s => { s with flags := u s.flags, interruptEnabled := b }) (fun _ => rfl) rfl rfl
  halt h := h.map (u := fun s => { s with halted := true }) (fun _ => rfl) rfl rfl
  interrupts h :=
    h.map (u := fun s => { s with interrupts := s.interrupts + 1 }) (fun _ => rfl) rfl rfl
  clock h := h.map (u := afterClockDraw) (fun _ => rfl) rfl rfl
  rand h := h.map (u := afterRandDraw) (fun _ => rfl) rfl rfl
  read {s t} v w h := by
    obtain ⟨hagree, ht⟩ := h
    unfold memRead
    rw [show t.params = s.params by rw [ht]; rfl]
    exact (hagree.read v w).liftMmu fun m n hmn => ⟨hmn, by rw [ht]; rfl⟩
  write {s t} v w x h := by
    obtain ⟨hagree, ht⟩ := h
    unfold memWrite
    rw [show t.params = s.params by rw [ht]; rfl]
    exact (hagree.write v w x).liftMmu fun m n hmn => ⟨hmn, by rw [ht]; rfl⟩

theorem State.Agree.retire {s t : State} (h : s.Agree t) (i : Instr) (eip0 : Word) :
    (Machine.retire i eip0 s).Agree (Machine.retire i eip0 t) :=
  h.map (u := Machine.retire i eip0) (fun _ => rfl) rfl rfl

/-- Two agreeing states take the same step. -/
theorem State.Agree.step {s t : State} (h : s.Agree t) :
    Outcome.Alike State.Agree (Machine.step s) (Machine.step t) := by
  have hhalt : t.halted = s.halted := by rw [h.2]; rfl
  unfold Machine.step
  rw [hhalt, agree_parallel.eip h]
  split
  · exact .next h
  · have hf := agree_parallel.fetch h
    generalize fetch s = r at *
    generalize fetch t = r' at *
    cases hf with
    | fault hf => exact .fault hf
    | @ok s1 t1 i h1 =>
      have he := agree_parallel.exec h1 i fun _ => by rw [h1.2]; rfl
      dsimp only
      generalize exec i s1 = o at *
      generalize exec i t1 = o' at *
      cases he with
      | next h2 => exact .next (h2.retire i s.eip)
      | fault hf => exact .fault hf
      | refused r => exact .refused r

theorem State.Agree.sameData {s t : State} (h : s.Agree t) : s.SameData t := ⟨h.1.data, h.2⟩

/-- Like faults, and like outcomes, are the same but for hidden state. -/
theorem Outcome.Alike.sameOutcome {o o' : Outcome} (h : Outcome.Alike State.Agree o o') : SameOutcome o o' := by
  cases h with
  | next h => exact h.sameData
  | refused r => rfl
  | fault h =>
    cases h with
    | decodeError a c h => exact ⟨h.sameData, rfl, rfl⟩
    | memoryAccessViolation v a n h => exact ⟨h.sameData, rfl, rfl, rfl⟩
    | outOfPhysicalMemory h => exact ⟨h.sameData, trivial⟩
    | divideByZero a h => exact ⟨h.sameData, rfl⟩
    | divideOverflow a h => exact ⟨h.sameData, rfl⟩

/-- Settles O17: states that meet the invariant and share their data agree, so they step alike. -/
theorem hiddenStateDecidesNothing : Obligations.HiddenStateDecidesNothing := fun s t hs ht hst => by
  obtain ⟨-, ⟨-, hd, -, htlb, -⟩, -⟩ := hs
  obtain ⟨-, ⟨-, hd', -, htlb', -⟩, -⟩ := ht
  obtain ⟨hdata, heq⟩ := hst
  have hp : t.params = s.params := by rw [heq]
  exact (State.Agree.step ⟨⟨hdata, hd, hp ▸ hd', htlb, htlb'⟩, heq⟩).sameOutcome

end Sys2Proof.Machine
end

section
/-! Settles the family of the memory: what a read and a write give, where they raise, and what
`loadProgram` stores and protects (spec/20_memory.md R81 to R101, R125). Each access is said as a function
of the translation of its address. -/

namespace Sys2Proof.Machine

/-! ## Bytes and addresses (20_memory R80, R81) -/

/-- The little-endian value of the bytes of memory from `a` on (20_memory R81). -/
theorem natOfBytes_readBytes (m : Memory) (a n : Nat) :
    natOfBytes (m.readBytes a n) =
      ((List.range n).map fun i => (m.read (a + i)).toNat * 256 ^ i).sum := by
  induction n generalizing a with
  | zero => rfl
  | succ n ih =>
    have hshift : ∀ i, (m.read (a + (i + 1))).toNat * 256 ^ (i + 1) =
        256 * ((m.read (a + 1 + i)).toNat * 256 ^ i) := fun i => by
      rw [show a + (i + 1) = a + 1 + i by omega]; ring
    rw [Memory.readBytes, natOfBytes, ih, List.range_succ_eq_map]
    simp [hshift, List.sum_map_mul_left, Function.comp_def]

/-- Byte `i` of the bytes of a word. -/
theorem wordBytes_getD (n i : Nat) (x : Word) (h : i < n) :
    (wordBytes n x).getD i 0 = x.extractLsb' (8 * i) 8 := by
  induction n generalizing i x with
  | zero => omega
  | succ n ih =>
    cases i with
    | zero => rfl
    | succ i =>
      rw [wordBytes, List.getD_cons_succ, ih i _ (by omega)]
      apply BitVec.eq_of_getLsbD_eq
      intro k hk
      rw [BitVec.getLsbD_extractLsb', BitVec.getLsbD_extractLsb', BitVec.getLsbD_ushiftRight,
        ← Nat.add_assoc, show 8 + 8 * i = 8 * (i + 1) by omega]

theorem wordOfBytes_singleton (b : Byte) : wordOfBytes [b] = b.setWidth 32 := by
  apply BitVec.eq_of_toNat_eq
  simp [wordOfBytes, natOfBytes]

/-- A byte, zero-extended, is stored as itself. -/
theorem wordBytes_byte (b : Byte) : wordBytes Width.byte.bytes (b.setWidth 32) = [b] := by
  simp [wordBytes, Width.bytes]

/-- An address further on in the same page (20_memory R80). -/
theorem pageOf_offsetOf_add {v : Word} {i : Nat} (h : offsetOf v + i < 4096) :
    pageOf (v + BitVec.ofNat 32 i) = pageOf v ∧
      offsetOf (v + BitVec.ofNat 32 i) = offsetOf v + i := by
  have hv := v.isLt
  unfold offsetOf at h
  have hsum : (v + BitVec.ofNat 32 i).toNat = v.toNat + i := by
    rw [BitVec.toNat_add, BitVec.toNat_ofNat]; omega
  unfold pageOf offsetOf
  rw [hsum]
  omega

/-! ## Translation (20_memory R88, R90) -/

/-- A page that has a frame translates to it, and no data change. -/
theorem translate_framed {s : State} {v : Word} {f : Nat} (h : frameOf s (pageOf v) = some f) :
    ∃ n, s.mmu.translate s.params v = .ok (frameAddr f (offsetOf v)) n ∧ s.mmu.SameData n := by
  unfold frameOf at h
  rcases s.mmu.translate_cases s.params v with
    ⟨g, hg, ht⟩ | ⟨hn, g, hg, ht⟩ | ⟨hn, hr, -⟩ | ⟨hn, hr, -⟩
  · rw [hg] at h; cases h
    exact ⟨_, ht, rfl, rfl, rfl, rfl, rfl⟩
  · rw [hn, hg] at h; cases h
    exact ⟨_, ht, rfl, rfl, rfl, rfl, rfl⟩
  · rw [hn, hr] at h; cases h
  · rw [hn, hr] at h; cases h

/-- After a translation, an address further on in its page lies as much further on in memory. -/
theorem Mmu.translate_further {p : Params} {v : Word} {m n k : Mmu} {a i : Nat}
    (h : m.translate p v = .ok a n) (hk : k.tlb = n.tlb) (hi : offsetOf v + i < 4096) :
    k.translate p (v + BitVec.ofNat 32 i) = .ok (a + i) k.countTlbHit := by
  obtain ⟨f, rfl, hf⟩ := Mmu.translate_tlb p h
  obtain ⟨hpage, hoff⟩ := pageOf_offsetOf_add hi
  have ht : tableFind k.tlb (pageOf (v + BitVec.ofNat 32 i)) = some f := by rw [hk, hpage, hf]
  rw [Mmu.translate_hit p ht, hoff, frameAddr, frameAddr, Nat.add_assoc]

/-- The one error of a frame allocation (20_memory R90). -/
theorem Mmu.allocFrame_err {m n : Mmu} {e : MmuError} (h : m.allocFrame = .err e n) :
    e = .outOfPhysicalMemory := by
  rcases m.allocFrame_cases with ⟨f, rest, -, h'⟩ | ⟨-, page, d, -, h'⟩ | ⟨-, -, h'⟩ <;>
    rw [h] at h' <;> cases h'
  rfl

/-- A translation raises exactly when the page has no frame and none can be had (20_memory R90). -/
theorem translate_outOfMemory_iff (s : State) (v : Word) :
    (∃ n, s.mmu.translate s.params v = .err .outOfPhysicalMemory n) ↔
      frameOf s (pageOf v) = none ∧ s.mmu.freeFrames = [] ∧
        ∀ e ∈ s.mmu.pageDir, e.1 ∈ s.mmu.protectedPages := by
  have halloc : (∃ e n, s.mmu.countTlbMiss.countPageFault.allocFrame = .err e n) ↔
      s.mmu.freeFrames = [] ∧ ∀ e ∈ s.mmu.pageDir, e.1 ∈ s.mmu.protectedPages :=
    Mmu.allocFrame_err_iff _
  rw [← halloc]
  rcases s.mmu.translate_cases s.params v with
    ⟨f, hf, ht⟩ | ⟨hn, f, hf, ht⟩ | ⟨hn, hr, f, k, hk, ht⟩ | ⟨hn, hr, e, he, ht⟩
  · simp [frameOf, hf, ht]
  · simp [frameOf, hn, hf, ht]
  · simp [frameOf, hn, hr, hk, ht]
  · obtain rfl := Mmu.allocFrame_err he
    simp [frameOf, hn, hr, he, ht]

/-! ## The two accesses as functions of the translation (20_memory R95, R97, R100, R101) -/

section
variable {s : State} {v : Word} {a : Nat} {n : Mmu}

/-- A read after its translation: the bounds check, then the stored bytes, whatever the caches hold. -/
theorem memRead_of_translate (h : s.mmu.translate s.params v = .ok a n) (w : Width) :
    ∃ m, n.SameButCaches m ∧ memRead v w s = if a + w.bytes ≤ s.params.memSize
      then .ok (wordOfBytes (n.phys.readBytes a w.bytes)) (s.setMmu m)
      else .fault (.memoryAccessViolation v a w.bytes (s.setMmu m)) := by
  obtain ⟨m, hm, hr⟩ := Mmu.readAt_spec s.params v a w n
  refine ⟨m, hm, ?_⟩
  rw [memRead, Mmu.read, h, MmuResult.bind_ok, hr]
  split <;> rfl

/-- A write after its translation: the bounds check, then the store. -/
theorem memWrite_of_translate (h : s.mmu.translate s.params v = .ok a n) (w : Width) (x : Word) :
    memWrite v w x s = if a + w.bytes ≤ s.params.memSize
      then .ok () (s.setMmu (n.stored a w x))
      else .fault (.memoryAccessViolation v a w.bytes (s.setMmu n)) := by
  rw [memWrite, Mmu.write, h, MmuResult.bind_ok, Mmu.writeAt_eq]
  split <;> rfl

end

/-- A read raises OutOfPhysicalMemory exactly when its translation does. -/
theorem memRead_outOfMemory_iff (v : Word) (w : Width) (s : State) :
    (∃ t, memRead v w s = .fault (.outOfPhysicalMemory t)) ↔
      ∃ n, s.mmu.translate s.params v = .err .outOfPhysicalMemory n := by
  cases h : s.mmu.translate s.params v with
  | ok a n =>
    obtain ⟨m, -, hr⟩ := memRead_of_translate h w
    rw [hr]; split <;> simp
  | err e n => cases e <;> simp [memRead, Mmu.read, h, liftMmu, raise, MmuError.fault]

/-- A write raises OutOfPhysicalMemory exactly when its translation does. -/
theorem memWrite_outOfMemory_iff (v : Word) (w : Width) (x : Word) (s : State) :
    (∃ t, memWrite v w x s = .fault (.outOfPhysicalMemory t)) ↔
      ∃ n, s.mmu.translate s.params v = .err .outOfPhysicalMemory n := by
  cases h : s.mmu.translate s.params v with
  | ok a n => rw [memWrite_of_translate h]; split <;> simp
  | err e n => cases e <;> simp [memWrite, Mmu.write, h, liftMmu, raise, MmuError.fault]

/-! ## Reads and writes -/

/-- Settles O18: the translation of a page that has a frame changes no data, nor do the caches. -/
theorem readGivesTheStoredBytes : Obligations.ReadGivesTheStoredBytes := fun s v w f hf hb => by
  obtain ⟨n, ht, hphys, hdir, hfree, -, -⟩ := translate_framed hf
  obtain ⟨m, hm, hr⟩ := memRead_of_translate ht w
  refine ⟨s.setMmu m, (hr.trans (if_pos hb)).trans ?_, rfl, fun a => ?_, hm.pageDir.trans hdir.symm,
    hm.freeFrames.trans hfree.symm⟩
  · rw [wordOfBytes, natOfBytes_readBytes, ← hphys]; rfl
  · rw [State.byteAt, State.setMmu_mmu, hm.phys, ← hphys]; rfl

/-- Settles O19: the read translates to the address the write stored at. -/
theorem writeThenRead : Obligations.WriteThenRead := fun s v x w h => by
  obtain ⟨a, m, -, hb, hw, hafter, hkept, hval⟩ := memWrite_accessible h x
  obtain ⟨n, hn, hr⟩ := memRead_of_translate (hafter.addr (s.setMmu m) rfl rfl) w
  refine ⟨s.setMmu m, s.setMmu n, hw, ?_, rfl, hkept, fun b => ?_⟩
  · rw [← hval]; exact hr.trans (if_pos hb)
  · rw [State.byteAt, State.setMmu_mmu, hn.phys]; rfl

/-- Settles O20: byte `i` is read at the address the write stored it at. -/
theorem bytesOfAWrittenDoubleword : Obligations.BytesOfAWrittenDoubleword := fun s v x i h hpage hi => by
  obtain ⟨a, n, ht, hb, -⟩ := h.translate
  have ht' := Mmu.translate_further (k := n.stored a .dword x) ht rfl (i := i) (by omega)
  obtain ⟨m, -, hr⟩ := memRead_of_translate (s := s.setMmu (n.stored a .dword x)) ht' .byte
  have hbyte : (n.stored a .dword x).phys.read (a + i) = x.extractLsb' (8 * i) 8 := by
    rw [Mmu.stored, Memory.read_writeBytes, wordBytes_length, if_pos (by rw [Width.bytes]; omega),
      Nat.add_sub_cancel_left]
    exact wordBytes_getD 4 i x hi
  have hval : wordOfBytes [(n.stored a .dword x).phys.read (a + i)] = (x >>> (8 * i)) &&& 0xFF := by
    rw [wordOfBytes_singleton, hbyte]
    exact extractByte_setWidth x (8 * i)
  refine ⟨_, s.setMmu m, (memWrite_of_translate ht .dword x).trans (if_pos hb), ?_⟩
  rw [← hval]
  rw [Width.bytes] at hb
  exact hr.trans (if_pos (by rw [Width.bytes, State.setMmu_params]; omega))

/-- Settles O21: the bounds are checked after the translation and before any byte moves. -/
theorem accessPastMemoryIsAViolation : Obligations.AccessPastMemoryIsAViolation :=
  fun s v x w a ha hpast => by
    obtain ⟨n, ht⟩ := physAddr_eq_some.1 ha
    obtain ⟨m, hm, hr⟩ := memRead_of_translate ht w
    have hw := memWrite_of_translate ht w x
    rw [if_neg (by omega)] at hr hw
    refine ⟨⟨_, hr, rfl, ?_⟩, ⟨_, hw, rfl, ?_⟩⟩
    · exact .of_translate ht hm.pageDir fun b _ => congrArg (·.read b) hm.phys
    · exact .of_translate ht rfl fun _ _ => rfl

/-- Settles O22: both accesses raise the error of their translation. -/
theorem outOfMemoryExactly : Obligations.OutOfMemoryExactly := fun s v x w =>
  ⟨(memRead_outOfMemory_iff v w s).trans (translate_outOfMemory_iff s v),
    (memWrite_outOfMemory_iff v w x s).trans (translate_outOfMemory_iff s v)⟩

/-! ## Loading a program (20_memory R125) -/

/-- Protecting pages changes only the set of protected pages. -/
theorem foldl_protectPage (pages : List Nat) (s : State) :
    pages.foldl (fun s page => protectPage page s) s =
      s.setMmu { s.mmu with protectedPages := pages.foldl setInsert s.mmu.protectedPages } := by
  induction pages generalizing s with
  | nil => rfl
  | cons page pages ih => rw [List.foldl_cons, ih]; rfl

theorem mem_foldl_setInsert {pages l : List Nat} {page : Nat} :
    page ∈ pages.foldl setInsert l ↔ page ∈ l ∨ page ∈ pages := by
  induction pages generalizing l with
  | nil => simp
  | cons q pages ih => rw [List.foldl_cons, ih, mem_setInsert, List.mem_cons]; tauto

/-- The pages a program overlaps are those of its bytes. -/
theorem mem_spannedPages {start : Word} {len page : Nat} :
    page ∈ spannedPages start len ↔ ∃ k, k < len ∧ page = (start.toNat + k) / 4096 := by
  unfold spannedPages
  split
  · next h => simp [h]
  · rw [List.mem_range'_1]
    constructor
    · intro h
      refine ⟨page * 4096 - start.toNat, ?_, ?_⟩ <;> omega
    · rintro ⟨k, hk, rfl⟩
      omega

/-- Two states differ only in the MMU. -/
theorem onlyMmu_keptByAccess : KeptByAccess fun s t => t = s.setMmu t.mmu where
  refl _ := rfl
  trans h h' := by rw [h', h]; rfl
  read v w s := by rw [memRead_left]; rfl
  write v w x s := by rw [memWrite_left]; rfl

/-- A program inside the address space: the writes, then the protection. -/
theorem loadProgram_next_iff {bytes : List Byte} {start : Word} {s t : State}
    (h : start.toNat + bytes.length ≤ 2 ^ 32) :
    loadProgram bytes start s = .next t ↔ ∃ u, loadBytes bytes start s = .ok () u ∧
      t = u.setMmu { u.mmu with
        protectedPages := (spannedPages start bytes.length).foldl setInsert u.mmu.protectedPages } := by
  rw [loadProgram, if_neg (by omega)]
  cases loadBytes bytes start s with
  | ok x u => simp [foldl_protectPage, eq_comm]
  | fault f => simp

/-- Bytes loaded into a page that was translated once are stored from its physical address on. -/
theorem loadBytes_same_page {p : Params} {v : Word} {m n : Mmu} {a : Nat}
    (ht : m.translate p v = .ok a n) {bytes : List Byte} {i : Nat} {s : State} (hp : s.params = p)
    (htlb : s.mmu.tlb = n.tlb) (hpage : offsetOf v + i + bytes.length ≤ 4096)
    (hb : a + i + bytes.length ≤ p.memSize) :
    ∃ t, loadBytes bytes (v + BitVec.ofNat 32 i) s = .ok () t ∧
      t.mmu.phys = s.mmu.phys.writeBytes (a + i) bytes := by
  induction bytes generalizing i s with
  | nil => exact ⟨s, rfl, rfl⟩
  | cons b bs ih =>
    rw [List.length_cons] at hpage hb
    have hs : s.mmu.translate s.params (v + BitVec.ofNat 32 i) = .ok (a + i) s.mmu.countTlbHit :=
      hp ▸ Mmu.translate_further ht htlb (by omega)
    obtain ⟨t, hload, hphys⟩ := ih (i := i + 1)
      (s := s.setMmu (s.mmu.countTlbHit.stored (a + i) .byte (b.setWidth 32))) hp htlb
      (by omega) (by omega)
    refine ⟨t, ?_, ?_⟩
    · rw [loadBytes, memWrite_of_translate hs, if_pos (by rw [hp, Width.bytes]; omega), Res.bind_ok,
        BitVec.add_assoc, ← hload, BitVec.ofNat_add]
      rfl
    · rw [hphys, State.setMmu_mmu, Mmu.stored, wordBytes_byte]; rfl

/-- Bytes that lie in one page are stored in order. -/
theorem loadBytes_one_page {bytes : List Byte} {start : Word} {s : State} {a : Nat}
    (ha : physAddr start s = some a) (hne : bytes ≠ []) (hpage : offsetOf start + bytes.length ≤ 4096)
    (hb : a + bytes.length ≤ s.params.memSize) :
    ∃ t, loadBytes bytes start s = .ok () t ∧
      ∀ k, k < bytes.length → t.byteAt (a + k) = bytes.getD k 0 := by
  obtain ⟨n, ht⟩ := physAddr_eq_some.1 ha
  obtain ⟨b, bs, rfl⟩ := List.exists_cons_of_ne_nil hne
  rw [List.length_cons] at hpage hb
  obtain ⟨t, hload, hphys⟩ := loadBytes_same_page ht (bytes := bs) (i := 1)
    (s := s.setMmu (n.stored a .byte (b.setWidth 32))) rfl rfl (by omega) (by omega)
  refine ⟨t, ?_, fun k hk => ?_⟩
  · rw [loadBytes, memWrite_of_translate ht, if_pos (by rw [Width.bytes]; omega)]
    exact hload
  · have hall : t.mmu.phys = n.phys.writeBytes a (b :: bs) := by
      rw [hphys, State.setMmu_mmu, Mmu.stored, wordBytes_byte]; rfl
    rw [State.byteAt, hall, Memory.read_writeBytes, if_pos (by omega), Nat.add_sub_cancel_left]

/-- Settles O58: the accesses of a load protect no page, and protection moves no byte. -/
theorem loadedPagesAreProtected : Obligations.LoadedPagesAreProtected := fun bytes start s => by
  refine ⟨fun h => if_pos h, fun t ht => ⟨?_, fun page => ?_⟩, fun a ha hne hpage hb => ?_⟩
  · exact onlyMmu_keptByAccess.loadProgram_next (fun _ _ => rfl) ht
  · have hfit : start.toNat + bytes.length ≤ 2 ^ 32 := by
      by_contra hpast
      rw [loadProgram, if_pos (by omega)] at ht
      cases ht
    obtain ⟨u, hu, rfl⟩ := (loadProgram_next_iff hfit).1 ht
    have hprot := (constantsKept_keptByAccess.loadBytes bytes start s).protectedPages
    rw [hu, Res.left_ok] at hprot
    rw [State.setMmu_mmu, mem_foldl_setInsert, hprot, mem_spannedPages]
  · have hfit : start.toNat + bytes.length ≤ 2 ^ 32 := by
      have := page_offset start
      have := pageOf_lt start
      omega
    obtain ⟨u, hu, hbytes⟩ := loadBytes_one_page ha hne hpage hb
    exact ⟨_, (loadProgram_next_iff hfit).2 ⟨u, hu, rfl⟩, hbytes⟩

end Sys2Proof.Machine
end

section
/-! Settles the encoder against the decoder (30_encoding R140 to R153, R180): decoding an encoding gives
the instruction back, in exactly as many reads as it has parts. -/

namespace Sys2Proof

open Sys2Proof.Machine

/-! ## The r/m operand, by the `mod` field (30_encoding R144) -/

section
variable {R : Type} (ofNum : BitVec 3 → R) (reg n : BitVec 3) (k : Rm R → Fetch)

theorem modrmOperand_reg : modrmOperand ofNum (modrmByte 3 reg n) k = k (.reg (ofNum n)) := by
  simp [modrmOperand]

theorem modrmOperand_abs :
    modrmOperand ofNum (modrmByte 0 reg 5) k = .dword fun a => k (.mem (.abs a)) := by
  simp [modrmOperand]

theorem modrmOperand_ind (h : n ≠ 5) :
    modrmOperand ofNum (modrmByte 0 reg n) k = k (.mem (.ind (Reg32.ofNum n))) := by
  simp only [modrmOperand, modrmMod_byte, modrmRm_byte]
  exact if_neg h

theorem modrmOperand_disp8 : modrmOperand ofNum (modrmByte 1 reg n) k =
    .byte fun d => k (.mem (.disp8 (Reg32.ofNum n) d)) := by
  simp [modrmOperand]

theorem modrmOperand_disp32 : modrmOperand ofNum (modrmByte 2 reg n) k =
    .dword fun d => k (.mem (.disp32 (Reg32.ofNum n) d)) := by
  simp [modrmOperand]

end

/-! ## The reads of an encoding (30_encoding R140, R183) -/

/-- `f`, after `q` reads have been made, goes on to read `i` from the bytes before `rest`, and then one
read has been made for each part of `i` (30_encoding R183). -/
inductive Fetch.Reads (i : Instr) (rest : List Byte) : Fetch → List Byte → Nat → Prop where
  | done {q : Nat} (hq : q = i.parts) : Fetch.Reads i rest (.done i) rest q
  | byte {k : Byte → Fetch} {b : Byte} {bs : List Byte} {q : Nat} :
    Fetch.Reads i rest (k b) bs (q + 1) → Fetch.Reads i rest (.byte k) (b :: bs) q
  | dword {k : Word → Fetch} {b0 b1 b2 b3 : Byte} {bs : List Byte} {q : Nat} :
    Fetch.Reads i rest (k (wordOfBytes [b0, b1, b2, b3])) bs (q + 1) →
      Fetch.Reads i rest (.dword k) (b0 :: b1 :: b2 :: b3 :: bs) q

namespace Fetch.Reads

variable {i : Instr} {rest bs : List Byte} {q : Nat}

theorem onBytes {f : Fetch} (h : f.Reads i rest bs q) : f.onBytes bs = .instr i rest := by
  induction h with
  | done _ => rfl
  | byte _ ih => exact ih
  | dword _ ih => exact ih

/-- A doubleword is read from its bytes. -/
theorem word_iff {k : Word → Fetch} {v : Word} :
    (Fetch.dword k).Reads i rest (wordBytes 4 v ++ bs) q ↔ (k v).Reads i rest bs (q + 1) := by
  have hv : wordOfBytes (wordBytes 4 v) = v := wordOfBytes_wordBytes_four v
  refine ⟨fun h => ?_, fun h => .dword ((congrArg k hv).symm ▸ h)⟩
  cases h with
  | dword h => exact congrArg k hv ▸ h

theorem word {k : Word → Fetch} {v : Word} (h : (k v).Reads i rest bs (q + 1)) :
    (Fetch.dword k).Reads i rest (wordBytes 4 v ++ bs) q := word_iff.2 h

/-- An r/m operand is read from its encoding, in one read for the ModR/M byte and one for the
displacement, if there is one (30_encoding R144, R181). -/
theorem modrm {R : Type} {num : R → BitVec 3} {ofNum : BitVec 3 → R} {reg : BitVec 3} {rm : Rm R}
    {K : Byte → Fetch} {k : Rm R → Fetch} (hnum : ∀ r, ofNum (num r) = r) (hwf : rm.wf)
    (hK : ∀ m, modrmReg m = reg → K m = modrmOperand ofNum m k)
    (h : (k rm).Reads i rest bs (q + 1 + min rm.dispBytes 1)) :
    (Fetch.byte K).Reads i rest (encodeRm num reg rm ++ bs) q := by
  have hstart : ∀ mod n {bs}, (modrmOperand ofNum (modrmByte mod reg n) k).Reads i rest bs (q + 1) →
      (Fetch.byte K).Reads i rest (modrmByte mod reg n :: bs) q := fun _ _ _ h =>
    .byte (by rwa [hK _ (modrmReg_byte _ _ _)])
  cases rm with
  | reg r => exact hstart 3 (num r) (by rw [modrmOperand_reg, hnum]; exact h)
  | mem m =>
    cases m with
    | abs a => exact hstart 0 5 (by rw [modrmOperand_abs]; exact .word h)
    | ind b =>
      have hb : b.num ≠ 5 := fun h => hwf ((Reg32.num_eq_five b).1 h)
      exact hstart 0 b.num (by rw [modrmOperand_ind _ _ _ _ hb, Reg32.ofNum_num]; exact h)
    | disp8 b d => exact hstart 1 b.num (by rw [modrmOperand_disp8, Reg32.ofNum_num]; exact .byte h)
    | disp32 b d => exact hstart 2 b.num (by rw [modrmOperand_disp32, Reg32.ofNum_num]; exact .word h)

theorem modrm8 {k : Rm8 → Reg8 → Fetch} {rm : Rm8} {r : Reg8} (hwf : rm.wf)
    (h : (k rm r).Reads i rest bs (q + 1 + min rm.dispBytes 1)) :
    (Sys2Proof.modrm8 k).Reads i rest (encodeRm8 rm r ++ bs) q :=
  modrm (k := fun rm => k rm r) Reg8.ofNum_num hwf (fun m hm => by simp [hm]) h

theorem modrm32 {k : Rm32 → Reg32 → Fetch} {rm : Rm32} {r : Reg32} (hwf : rm.wf)
    (h : (k rm r).Reads i rest bs (q + 1 + min rm.dispBytes 1)) :
    (Sys2Proof.modrm32 k).Reads i rest (encodeRm32 rm r ++ bs) q :=
  modrm (k := fun rm => k rm r) Reg32.ofNum_num hwf (fun m hm => by simp [hm]) h

/-- A group that hands the sub-operation on (30_encoding R152). -/
theorem modrmGroup {k : Rm32 → BitVec 3 → Fetch} {sub : BitVec 3} {rm : Rm32} (hwf : rm.wf)
    (h : (k rm sub).Reads i rest bs (q + 1 + min rm.dispBytes 1)) :
    (Sys2Proof.modrmGroup k).Reads i rest (encodeGroup sub rm ++ bs) q :=
  modrm (k := fun rm => k rm sub) Reg32.ofNum_num hwf (fun m hm => by simp [hm]) h

/-! Groups that check the sub-operation first (30_encoding R182). -/

theorem shl {op : Byte} {shl shr : Rm32 → Fetch} {rm : Rm32} (hwf : rm.wf)
    (h : (shl rm).Reads i rest bs (q + 1 + min rm.dispBytes 1)) :
    (shiftGroup op shl shr).Reads i rest (encodeGroup 4 rm ++ bs) q :=
  modrm Reg32.ofNum_num hwf (fun m hm => by simp [hm]) h

theorem shr {op : Byte} {shl shr : Rm32 → Fetch} {rm : Rm32} (hwf : rm.wf)
    (h : (shr rm).Reads i rest bs (q + 1 + min rm.dispBytes 1)) :
    (shiftGroup op shl shr).Reads i rest (encodeGroup 5 rm ++ bs) q :=
  modrm Reg32.ofNum_num hwf (fun m hm => by simp [hm]) h

theorem rdrand {rm : Rm32} (hwf : rm.wf)
    (h : (Fetch.done (.rdrandRm32 rm)).Reads i rest bs (q + 1 + min rm.dispBytes 1)) :
    group0FC7.Reads i rest (encodeGroup 6 rm ++ bs) q :=
  modrm (k := fun rm => .done (.rdrandRm32 rm)) Reg32.ofNum_num hwf (fun m hm => by simp [hm]) h

theorem rdseed {rm : Rm32} (hwf : rm.wf)
    (h : (Fetch.done (.rdseedRm32 rm)).Reads i rest bs (q + 1 + min rm.dispBytes 1)) :
    group0FC7.Reads i rest (encodeGroup 7 rm ++ bs) q :=
  modrm (k := fun rm => .done (.rdseedRm32 rm)) Reg32.ofNum_num hwf (fun m hm => by simp [hm]) h

end Fetch.Reads

/-- A well-formed instruction is read from its encoding, part by part. -/
theorem decoder_reads_encode (i : Instr) (rest : List Byte) (hwf : i.wf) :
    decoder.Reads i rest (encode i ++ rest) 0 := by
  -- the reads before and after a displacement, as `Instr.parts` adds them up
  have himm : ∀ n, 0 + 1 + 1 + n + 1 = 3 + n := fun n => Nat.add_right_comm 2 n 1
  -- the opcode maps written out, for each opcode to select its row
  delta decoder decodeOneByte decodeTwoByte
  cases i with
  | addRm8R8 rm r | addR8Rm8 r rm | orRm8R8 rm r | andRm8R8 rm r | subRm8R8 rm r | xorRm8R8 rm r
  | cmpRm8R8 rm r | movRm8R8 rm r => exact .byte (.modrm8 hwf (.done rfl))
  | addRm32R32 rm r | addR32Rm32 r rm | orRm32R32 rm r | andRm32R32 rm r | subRm32R32 rm r
  | xorRm32R32 rm r | cmpRm32R32 rm r | movsxdR32Rm32 r rm | testRm32R32 rm r | xchgRm32R32 rm r
  | movRm32R32 rm r => exact .byte (.modrm32 hwf (.done rfl))
  | andEaxImm32 v | xorEaxImm32 v | cmpEaxImm32 v | movAddr32Eax v | callTarget32 v | jmpTarget32 v =>
    exact .byte (.word (.done rfl))
  | incR32 r | decR32 r | pushR32 r | popR32 r => cases r <;> exact .byte (.done rfl)
  | joRel8 v | jnoRel8 v | jcRel8 v | jncRel8 v | jzRel8 v | jnzRel8 v | jbeRel8 v | jaRel8 v | jsRel8 v
  | jnsRel8 v | jpRel8 v | jnpRel8 v | jlRel8 v | jgeRel8 v | jleRel8 v | jgRel8 v | intImm8 v | jmpRel8 v =>
    exact .byte (.byte (.done rfl))
  | addRm32Imm32 rm v | orRm32Imm32 rm v | adcRm32Imm32 rm v | sbbRm32Imm32 rm v | andRm32Imm32 rm v
  | subRm32Imm32 rm v | xorRm32Imm32 rm v | cmpRm32Imm32 rm v | testRm32Imm32 rm v
  | testRm32Imm32Alt rm v =>
    rw [encode, List.append_assoc, List.append_assoc]
    exact .byte (.modrmGroup hwf (.word (.done (himm _))))
  | addRm32Imm8 rm v | orRm32Imm8 rm v | adcRm32Imm8 rm v | sbbRm32Imm8 rm v | andRm32Imm8 rm v
  | subRm32Imm8 rm v | xorRm32Imm8 rm v | cmpRm32Imm8 rm v =>
    rw [encode, List.append_assoc, List.append_assoc]
    exact .byte (.modrmGroup hwf (.byte (.done (himm _))))
  | shlRm32Imm8 rm v =>
    rw [encode, List.append_assoc, List.append_assoc]
    exact .byte (.shl hwf (.byte (.done (himm _))))
  | shrRm32Imm8 rm v =>
    rw [encode, List.append_assoc, List.append_assoc]
    exact .byte (.shr hwf (.byte (.done (himm _))))
  | shlRm32One rm => exact .byte (.shl hwf (.done rfl))
  | shrRm32One rm => exact .byte (.shr hwf (.done rfl))
  | notRm32 rm | negRm32 rm | mulRm32 rm | imulRm32 rm | divRm32 rm | idivRm32 rm =>
    exact .byte (.modrmGroup hwf (.done rfl))
  | nop | pushf | popf | ret | hlt | cli | sti | cld | std => exact .byte (.done rfl)
  | movR8Imm8 r v => cases r <;> exact .byte (.byte (.done rfl))
  | movR32Imm32 r v => cases r <;> exact .byte (.word (.done rfl))
  | rdtsc => exact .byte (.byte (.done rfl))
  | jlTarget32 v => exact .byte (.byte (.word (.done rfl)))
  | imul2R32Rm32 r rm => exact .byte (.byte (.modrm32 hwf (.done rfl)))
  | rdrandRm32 rm => exact .byte (.byte (.rdrand hwf (.done rfl)))
  | rdseedRm32 rm => exact .byte (.byte (.rdseed hwf (.done rfl)))

/-- Settles O1: the reads of an encoding end in its instruction. -/
theorem decodeOfEncode : Obligations.DecodeOfEncode := fun i rest hwf =>
  (decoder_reads_encode i rest hwf).onBytes

/-- Settles O4: the decoder evaluated on each word. -/
theorem specWordsDecode : Obligations.SpecWordsDecode := by
  unfold Obligations.SpecWordsDecode
  decide

end Sys2Proof
end

section
/-! Settles the decoder against the encoder and against the rejections of the spec (30_encoding R160,
R162, R180): one case split along the opcode map says what every decode gives. -/

namespace Sys2Proof

open Sys2Proof.Machine

/-! ## What a decode may give -/

/-- A decode of `bs` gives a well-formed instruction and what follows its encoding, or the rejection of
an illegal encoding; unless the bytes end too early. -/
def Decoded.CorrectFor (bs : List Byte) : Decoded → Prop
  | .instr i rest => i.wf ∧ bs = encode i ++ rest
  | .reject e => IllegalEncoding bs e
  | .truncated => True

/-- Once `pre` has been read, the reads of `f` decode correctly, whatever bytes they find. -/
def Fetch.Completes (pre : List Byte) (f : Fetch) : Prop :=
  ∀ bs, (f.onBytes bs).CorrectFor (pre ++ bs)

namespace Fetch.Completes

variable {pre : List Byte}

theorem done {i : Instr} (hwf : i.wf) (h : pre = encode i) : (Fetch.done i).Completes pre :=
  fun bs => ⟨hwf, congrArg (· ++ bs) h⟩

theorem reject {e : DecodeReject} (h : ∀ bs, IllegalEncoding (pre ++ bs) e) :
    (Fetch.reject e).Completes pre := h

/-- A byte that was read is known by its number. -/
theorem of_toNat {f : Fetch} {b : Byte} {n : Nat} (hb : b.toNat = n)
    (h : f.Completes (pre ++ [BitVec.ofNat 8 n])) : f.Completes (pre ++ [b]) := by
  subst hb
  rwa [BitVec.ofNat_toNat, BitVec.setWidth_eq] at h

theorem byte {k : Byte → Fetch} (h : ∀ b, (k b).Completes (pre ++ [b])) :
    (Fetch.byte k).Completes pre
  | [] => trivial
  | b :: bs => by
    have := h b bs
    rwa [List.append_assoc] at this

theorem dword {k : Word → Fetch} (h : ∀ v, (k v).Completes (pre ++ wordBytes 4 v)) :
    (Fetch.dword k).Completes pre
  | [] | [_] | [_, _] | [_, _, _] => trivial
  | b0 :: b1 :: b2 :: b3 :: bs => by
    have := h (wordOfBytes [b0, b1, b2, b3]) bs
    rwa [List.append_assoc, wordBytes_wordOfBytes] at this

/-- The r/m operand of a ModR/M byte, by the four values of `mod` (30_encoding R144). -/
theorem operand {R : Type} {num : R → BitVec 3} {ofNum : BitVec 3 → R} (hnum : ∀ n, num (ofNum n) = n)
    {m : Byte} {k : Rm R → Fetch}
    (h : ∀ rm, rm.wf → (k rm).Completes (pre ++ encodeRm num (modrmReg m) rm)) :
    (modrmOperand ofNum m k).Completes (pre ++ [m]) := by
  have hmod : ∀ n : BitVec 2, n = 0 ∨ n = 1 ∨ n = 2 ∨ n = 3 := by decide
  rw [← modrmByte_fields m]
  rcases hmod (modrmMod m) with h0 | h1 | h2 | h3
  · rw [h0]
    by_cases h5 : modrmRm m = 5
    · rw [h5, modrmOperand_abs]
      exact .dword fun a => by rw [List.append_assoc]; exact h (.mem (.abs a)) trivial
    · have hbase : Reg32.ofNum (modrmRm m) ≠ .ebp := fun h =>
        h5 (by rw [← Reg32.num_ofNum (modrmRm m), h]; rfl)
      rw [modrmOperand_ind _ _ _ _ h5]
      have := h (.mem (.ind (Reg32.ofNum (modrmRm m)))) hbase
      rwa [encodeRm, MemOp.encoding, Reg32.num_ofNum] at this
  · rw [h1, modrmOperand_disp8]
    refine .byte fun d => ?_
    have := h (.mem (.disp8 (Reg32.ofNum (modrmRm m)) d)) trivial
    rw [List.append_assoc]
    rwa [encodeRm, MemOp.encoding, Reg32.num_ofNum] at this
  · rw [h2, modrmOperand_disp32]
    refine .dword fun d => ?_
    have := h (.mem (.disp32 (Reg32.ofNum (modrmRm m)) d)) trivial
    rw [List.append_assoc]
    rwa [encodeRm, MemOp.encoding, Reg32.num_ofNum] at this
  · rw [h3, modrmOperand_reg]
    have := h (.reg (ofNum (modrmRm m))) trivial
    rwa [encodeRm, hnum] at this

theorem modrm8 {k : Rm8 → Reg8 → Fetch}
    (h : ∀ rm r, rm.wf → (k rm r).Completes (pre ++ encodeRm8 rm r)) :
    (Sys2Proof.modrm8 k).Completes pre :=
  .byte fun m => operand Reg8.num_ofNum fun rm hwf => by
    have := h rm (Reg8.ofNum (modrmReg m)) hwf
    rwa [encodeRm8, Reg8.num_ofNum] at this

theorem modrm32 {k : Rm32 → Reg32 → Fetch}
    (h : ∀ rm r, rm.wf → (k rm r).Completes (pre ++ encodeRm32 rm r)) :
    (Sys2Proof.modrm32 k).Completes pre :=
  .byte fun m => operand Reg32.num_ofNum fun rm hwf => by
    have := h rm (Reg32.ofNum (modrmReg m)) hwf
    rwa [encodeRm32, Reg32.num_ofNum] at this

theorem modrmGroup {k : Rm32 → BitVec 3 → Fetch}
    (h : ∀ rm sub, rm.wf → (k rm sub).Completes (pre ++ encodeGroup sub rm)) :
    (Sys2Proof.modrmGroup k).Completes pre :=
  .byte fun m => operand Reg32.num_ofNum fun rm hwf => h rm (modrmReg m) hwf

end Fetch.Completes

/-! ## Groups and forms with a number in the opcode (30_encoding R142, R152, R153) -/

theorem num3_cases (n : BitVec 3) :
    n = 0 ∨ n = 1 ∨ n = 2 ∨ n = 3 ∨ n = 4 ∨ n = 5 ∨ n = 6 ∨ n = 7 := by
  revert n; decide

theorem group81_completes {rm : Rm32} (hwf : rm.wf) (sub : BitVec 3) (imm : Word) :
    (Fetch.done (group81 sub rm imm)).Completes ([0x81] ++ encodeGroup sub rm ++ wordBytes 4 imm) := by
  rcases num3_cases sub with rfl | rfl | rfl | rfl | rfl | rfl | rfl | rfl <;> exact .done hwf rfl

theorem group83_completes {rm : Rm32} (hwf : rm.wf) (sub : BitVec 3) (imm : Byte) :
    (Fetch.done (group83 sub rm imm)).Completes ([0x83] ++ encodeGroup sub rm ++ [imm]) := by
  rcases num3_cases sub with rfl | rfl | rfl | rfl | rfl | rfl | rfl | rfl <;> exact .done hwf rfl

theorem groupF7_completes {rm : Rm32} (hwf : rm.wf) (sub : BitVec 3) :
    (groupF7 sub rm).Completes ([0xF7] ++ encodeGroup sub rm) := by
  rcases num3_cases sub with rfl | rfl | h
  · exact .dword fun imm => .done hwf rfl
  · exact .dword fun imm => .done hwf rfl
  · rcases h with rfl | rfl | rfl | rfl | rfl | rfl <;> exact .done hwf rfl

/-- 0xC1 and 0xD1 read an operand after the sub-operations 4 and 5 only (30_encoding R182). -/
theorem shiftGroup_eq (op : Byte) (shl shr : Rm32 → Fetch) : shiftGroup op shl shr = .byte fun m =>
    if modrmReg m = 4 then modrmOperand Reg32.ofNum m shl
    else if modrmReg m = 5 then modrmOperand Reg32.ofNum m shr
    else .reject (.invalidGroup op none m) := by
  refine congrArg Fetch.byte (funext fun m => ?_)
  rcases num3_cases (modrmReg m) with h | h | h | h | h | h | h | h <;> rw [h] <;> rfl

theorem group0FC7_eq : group0FC7 = .byte fun m =>
    if modrmReg m = 6 then modrmOperand Reg32.ofNum m fun rm => .done (.rdrandRm32 rm)
    else if modrmReg m = 7 then modrmOperand Reg32.ofNum m fun rm => .done (.rdseedRm32 rm)
    else .reject (.invalidGroup 0x0F (some 0xC7) m) := by
  refine congrArg Fetch.byte (funext fun m => ?_)
  rcases num3_cases (modrmReg m) with h | h | h | h | h | h | h | h <;> rw [h] <;> rfl

theorem shiftGroup_completes {op : Byte} (hop : op ∈ [0xC1, 0xD1]) {shl shr : Rm32 → Fetch}
    (hshl : ∀ rm, rm.wf → (shl rm).Completes ([op] ++ encodeGroup 4 rm))
    (hshr : ∀ rm, rm.wf → (shr rm).Completes ([op] ++ encodeGroup 5 rm)) :
    (shiftGroup op shl shr).Completes [op] := by
  rw [shiftGroup_eq]
  refine .byte fun m => ?_
  split
  · next h => exact .operand Reg32.num_ofNum (by rwa [h])
  · next h4 =>
    split
    · next h => exact .operand Reg32.num_ofNum (by rwa [h])
    · next h5 =>
      exact .reject fun bs => .inr (.inr (.inl ⟨op, m, bs, rfl, hop, by simpa using ⟨h4, h5⟩, rfl⟩))

theorem group0FC7_completes : group0FC7.Completes [0x0F, 0xC7] := by
  rw [group0FC7_eq]
  refine .byte fun m => ?_
  split
  · next h => exact .operand Reg32.num_ofNum fun rm hwf => .done hwf (by rw [h]; rfl)
  · next h6 =>
    split
    · next h => exact .operand Reg32.num_ofNum fun rm hwf => .done hwf (by rw [h]; rfl)
    · next h7 =>
      exact .reject fun bs => .inr (.inr (.inr ⟨m, bs, rfl, by simpa using ⟨h6, h7⟩, rfl⟩))

/-- The sixteen short conditional jumps by their condition (30_encoding R153). -/
theorem jccRel8_completes {op : Byte} (h : op.toNat / 16 = 7) :
    (Fetch.byte fun rel => .done (jccRel8 (op.extractLsb' 0 4) rel)).Completes [op] := by
  have hcc : ∀ n : BitVec 4, n = 0 ∨ n = 1 ∨ n = 2 ∨ n = 3 ∨ n = 4 ∨ n = 5 ∨ n = 6 ∨ n = 7 ∨ n = 8 ∨
    n = 9 ∨ n = 10 ∨ n = 11 ∨ n = 12 ∨ n = 13 ∨ n = 14 ∨ n = 15 := by decide
  obtain ⟨cc, rfl⟩ : ∃ cc : BitVec 4, op = 7#4 ++ cc :=
    ⟨op.extractLsb' 0 4, by revert op; decide⟩
  rcases hcc cc with rfl | rfl | rfl | rfl | rfl | rfl | rfl | rfl | rfl | rfl | rfl | rfl | rfl | rfl |
    rfl | rfl <;> exact .byte fun rel => .done trivial rfl

/-- An opcode with a register number in its low three bits (30_encoding R142). -/
theorem eq_opcodePlus {base op : Byte} (h : op.toNat / 8 = base.toNat / 8) (hb : base.toNat % 8 = 0) :
    op = opcodePlus base (op.extractLsb' 0 3) := by
  apply BitVec.eq_of_toNat_eq
  simp [opcodePlus]
  omega

/-! ## The opcode maps (30_encoding R150, R151) -/

theorem decodeTwoByte_completes (op2 : Byte) : (decodeTwoByte op2).Completes ([0x0F] ++ [op2]) := by
  unfold decodeTwoByte
  split
  · next h => exact .of_toNat h (.done trivial rfl)
  · next h => exact .of_toNat h (.dword fun v => .done trivial rfl)
  · next h => exact .of_toNat h (.modrm32 fun rm r hwf => .done hwf rfl)
  · next h => exact .of_toNat h group0FC7_completes
  · next h1 h2 h3 h4 =>
    have hop2 : op2 ∉ [0x31, 0x8C, 0xAF, 0xC7] := by simpa [BitVec.toNat_eq] using ⟨h1, h2, h3, h4⟩
    exact .reject fun bs => .inr (.inl ⟨op2, bs, rfl, hop2, rfl⟩)

/-- The rows of the one-byte map (30_encoding R150) leave the bytes of R160 (a). -/
theorem illegal_of_no_row {op : Byte}
    (hplus : op.toNat / 8 ∉ [0x08, 0x09, 0x0A, 0x0B, 0x0E, 0x0F, 0x16, 0x17])
    (hop : op.toNat ∉ [0x00, 0x01, 0x02, 0x03, 0x08, 0x09, 0x0F, 0x20, 0x21, 0x25, 0x28, 0x29, 0x30, 0x31,
      0x35, 0x38, 0x39, 0x3D, 0x63, 0x81, 0x83, 0x85, 0x87, 0x88, 0x89, 0x90, 0x9C, 0x9D, 0xA3, 0xC1, 0xC3,
      0xCD, 0xD1, 0xE8, 0xE9, 0xEB, 0xF4, 0xF7, 0xFA, 0xFB, 0xFC, 0xFD]) : illegalFirstByte op := by
  simp only [illegalFirstByte]
  revert op
  decide

/-- Every row of the one-byte map, in the order of `decodeOneByte`, and the bytes that have none. -/
theorem decodeOneByte_completes (op : Byte) : (decodeOneByte op).Completes ([] ++ [op]) := by
  unfold decodeOneByte
  split
  · next h => exact .done trivial (by rw [encode, Reg32.num_ofNum, ← eq_opcodePlus h rfl]; rfl)
  · next h => exact .done trivial (by rw [encode, Reg32.num_ofNum, ← eq_opcodePlus h rfl]; rfl)
  · next h => exact .done trivial (by rw [encode, Reg32.num_ofNum, ← eq_opcodePlus h rfl]; rfl)
  · next h => exact .done trivial (by rw [encode, Reg32.num_ofNum, ← eq_opcodePlus h rfl]; rfl)
  · next h => exact jccRel8_completes (by omega)
  · next h => exact jccRel8_completes (by omega)
  · next h =>
    exact .byte fun v => .done trivial (by rw [encode, Reg8.num_ofNum, ← eq_opcodePlus h rfl]; rfl)
  · next h =>
    exact .dword fun v => .done trivial (by rw [encode, Reg32.num_ofNum, ← eq_opcodePlus h rfl]; rfl)
  · split
    · next h => exact .of_toNat h (.modrm8 fun rm r hwf => .done hwf rfl)
    · next h => exact .of_toNat h (.modrm32 fun rm r hwf => .done hwf rfl)
    · next h => exact .of_toNat h (.modrm8 fun rm r hwf => .done hwf rfl)
    · next h => exact .of_toNat h (.modrm32 fun rm r hwf => .done hwf rfl)
    · next h => exact .of_toNat h (.modrm8 fun rm r hwf => .done hwf rfl)
    · next h => exact .of_toNat h (.modrm32 fun rm r hwf => .done hwf rfl)
    · next h => exact .of_toNat h (.byte decodeTwoByte_completes)
    · next h => exact .of_toNat h (.modrm8 fun rm r hwf => .done hwf rfl)
    · next h => exact .of_toNat h (.modrm32 fun rm r hwf => .done hwf rfl)
    · next h => exact .of_toNat h (.dword fun v => .done trivial rfl)
    · next h => exact .of_toNat h (.modrm8 fun rm r hwf => .done hwf rfl)
    · next h => exact .of_toNat h (.modrm32 fun rm r hwf => .done hwf rfl)
    · next h => exact .of_toNat h (.modrm8 fun rm r hwf => .done hwf rfl)
    · next h => exact .of_toNat h (.modrm32 fun rm r hwf => .done hwf rfl)
    · next h => exact .of_toNat h (.dword fun v => .done trivial rfl)
    · next h => exact .of_toNat h (.modrm8 fun rm r hwf => .done hwf rfl)
    · next h => exact .of_toNat h (.modrm32 fun rm r hwf => .done hwf rfl)
    · next h => exact .of_toNat h (.dword fun v => .done trivial rfl)
    · next h => exact .of_toNat h (.modrm32 fun rm r hwf => .done hwf rfl)
    · next h => exact .of_toNat h (.modrmGroup fun rm sub hwf => .dword (group81_completes hwf sub))
    · next h => exact .of_toNat h (.modrmGroup fun rm sub hwf => .byte (group83_completes hwf sub))
    · next h => exact .of_toNat h (.modrm32 fun rm r hwf => .done hwf rfl)
    · next h => exact .of_toNat h (.modrm32 fun rm r hwf => .done hwf rfl)
    · next h => exact .of_toNat h (.modrm8 fun rm r hwf => .done hwf rfl)
    · next h => exact .of_toNat h (.modrm32 fun rm r hwf => .done hwf rfl)
    · next h => exact .of_toNat h (.done trivial rfl)
    · next h => exact .of_toNat h (.done trivial rfl)
    · next h => exact .of_toNat h (.done trivial rfl)
    · next h => exact .of_toNat h (.dword fun v => .done trivial rfl)
    · next h =>
      obtain rfl : op = 0xC1 := BitVec.eq_of_toNat_eq h
      exact shiftGroup_completes (by simp) (fun rm hwf => .byte fun v => .done hwf rfl)
        fun rm hwf => .byte fun v => .done hwf rfl
    · next h => exact .of_toNat h (.done trivial rfl)
    · next h => exact .of_toNat h (.byte fun v => .done trivial rfl)
    · next h =>
      obtain rfl : op = 0xD1 := BitVec.eq_of_toNat_eq h
      exact shiftGroup_completes (by simp) (fun rm hwf => .done hwf rfl) fun rm hwf => .done hwf rfl
    · next h => exact .of_toNat h (.dword fun v => .done trivial rfl)
    · next h => exact .of_toNat h (.dword fun v => .done trivial rfl)
    · next h => exact .of_toNat h (.byte fun v => .done trivial rfl)
    · next h => exact .of_toNat h (.done trivial rfl)
    · next h => exact .of_toNat h (.modrmGroup fun rm sub hwf => groupF7_completes hwf sub)
    · next h => exact .of_toNat h (.done trivial rfl)
    · next h => exact .of_toNat h (.done trivial rfl)
    · next h => exact .of_toNat h (.done trivial rfl)
    · next h => exact .of_toNat h (.done trivial rfl)
    · refine .reject fun bs => .inl ⟨op, bs, rfl, ?_, rfl⟩
      simp only [imp_false] at *
      exact illegal_of_no_row (by simp [*]) (by simp [*])

theorem decoder_completes : decoder.Completes [] := .byte decodeOneByte_completes

/-- Settles O2: what the decoder gives is correct for the bytes it was given. -/
theorem encodeOfDecode : Obligations.EncodeOfDecode := fun bs rest i h => by
  have := decoder_completes bs
  rwa [← decode, h] at this

/-! ## Illegal encodings (30_encoding R160) -/

theorem shiftGroup_invalid {op m : Byte} {shl shr : Rm32 → Fetch} (h : modrmReg m ∉ [4, 5])
    (rest : List Byte) :
    (shiftGroup op shl shr).onBytes (m :: rest) = .reject (.invalidGroup op none m) := by
  rw [shiftGroup_eq, Fetch.onBytes, if_neg (by simp_all), if_neg (by simp_all)]
  rfl

theorem group0FC7_invalid {m : Byte} (h : modrmReg m ∉ [6, 7]) (rest : List Byte) :
    group0FC7.onBytes (m :: rest) = .reject (.invalidGroup 0x0F (some 0xC7) m) := by
  rw [group0FC7_eq, Fetch.onBytes, if_neg (by simp_all), if_neg (by simp_all)]
  rfl

theorem decodeTwoByte_unknown {op2 : Byte} (h : op2 ∉ [0x31, 0x8C, 0xAF, 0xC7]) :
    decodeTwoByte op2 = .reject (.unknownTwoByte op2) := by
  unfold decodeTwoByte
  split <;> simp_all [BitVec.toNat_eq]

theorem decode_illegalFirstByte {op : Byte} (h : illegalFirstByte op) (rest : List Byte) :
    decode (op :: rest) = .reject (.unknownOpcode op) := by
  have hop : (decodeOneByte op).onBytes [] = .reject (.unknownOpcode op) := by
    simp only [illegalFirstByte] at h
    revert op
    decide
  show (decodeOneByte op).onBytes rest = _
  cases hd : decodeOneByte op <;> rw [hd] at hop <;> simp_all [Fetch.onBytes]

/-- Settles O5: `decoder_completes` from left to right, the rejection of each case of R160 from right to
left. -/
theorem illegalEncodingsExactly : Obligations.IllegalEncodingsExactly := by
  refine fun bs e => ⟨fun h => ?_, ?_⟩
  · have := decoder_completes bs
    rwa [← decode, h] at this
  · rintro (⟨op, rest, rfl, hop, rfl⟩ | ⟨op2, rest, rfl, hop2, rfl⟩ | ⟨op, m, rest, rfl, hop, hm, rfl⟩ |
      ⟨m, rest, rfl, hm, rfl⟩)
    · exact decode_illegalFirstByte hop rest
    · exact congrArg (Fetch.onBytes · rest) (decodeTwoByte_unknown hop2)
    · rcases List.mem_pair.1 hop with rfl | rfl
      · exact shiftGroup_invalid hm rest
      · exact shiftGroup_invalid hm rest
    · exact group0FC7_invalid hm rest

end Sys2Proof
end

section
/-! Settles the encoder against the opcode table (30_encoding R150, R151). -/

namespace Sys2Proof

namespace OpcodeRow

theorem fits_append {row : OpcodeRow} {bs : List Byte} (h : row.fits bs = true) (tail : List Byte) :
    row.fits (bs ++ tail) = true := by
  induction row generalizing bs with
  | nil => rfl
  | cons e row ih =>
    cases bs with
    | nil => cases h
    | cons b bs =>
      simp only [fits, Bool.and_eq_true] at h
      simp only [List.cons_append, fits, Bool.and_eq_true]
      exact ⟨h.1, ih h.2⟩

/-- A byte of which a row keeps every bit. -/
theorem fits_exact {p : Byte} {row : OpcodeRow} {bs : List Byte} (h : fits ((p, 0xFF) :: row) bs = true) :
    ∃ bs', bs = p :: bs' ∧ row.fits bs' = true := by
  have hall : ∀ b : Byte, b &&& 0xFF = b := by decide
  cases bs with
  | nil => cases h
  | cons b bs =>
    simp only [fits, hall, Bool.and_eq_true, beq_iff_eq] at h
    obtain ⟨rfl, h⟩ := h
    exact ⟨bs, rfl, h⟩

/-- Two rows that take the same bits of the same bytes are the same. -/
theorem fits_unique {row row' : OpcodeRow} {bs : List Byte} (h : row.fits bs = true)
    (h' : row'.fits bs = true) (hmask : row.map Prod.snd = row'.map Prod.snd) : row = row' := by
  induction row generalizing row' bs with
  | nil => exact (List.map_eq_nil_iff.1 hmask.symm).symm
  | cons e row ih =>
    obtain ⟨p, mask⟩ := e
    match row', bs with
    | (p', mask') :: row', b :: bs =>
      simp only [List.map_cons, List.cons.injEq] at hmask
      simp only [fits, Bool.and_eq_true, beq_iff_eq] at h h'
      obtain ⟨rfl, hrest⟩ := hmask
      rw [← h.1, ← h'.1, ih h.2 h'.2 hrest]
    | _ :: _, [] => cases h

end OpcodeRow

/-- The bits that decide the row of some bytes, by the first byte and, after 0x0F, the second: those of
the opcode, without the register number it may hold (30_encoding R142), and the reg field of a group's
ModR/M byte (R152). -/
def leadMasks : List Byte → List Byte
  | [] => []
  | op :: bs =>
    if op &&& 0xF0 ∈ [0x40, 0x50, 0xB0] then [0xF8]
    else if op ∈ [0x81, 0x83, 0xC1, 0xD1, 0xF7] then [0xFF, 0x38]
    else if op = 0x0F then if bs.head? = some 0xC7 then [0xFF, 0xFF, 0x38] else [0xFF, 0xFF]
    else [0xFF]

theorem leadMasks_plus {p : Byte} {bs : List Byte} (hp : p &&& 0xF0 ∈ [0x40, 0x50, 0xB0])
    (h : OpcodeRow.fits [(p, 0xF8)] bs = true) : leadMasks bs = [0xF8] := by
  have hhigh : ∀ b : Byte, b &&& 0xF8 &&& 0xF0 = b &&& 0xF0 := by decide
  cases bs with
  | nil => cases h
  | cons b bs =>
    simp only [OpcodeRow.fits, Bool.and_true, beq_iff_eq] at h
    rw [← h, hhigh] at hp
    exact if_pos hp

theorem leadMasks_of_fits {j : Instr} {bs : List Byte} (h : OpcodeRow.fits j.row bs = true) :
    leadMasks bs = j.row.map Prod.snd := by
  cases j with
  | incR32 _ | decR32 _ | pushR32 _ | popR32 _ | movR8Imm8 _ _ | movR32Imm32 _ _ =>
    exact leadMasks_plus (by decide) h
  | rdtsc | jlTarget32 _ | imul2R32Rm32 _ _ | rdrandRm32 _ | rdseedRm32 _ =>
    obtain ⟨bs1, rfl, h1⟩ := OpcodeRow.fits_exact h
    obtain ⟨bs2, rfl, -⟩ := OpcodeRow.fits_exact h1
    rfl
  | _ =>
    obtain ⟨bs, rfl, -⟩ := OpcodeRow.fits_exact h
    rfl

/-- The reg field of a group's ModR/M byte holds the sub-operation (30_encoding R146, R152). -/
theorem encodeGroup_fits (sub : BitVec 3) (rm : Rm32) :
    OpcodeRow.fits [(sub.setWidth 8 <<< 3, 0x38)] (encodeGroup sub rm) = true := by
  have hreg : ∀ (mod : BitVec 2) (reg n : BitVec 3),
      (modrmByte mod reg n &&& 0x38 == reg.setWidth 8 <<< 3) = true := by decide
  cases rm with
  | reg r => exact (Bool.and_true _).trans (hreg 3 sub r.num)
  | mem m => exact (Bool.and_true _).trans (hreg m.encoding.1 sub m.encoding.2.1)

theorem encode_fits_row (i : Instr) : OpcodeRow.fits i.row (encode i) = true := by
  cases i with
  | incR32 r | decR32 r | pushR32 r | popR32 r | movR8Imm8 r _ | movR32Imm32 r _ => cases r <;> rfl
  | addRm32Imm32 rm _ | addRm32Imm8 rm _ | testRm32Imm32 rm _ =>
    exact OpcodeRow.fits_append (encodeGroup_fits 0 rm) _
  | orRm32Imm32 rm _ | orRm32Imm8 rm _ | testRm32Imm32Alt rm _ =>
    exact OpcodeRow.fits_append (encodeGroup_fits 1 rm) _
  | adcRm32Imm32 rm _ | adcRm32Imm8 rm _ => exact OpcodeRow.fits_append (encodeGroup_fits 2 rm) _
  | sbbRm32Imm32 rm _ | sbbRm32Imm8 rm _ => exact OpcodeRow.fits_append (encodeGroup_fits 3 rm) _
  | andRm32Imm32 rm _ | andRm32Imm8 rm _ | shlRm32Imm8 rm _ =>
    exact OpcodeRow.fits_append (encodeGroup_fits 4 rm) _
  | subRm32Imm32 rm _ | subRm32Imm8 rm _ | shrRm32Imm8 rm _ =>
    exact OpcodeRow.fits_append (encodeGroup_fits 5 rm) _
  | xorRm32Imm32 rm _ | xorRm32Imm8 rm _ => exact OpcodeRow.fits_append (encodeGroup_fits 6 rm) _
  | cmpRm32Imm32 rm _ | cmpRm32Imm8 rm _ => exact OpcodeRow.fits_append (encodeGroup_fits 7 rm) _
  | notRm32 rm => exact encodeGroup_fits 2 rm
  | negRm32 rm => exact encodeGroup_fits 3 rm
  | shlRm32One rm | mulRm32 rm => exact encodeGroup_fits 4 rm
  | shrRm32One rm | imulRm32 rm => exact encodeGroup_fits 5 rm
  | divRm32 rm | rdrandRm32 rm => exact encodeGroup_fits 6 rm
  | idivRm32 rm | rdseedRm32 rm => exact encodeGroup_fits 7 rm
  | _ => rfl

/-- Settles O3: the bytes of an encoding decide which bits its row takes, and then the row. -/
theorem encodingMatchesOneRow : Obligations.EncodingMatchesOneRow := fun i =>
  ⟨encode_fits_row i, fun _ hj => OpcodeRow.fits_unique hj (encode_fits_row i)
    ((leadMasks_of_fits hj).symm.trans (leadMasks_of_fits (encode_fits_row i)))⟩

end Sys2Proof
end

section
/-! Settles the fetch: the transactions it makes (30_encoding R183, R184), and that it decodes the bytes
at EIP when they lie in one page (40_execution R200). -/

namespace Sys2Proof.Machine

/-! ## The counters of a read transaction (10_state R45, 20_memory R88, R95) -/

section
variable (p : Params)

@[simp] theorem Mmu.evict_counters (m : Mmu) (page : Nat) : (m.evict page).counters = m.counters := by
  unfold Mmu.evict; split <;> rfl

theorem Mmu.allocFrame_counters (m : Mmu) : m.allocFrame.mmu.counters = m.counters := by
  rcases m.allocFrame_cases with ⟨f, r, _, h⟩ | ⟨_, q, e, _, h⟩ | ⟨_, _, h⟩ <;> rw [h] <;> simp

theorem Mmu.mapped_counters (page f : Nat) (m : Mmu) : (m.mapped p page f).counters = m.counters := by
  unfold Mmu.mapped
  rw [Mmu.fillFrame_eq]
  rfl

/-- A translation counts one TLB hit or one TLB miss, and with a miss it may count a page fault. -/
theorem Mmu.translate_counters {v : Word} {m n : Mmu} {a : Nat} (h : m.translate p v = .ok a n) :
    n.counters = m.countTlbHit.counters ∨ n.counters = m.countTlbMiss.counters ∨
      n.counters = m.countTlbMiss.countPageFault.counters := by
  rcases m.translate_cases p v with ⟨f, _, h'⟩ | ⟨_, f, _, h'⟩ | ⟨_, _, f, k, hk, h'⟩ | ⟨_, _, e, _, h'⟩
    <;> rw [h] at h' <;> simp only [MmuResult.ok.injEq, reduceCtorEq] at h' <;> obtain ⟨-, rfl⟩ := h'
  · exact .inl rfl
  · exact .inr (.inl rfl)
  · have := Mmu.allocFrame_counters m.countTlbMiss.countPageFault
    rw [hk] at this
    exact .inr (.inr ((Mmu.mapped_counters p (pageOf v) f k).trans this))

theorem Mmu.l1Insert_counters (line : Nat) (m : Mmu) : (m.l1Insert p line).counters = m.counters := by
  show (m.l1MakeRoom p line).counters = m.counters
  unfold Mmu.l1MakeRoom
  split
  · split
    · rfl
    · unfold Mmu.l2Fill; split <;> rfl
  · rfl

@[simp] theorem Mmu.physRead_mmu (v : Word) (a : Nat) (w : Width) (m : Mmu) :
    (m.physRead p v a w).mmu = m := by
  rw [Mmu.physRead_eq]; split <;> rfl

/-- A cached read counts one hit or one miss. -/
theorem Mmu.readAt_counters (v : Word) (a : Nat) (w : Width) (m : Mmu) :
    (m.readAt p v a w).mmu.counters = m.countCacheHit.counters ∨
      (m.readAt p v a w).mmu.counters = m.countCacheMiss.counters := by
  unfold Mmu.readAt
  dsimp only
  split
  · exact .inl (by rw [Mmu.physRead_mmu]; rfl)
  · split
    · exact .inl (by rw [Mmu.physRead_mmu, Mmu.l1Insert_counters]; rfl)
    · right
      rw [Mmu.physRead_eq]
      split
      · exact Mmu.l1Insert_counters _ _ _
      · rfl

end

/-! ## The transactions of a fetch (30_encoding R183, R184) -/

/-- `t` is `s` after `n` read transactions: only the MMU has changed, no byte was stored, and each read
made one translation and one cached read. -/
structure ReadsMade (n : Nat) (s t : State) : Prop where
  onlyMmu : t = s.setMmu t.mmu
  bytes : s.params.frameFill = .keep → ∀ a, t.byteAt a = s.byteAt a
  tlb : t.mmu.counters.tlbHits + t.mmu.counters.tlbMisses =
    s.mmu.counters.tlbHits + s.mmu.counters.tlbMisses + n
  cache : t.mmu.counters.cacheHits + t.mmu.counters.cacheMisses =
    s.mmu.counters.cacheHits + s.mmu.counters.cacheMisses + n

theorem ReadsMade.zero (s : State) : ReadsMade 0 s s := ⟨rfl, fun _ _ => rfl, rfl, rfl⟩

theorem ReadsMade.trans {m n : Nat} {s t u : State} (h : ReadsMade m s t) (h' : ReadsMade n t u) :
    ReadsMade (m + n) s u := by
  have hparams : t.params = s.params := by rw [h.onlyMmu]; rfl
  refine ⟨by rw [h'.onlyMmu, h.onlyMmu]; rfl, fun hk a => ?_, ?_, ?_⟩
  · exact (h'.bytes (hparams ▸ hk) a).trans (h.bytes hk a)
  · rw [h'.tlb, h.tlb, Nat.add_assoc]
  · rw [h'.cache, h.cache, Nat.add_assoc]

/-- A read that completes is one transaction (20_memory R95). -/
theorem memRead_readsMade {v : Word} {w : Width} {s t : State} {x : Word}
    (h : memRead v w s = .ok x t) : ReadsMade 1 s t := by
  obtain ⟨a, n, ht, hn, honly⟩ := memRead_ok h
  have hmmu : t.mmu = (n.readAt s.params v a w).mmu := by
    have := memRead_left v w s
    rw [h, Res.left_ok, Mmu.read, ht] at this
    exact congrArg State.mmu this
  have hbytes : s.params.frameFill = .keep → ∀ b, t.byteAt b = s.byteAt b := fun hk b => by
    by_contra hne
    refine (Mmu.translate_phys s.params (v := v) (m := s.mmu) (a := b) ?_).1 hk
    rwa [ht, MmuResult.mmu_ok, ← hn.phys]
  have hcount := Mmu.readAt_counters s.params v a w n
  rw [← hmmu] at hcount
  refine ⟨honly, hbytes, ?_, ?_⟩ <;>
    rcases Mmu.translate_counters s.params ht with h1 | h1 | h1 <;>
    rcases hcount with h2 | h2 <;>
    simp only [h1, h2, Mmu.countTlbHit, Mmu.countTlbMiss, Mmu.countPageFault, Mmu.countCacheHit,
      Mmu.countCacheMiss] <;> omega

/-- A fetch that completes has read bytes that decode to its instruction, in one transaction for each
read of that decode. -/
theorem onMmu_ok {start : Word} {f : Fetch} {a : Word} {s t : State} {i : Instr}
    (h : Fetch.onMmu start f a s = .ok i t) :
    ∃ bs, f.onBytes bs = .instr i [] ∧
      ∀ q, f.Reads i [] bs q → ∃ n, q + n = i.parts ∧ ReadsMade n s t := by
  induction f generalizing a s with
  | done j =>
    obtain ⟨rfl, rfl⟩ := Res.ok.inj h
    exact ⟨[], rfl, fun q hq => by cases hq with | done hq => exact ⟨0, hq, .zero s⟩⟩
  | reject e => cases h
  | byte k ih =>
    obtain ⟨x, u, hread, hrest⟩ := Res.bind_eq_ok h
    obtain ⟨bs, hbs, hq⟩ := ih _ hrest
    refine ⟨x.setWidth 8 :: bs, hbs, fun q hreads => ?_⟩
    cases hreads with
    | byte hreads =>
      obtain ⟨n, hn, hmade⟩ := hq (q + 1) hreads
      exact ⟨1 + n, by omega, (memRead_readsMade hread).trans hmade⟩
  | dword k ih =>
    obtain ⟨x, u, hread, hrest⟩ := Res.bind_eq_ok h
    obtain ⟨bs, hbs, hq⟩ := ih _ hrest
    refine ⟨wordBytes 4 x ++ bs, by rw [Fetch.onBytes_dword, hbs], fun q hreads => ?_⟩
    obtain ⟨n, hn, hmade⟩ := hq (q + 1) (Fetch.Reads.word_iff.1 hreads)
    exact ⟨1 + n, by omega, (memRead_readsMade hread).trans hmade⟩

/-- Settles O7: the bytes read are the encoding of the instruction, which is read part by part. -/
theorem fetchReadsTheParts : Obligations.FetchReadsTheParts := fun s s1 i h => by
  obtain ⟨bs, hbs, hmade⟩ := onMmu_ok h
  obtain ⟨hwf, rfl⟩ := encodeOfDecode bs [] i hbs
  obtain ⟨n, hn, hmade⟩ := hmade 0 (decoder_reads_encode i [] hwf)
  obtain rfl : n = i.parts := by omega
  exact ⟨hwf, hmade.onlyMmu, hmade.bytes, hmade.tlb, hmade.cache⟩

/-! ## The fetch of an instruction in one page (30_encoding R180, 40_execution R200) -/

section
variable {s : State} {v : Word} {a j : Nat} {n m : Mmu}

/-- A read further on in a page that was translated gives the stored bytes there. -/
theorem memRead_further (ht : s.mmu.translate s.params v = .ok a n) (hm : n.SameButCaches m) (w : Width)
    (hpage : offsetOf v + j < 4096) (hmem : a + j + w.bytes ≤ s.params.memSize) :
    ∃ k, n.SameButCaches k ∧ memRead (v + BitVec.ofNat 32 j) w (s.setMmu m) =
      .ok (wordOfBytes (n.phys.readBytes (a + j) w.bytes)) (s.setMmu k) := by
  obtain ⟨k, hk, hread⟩ := memRead_of_translate (s := s.setMmu m)
    (Mmu.translate_further ht hm.tlb hpage) w
  have hnm : n.SameButCaches m.countTlbHit := hm.trans rfl
  refine ⟨k, hnm.trans hk, ?_⟩
  rw [← hnm.phys]
  exact hread.trans (if_pos hmem)

/-- A byte that was read, as the decoder takes it. -/
theorem readByte_setWidth (p : Memory) (b : Nat) :
    (wordOfBytes (p.readBytes b Width.byte.bytes)).setWidth 8 = p.read b := by
  rw [Width.bytes, Memory.readBytes, Memory.readBytes, wordOfBytes_singleton]
  exact BitVec.setWidth_setWidth_of_le _ (by decide)

/-- Reads from the `j`-th byte of a page on decode what the `k` bytes stored there decode to. -/
theorem onMmu_of_onBytes (ht : s.mmu.translate s.params v = .ok a n) (start : Word) {f : Fetch}
    {i : Instr} {k : Nat} (hm : n.SameButCaches m) (hpage : offsetOf v + j + k ≤ 4096)
    (hmem : a + j + k ≤ s.params.memSize)
    (h : f.onBytes (n.phys.readBytes (a + j) k) = .instr i []) :
    ∃ m', n.SameButCaches m' ∧
      Fetch.onMmu start f (v + BitVec.ofNat 32 j) (s.setMmu m) = .ok i (s.setMmu m') := by
  induction f generalizing j k m with
  | done i' =>
    rw [Fetch.onBytes] at h
    injection h with hi _
    exact ⟨m, hm, by rw [← hi]; rfl⟩
  | reject e => cases h
  | byte g ih =>
    match k, h with
    | k + 1, h =>
      obtain ⟨m1, hm1, hread⟩ := memRead_further ht hm .byte (j := j) (by omega)
        (by rw [Width.bytes]; omega)
      obtain ⟨m2, hm2, hrest⟩ := ih (n.phys.read (a + j)) (j := j + 1) hm1 (by omega) (by omega) h
      refine ⟨m2, hm2, ?_⟩
      rw [Fetch.onMmu, hread, Res.bind_ok, BitVec.add_assoc, readByte_setWidth, ← hrest,
        BitVec.ofNat_add]
      rfl
  | dword g ih =>
    match k, h with
    | k + 4, h =>
      obtain ⟨m1, hm1, hread⟩ := memRead_further ht hm .dword (j := j) (by omega)
        (by rw [Width.bytes]; omega)
      obtain ⟨m2, hm2, hrest⟩ := ih (wordOfBytes (n.phys.readBytes (a + j) 4)) (j := j + 4) hm1
        (by omega) (by omega) h
      refine ⟨m2, hm2, ?_⟩
      rw [Fetch.onMmu, hread, Res.bind_ok, BitVec.add_assoc, ← hrest, BitVec.ofNat_add]
      rfl

/-- A fetch decodes the bytes at EIP when they lie in one page and inside memory, and changes no data. -/
theorem fetch_of_decode (ht : s.mmu.translate s.params s.eip = .ok a n) {i : Instr} {k : Nat}
    (hpage : offsetOf s.eip + k ≤ 4096) (hmem : a + k ≤ s.params.memSize)
    (h : decode (n.phys.readBytes a k) = .instr i []) :
    ∃ m, n.SameButCaches m ∧ fetch s = .ok i (s.setMmu m) := by
  match k, h with
  | k + 1, h =>
    obtain ⟨m, hm, hread⟩ := memRead_of_translate ht .byte
    rw [if_pos (by rw [Width.bytes]; omega)] at hread
    obtain ⟨m', hm', hrest⟩ := onMmu_of_onBytes ht s.eip (f := decodeOneByte (n.phys.read a)) (j := 1) hm
      (by omega) (by omega) h
    refine ⟨m', hm', ?_⟩
    rw [fetch, decodeAt, decoder, Fetch.onMmu, hread, Res.bind_ok, readByte_setWidth]
    exact hrest

end

/-- Settles O6: the fetch gives `i`, and `retire` is the end of the step. -/
theorem stepRunsDecodedInstruction : Obligations.StepRunsDecodedInstruction := by
  intro s i a hrun ha hpage hmem hdec
  obtain ⟨n, ht⟩ := physAddr_eq_some.1 ha
  rw [codeBytes, ht] at hdec
  obtain ⟨m, hm, hfetch⟩ := fetch_of_decode ht hpage hmem hdec
  refine ⟨s.setMmu m, rfl, ?_, hfetch, ?_⟩
  · exact .of_translate ht hm.pageDir fun b _ => congrArg (Memory.read · b) hm.phys
  · simp only [step, hrun, Bool.false_eq_true, if_false, hfetch]
    cases exec i (s.setMmu m) <;> rfl

end Sys2Proof.Machine
end

section
/-! Settles effective addresses, the copies and the stack (40_execution R206 to R211,
41_data_transfer R241 to R249, 44_control R351, R352). -/

namespace Sys2Proof.Machine

/-! ## Effective addresses (40_execution R206) -/

/-- Settles O25: each shape, with its displacement as a number. -/
theorem effectiveAddresses : Obligations.EffectiveAddresses := fun s a d b k => by
  refine ⟨rfl, rfl, BitVec.toNat_add _ _, fun h => ?_, fun h => ?_⟩
  · simp only [effectiveAddress, disp8Addend, h]
    rw [BitVec.ofInt_add, BitVec.ofInt_natCast, BitVec.ofNat_toNat, BitVec.setWidth_eq]
    rfl
  · simp only [effectiveAddress, disp8Addend, h]
    apply BitVec.eq_of_toNat_eq
    simp

/-! ## Copies (41_data_transfer R241 to R245) -/

/-- A byte, zero-extended, fits a place of one byte. -/
theorem truncate_byte_setWidth (b : Byte) : truncate .byte (b.setWidth 32) = b.setWidth 32 := by
  rw [truncate_byte, BitVec.setWidth_setWidth_of_le b (by decide), BitVec.setWidth_eq]

/-- The value that is copied fits the destination. -/
theorem moveForm_fits {i : Instr} {w : Width} {dst : Place} {src : Operand}
    (h : moveForm i = some (w, dst, src)) (s : State) :
    truncate w (operandValue src s) = operandValue src s := by
  cases i with
  | movRm8R8 | movR8Imm8 => cases h; exact truncate_byte_setWidth _
  | movRm32R32 | movR32Imm32 | movAddr32Eax | movsxdR32Rm32 => cases h; exact truncate_dword _
  | _ => cases h

/-- Settles O28: the shape of the copies, whose value fits the destination. -/
theorem moveCopies : Obligations.MoveCopies := fun i w dst src s h hd hs => by
  obtain ⟨hone, hw⟩ := moveForm_shape h
  obtain ⟨t, ht, hwrote, hmmu⟩ := move_ready hd hs hone
  refine ⟨t, by rw [exec_moveForm h, ht, Res.outcome_ok], hwrote.kept t.flags, hwrote.bytes,
    hwrote.flags, ?_, hmmu⟩
  rw [hwrote.value, hw, moveForm_fits h]

/-! ## Pushes (40_execution R210) -/

/-- ESP is lowered to another value, and every other register is kept. -/
theorem regsKept_setEsp {s t : State} {v : Word} (h : t.regs = s.regs.set .esp v) :
    RegsKept [.esp] s t := fun r hr => by
  rw [State.reg, h]
  exact Regs.get_set_other _ v (by simpa using hr)

/-- The value an instruction pushes: PUSH its register, PUSHF the flags word. -/
theorem exec_push {i : Instr} {v : Word} {s : State}
    (h : (∃ r, i = .pushR32 r ∧ v = s.reg r) ∨ (i = .pushf ∧ v = s.flags.pack)) :
    exec i s = (push v s).outcome := by
  rcases h with ⟨r, rfl, rfl⟩ | ⟨rfl, rfl⟩ <;> rfl

/-- Settles O30: the store is at the lowered ESP, of the value before. -/
theorem pushStores : Obligations.PushStores := fun i v s hi hacc => by
  obtain ⟨t, ht, honly, hmem, -, hval, hprot⟩ := push_accessible v hacc
  refine ⟨t, by rw [exec_push hi, ht, Res.outcome_ok], ⟨?_, hmem, ?_, hprot⟩, ?_, ?_, hval⟩
  · rw [honly]; rfl
  · exact regsKept_setEsp (by rw [honly]; rfl)
  · rw [honly]; rfl
  · rw [honly]; exact State.reg_setReg_self s .esp _

/-- A push that cannot store raises from the state with ESP lowered (40_execution R210). -/
theorem push_inaccessible {s : State} (v : Word) (h : ¬ Accessible (s.reg .esp - 4) .dword s) :
    ∃ f m, push v s = .fault f ∧ f.left = (s.setReg .esp (s.reg .esp - 4)).setMmu m ∧
      MemoryKept noBytes s f.left := by
  have h' : ¬ Accessible (s.reg .esp - 4) .dword (s.setReg .esp (s.reg .esp - 4)) := h
  rcases access_inaccessible h' with ⟨m, -, hk, -, hw⟩ | ⟨a, -, m, -, -, -, hk, -, hw⟩
  · exact ⟨_, m, hw v, rfl, hk.congr rfl rfl rfl⟩
  · exact ⟨_, m, hw v, rfl, hk.congr rfl rfl rfl⟩

/-- An instruction that pushes raises what its push raises. -/
theorem exec_push_fault {i : Instr} {s : State}
    (hi : (∃ r, i = .pushR32 r) ∨ i = .pushf ∨ ∃ target, i = .callTarget32 target) :
    ∃ v, ∀ f, push v s = .fault f → exec i s = .fault f := by
  rcases hi with ⟨r, rfl⟩ | rfl | ⟨target, rfl⟩
  · exact ⟨s.reg r, fun f hf => by rw [exec, execPushR32, hf, Res.outcome_fault]⟩
  · exact ⟨s.flags.pack, fun f hf => by rw [exec, execPushf, hf, Res.outcome_fault]⟩
  · exact ⟨s.eip, fun f hf => by rw [exec, execCallTarget32, hf, Res.bind_fault, Res.outcome_fault]⟩

/-- Settles O31: ESP is lowered before the write that raises. -/
theorem failedPushLowersEsp : Obligations.FailedPushLowersEsp := fun i s hi hacc => by
  obtain ⟨v, hexec⟩ := exec_push_fault (s := s) hi
  obtain ⟨f, m, hf, hleft, hmem⟩ := push_inaccessible v hacc
  refine ⟨f, hexec f hf, ?_, regsKept_setEsp (v := s.reg .esp - 4) ?_, ?_, ?_, hmem⟩ <;> rw [hleft]
  · exact State.reg_setReg_self s .esp _
  · rfl
  · rfl
  · rfl

/-- Settles O49: the push of EIP, then the jump. -/
theorem callPushesItsOwnAddress : Obligations.CallPushesItsOwnAddress := fun target s hacc => by
  obtain ⟨t, ht, honly, hmem, -, hval, hprot⟩ := push_accessible s.eip hacc
  refine ⟨jumpAbs target t, ?_, ?_, ?_, ?_, hprot, hmem.congr rfl rfl rfl, hval⟩
  · rw [exec, execCallTarget32, ht, Res.bind_ok, Res.outcome_ok]
  · rw [honly]; rfl
  · exact regsKept_setEsp (v := s.reg .esp - 4) (by rw [honly]; rfl)
  · rw [honly]; exact State.reg_setReg_self s .esp _

/-! ## Pops (40_execution R211) -/

/-- Settles O32: ESP is raised before the register is written. -/
theorem popLoads : Obligations.PopLoads := fun r s hacc => by
  obtain ⟨t, ht, honly, hmem, hprot⟩ := pop_accessible hacc
  refine ⟨t.setReg r (loadedValue (s.reg .esp) .dword s), ?_,
    ⟨?_, hmem.congr rfl rfl rfl, fun r' hr' => ?_, hprot⟩, ?_, State.reg_setReg_self t r _, fun hr => ?_⟩
  · rw [exec, execPopR32, ht, Res.bind_ok, Res.outcome_ok]
  · rw [honly]; rfl
  · obtain ⟨hr, hesp⟩ : r' ≠ r ∧ r' ≠ .esp := by simpa using hr'
    rw [State.reg_setReg_other t _ hr, honly]
    exact State.reg_setReg_other s _ hesp
  · rw [honly]; rfl
  · rw [State.reg_setReg_other t _ (Ne.symm hr), honly]
    exact State.reg_setReg_self s .esp _

/-- Settles O50: the pop, then the jump to the word popped. -/
theorem returnPopsEip : Obligations.ReturnPopsEip := fun s hacc => by
  obtain ⟨t, ht, honly, hmem, hprot⟩ := pop_accessible hacc
  refine ⟨t.setEip (loadedValue (s.reg .esp) .dword s), ?_, ?_, ?_, ?_, hprot, hmem.congr rfl rfl rfl⟩
  · rw [exec, execRet, ht, Res.bind_ok, Res.outcome_ok]
  · rw [honly]; rfl
  · exact regsKept_setEsp (v := s.reg .esp + 4) (by rw [honly]; rfl)
  · rw [honly]; exact State.reg_setReg_self s .esp _

/-- What an access found accessible is so after it. -/
theorem After.accessible {v : Word} {a : Nat} {s t : State} {w : Width} (h : After v a s t)
    (hb : a + w.bytes ≤ s.params.memSize) : Accessible v w t :=
  ⟨a, physAddr_eq_some.2 ⟨_, h.addr t h.params rfl⟩, by rw [h.params]; exact hb⟩

/-- A push leaves the word pushed where a pop finds it. -/
theorem push_then_loaded {s : State} (v : Word) (h : Accessible (s.reg .esp - 4) .dword s) :
    ∃ t, push v s = .ok () t ∧ t.reg .esp = s.reg .esp - 4 ∧ Accessible (t.reg .esp) .dword t ∧
      loadedValue (t.reg .esp) .dword t = v := by
  obtain ⟨t, ht, honly, -, ⟨a, hafter, hb⟩, hval, -⟩ := push_accessible v h
  have hesp : t.reg .esp = s.reg .esp - 4 := by rw [honly]; exact State.reg_setReg_self s .esp _
  exact ⟨t, ht, hesp, hesp ▸ hafter.accessible hb, hesp ▸ hval⟩

/-- Settles O34: the pop of O32, in the state the push leaves. -/
theorem pushThenPop : Obligations.PushThenPop := fun x y s hacc => by
  obtain ⟨t, ht, hesp, hacct, hval⟩ := push_then_loaded (s.reg x) hacc
  obtain ⟨u, hu, -, -, hy, hu_esp⟩ := popLoads y t hacct
  refine ⟨t, u, by rw [exec, execPushR32, ht, Res.outcome_ok], hu, hy.trans hval, fun hne => ?_⟩
  rw [hu_esp hne, hesp, BitVec.sub_add_cancel]

end Sys2Proof.Machine
end

section
/-! Settles arithmetic, logic, shifts and multiplication: each shape of instruction with the flags of its
result as numbers (40_execution R215 to R226, 42_arith_logic R270 to R284, 43_mul_div R310 to R312). -/

namespace Sys2Proof.Machine

/-! ## Two-operand operations (40_execution R225, R226) -/

/-- Settles O35: the shape of the operations that write, with the exact meaning of each. -/
theorem aluOperationsWrite : Obligations.AluOperationsWrite := fun i op w dst src s h hc hd hs => by
  obtain ⟨hone, hw⟩ := aluForm_shape h
  obtain ⟨t, ht, hwrote, hmmu⟩ := aluWrite_ready (op := op) (w := w) hd hs hone
  refine ⟨_, op.result (placeValue dst s) (operandValue src s) s.flags.cf,
    (exec_aluForm h hc).trans (congrArg Res.outcome ht), hwrote.kept _, hwrote.otherBytes _,
    op.flags_control _ _ _ _ _, ?_, op.meaning _ (flagBits_pos _ _) (flagBits_le _ _) _ _ _ _, hmmu⟩
  rw [placeValue_setFlags, hwrote.value, hw]

/-- The frame of an instruction that reads operands and then writes registers and flags. -/
theorem Ready.kept_regs {p : Place} {s t : State} (h : Ready p s t) {g : Regs} {written : List Reg32}
    (hg : ∀ r, r ∉ written → g.get r = s.reg r) (f : Flags) :
    Kept noBytes written s { t with regs := g, flags := f } :=
  ⟨by rw [h.only]; rfl, h.kept.congr rfl rfl rfl, hg, h.protectedPages⟩

theorem Ready.regs {p : Place} {s t : State} (h : Ready p s t) : t.regs = s.regs := by
  rw [h.only]; rfl

theorem Ready.flags {p : Place} {s t : State} (h : Ready p s t) : t.flags = s.flags := by
  rw [h.only]; rfl

/-- Settles O36: the shape of the operations that only write flags. -/
theorem compareWritesOnlyFlags : Obligations.CompareWritesOnlyFlags := fun i op w dst src s h hd hs => by
  obtain ⟨t, ht, hready, heq⟩ := aluTest_ready (op := op) (w := w) hd hs (testForm_shape h)
  refine ⟨_, op.result (placeValue dst s) (operandValue src s) s.flags.cf,
    (exec_testForm h s).trans (congrArg Res.outcome ht), ?_, op.flags_control _ _ _ _ _,
    op.meaning _ (flagBits_pos _ _) (flagBits_le _ _) _ _ _ _, fun h1 h2 => ?_⟩
  · exact hready.kept_regs (fun r _ => by rw [hready.regs]; rfl) _
  · obtain rfl := heq h1 h2
    rfl

/-- Settles O38: the four forms test the parameter first. -/
theorem adcSbbRefused : Obligations.AdcSbbRefused := fun rm imm imm' s h => by
  simp only [exec, execAdcRm32Imm32, execAdcRm32Imm8, execSbbRm32Imm32, execSbbRm32Imm8, h, and_self]

/-! ## One-operand operations (40_execution R220, 42_arith_logic R281, R282) -/

/-- Adding 1 carries exactly out of the largest word. -/
theorem carry_add_one (a : Word) :
    decide (2 ^ 32 ≤ a.toNat + (1#32).toNat + false.toNat) = decide (a = 0xFFFFFFFF) := by
  have h : a = 0xFFFFFFFF ↔ a.toNat = 0xFFFFFFFF := BitVec.toNat_inj.symm
  have := a.isLt
  rw [decide_eq_decide, h, Bool.toNat_false, BitVec.toNat_ofNat]
  omega

/-- Subtracting 1 borrows exactly from 0. -/
theorem borrow_sub_one (a : Word) :
    decide (a.toNat < (1#32).toNat + false.toNat) = decide (a = 0) := by
  have h : a = 0 ↔ a.toNat = 0 := BitVec.toNat_inj.symm
  rw [decide_eq_decide, h, Bool.toNat_false, BitVec.toNat_ofNat]
  omega

/-- Subtracting from 0 borrows exactly for a value that is not 0. -/
theorem borrow_zero_sub (a : Word) :
    decide ((0#32).toNat < a.toNat + false.toNat) = decide (a ≠ 0) := by
  have h : a = 0 ↔ a.toNat = 0 := BitVec.toNat_inj.symm
  rw [decide_eq_decide, Ne, h, Bool.toNat_false, BitVec.toNat_ofNat]
  omega

/-- Settles O39: the flags of ADD and SUB of 1, with the carry and the borrow. -/
theorem incDecWriteCarry : Obligations.IncDecWriteCarry := fun r s =>
  ⟨⟨addFlags 32 (s.reg r) 1 false s.flags, rfl, addFlags_sum 32 (by decide) le_rfl _ _ _ _,
      carry_add_one _, rfl, rfl, rfl⟩,
    ⟨subFlags 32 (s.reg r) 1 false s.flags, rfl, subFlags_difference 32 (by decide) le_rfl _ _ _ _,
      borrow_sub_one _, rfl, rfl, rfl⟩⟩

/-- A doubleword operand holds every value written to it. -/
theorem Wrote.value32 {rm : Rm32} {x : Word} {s t : State} (h : Wrote (Rm32.place rm) x s t) :
    placeValue (Rm32.place rm) t = x := by
  rw [h.value, place_width32, truncate_dword]

/-- The difference from 0 as a word. -/
theorem zero_sub_word (a : Word) : 0 - a = BitVec.ofInt 32 (-(a.toNat : Int)) := by
  have := difference_word 0 a false
  simpa [carryWord] using this

/-- Settles O40: the shape of the one-operand operations, twice. -/
theorem notAndNeg : Obligations.NotAndNeg := fun rm s hd => by
  constructor
  · obtain ⟨t, ht, hwrote, hmmu⟩ := unaryWrite_ready (f := fun a => ~~~a) (g := fun _ f => f) hd
    refine ⟨_, congrArg Res.outcome ht, hwrote.kept _, rfl, fun k hk => ?_, hmmu⟩
    rw [placeValue_setFlags, hwrote.value32, BitVec.getLsbD_not, decide_eq_true hk, Bool.true_and]
  · obtain ⟨t, ht, hwrote, hmmu⟩ := unaryWrite_ready (f := fun a => 0 - a)
      (g := fun a f => subFlags 32 0 a false f) hd
    refine ⟨_, congrArg Res.outcome ht, hwrote.kept _, ⟨rfl, rfl, rfl⟩, ?_,
      subFlags_difference 32 (by decide) le_rfl _ _ _ _, borrow_zero_sub _, hmmu⟩
    rw [placeValue_setFlags, hwrote.value32, zero_sub_word]

/-! ## Shifts (40_execution R221 to R223) -/

section
variable {p : Params} {a : Word} {count : Byte}

/-- SHL by 1 to 31 (40_execution R221). -/
theorem shift_shl (h : 1 ≤ count.toNat ∧ count.toNat ≤ 31) :
    (shift p .shl a count).result = BitVec.ofNat 32 (a.toNat * 2 ^ count.toNat) ∧
      (shift p .shl a count).cf = some (a.getLsbD (32 - count.toNat)) ∧
      (count = 1 → (shift p .shl a count).of = some (a.getLsbD 31 != a.getLsbD 30)) := by
  simp only [shift, if_pos h]
  refine ⟨?_, trivial, fun h1 => by simp [h1]⟩
  apply BitVec.eq_of_toNat_eq
  rw [BitVec.toNat_shiftLeft, Nat.shiftLeft_eq, BitVec.toNat_ofNat]

/-- SHR by 1 to 31 (40_execution R222). -/
theorem shift_shr (h : 1 ≤ count.toNat ∧ count.toNat ≤ 31) :
    (shift p .shr a count).result = BitVec.ofNat 32 (a.toNat / 2 ^ count.toNat) ∧
      (shift p .shr a count).cf = some (a.getLsbD (count.toNat - 1)) ∧
      (count = 1 → (shift p .shr a count).of = some (a.getLsbD 31)) := by
  simp only [shift, if_pos h]
  refine ⟨?_, trivial, fun h1 => by simp [h1]⟩
  apply BitVec.eq_of_toNat_eq
  have := Nat.div_le_self a.toNat (2 ^ count.toNat)
  rw [BitVec.toNat_ushiftRight, Nat.shiftRight_eq_div_pow, BitVec.toNat_ofNat,
    Nat.mod_eq_of_lt (by have := a.isLt; omega)]

/-- CF of a shift by 32, whatever SHIFT_CORNER is (40_execution R221, R222). -/
theorem shift_32_cf : (shift p .shl a 32).cf = some (a.getLsbD 0) ∧
    (shift p .shr a 32).cf = some (a.getLsbD 31) := by
  constructor <;> rfl

/-- Outside 1 to 31 the corner decides. -/
theorem shift_outside (op : ShiftOp) (h : ¬ (1 ≤ count.toNat ∧ count.toNat ≤ 31)) :
    shift p op a count = shiftCorner p op a count := by
  simp only [shift, if_neg h]

variable (hp : p.shiftCorner = .reference)
include hp

/-- The reference table leaves OF alone (40_execution R223). -/
theorem shiftCorner_reference_of (op : ShiftOp) : (shiftCorner p op a count).of = none := by
  simp only [shiftCorner, hp, referenceCorner]
  split <;> split <;> rfl

/-- Under the reference table only a shift by 1 writes OF. -/
theorem shift_reference_of (op : ShiftOp) (h1 : count ≠ 1) : (shift p op a count).of = none := by
  have hne : count.toNat ≠ 1 := fun h => h1 (BitVec.eq_of_toNat_eq h)
  by_cases h : 1 ≤ count.toNat ∧ count.toNat ≤ 31
  · cases op <;> simp only [shift, if_pos h, if_neg hne, shiftCorner_reference_of hp]
  · rw [shift_outside op h, shiftCorner_reference_of hp]

/-- The reference table for a shift by 0. -/
theorem shift_reference_zero (op : ShiftOp) :
    shift p op a 0 = { result := a, cf := none, of := none } := by
  simp [shift, shiftCorner, hp, referenceCorner]

/-- The reference table for a shift by 32 or more: nothing is left of the operand. -/
theorem shift_reference_large (op : ShiftOp) (h : 32 ≤ count.toNat) :
    (shift p op a count).result = 0 ∧ (33 ≤ count.toNat → (shift p op a count).cf = some false) := by
  have h0 : count ≠ 0 := by rintro rfl; simp at h
  have h32 : 33 ≤ count.toNat → count ≠ 32 := by rintro h' rfl; simp at h'
  rw [shift_outside op (by omega)]
  simp only [shiftCorner, hp, referenceCorner, if_neg h0]
  refine ⟨by split <;> rfl, fun h' => by rw [if_neg (h32 h')]⟩

end

/-- What a shift leaves, by the result and the flags that `shift` gives. -/
theorem exec_shift_ready {i : Instr} {op : ShiftOp} {rm : Rm32} {count : Byte} {s : State}
    (h : shiftForm i = some (op, rm, count)) (hd : placeReady (Rm32.place rm) s) {k : ShiftCorner}
    (hk : k = shift s.params op (placeValue (Rm32.place rm) s) count) :
    ∃ t, exec i s = .next t ∧ Kept (storedBytes (Rm32.place rm) s) (writtenRegs (Rm32.place rm)) s t ∧
      placeValue (Rm32.place rm) t = k.result ∧ t.flags = shiftFlags k s.flags ∧
      (¬ placeInMemory (Rm32.place rm) → t.mmu = s.mmu) := by
  obtain ⟨t, ht, hwrote, hmmu⟩ := shiftWrite_ready (op := op) (count := count) hd
  rw [← hk] at ht hwrote
  exact ⟨_, (exec_shiftForm h s).trans (congrArg Res.outcome ht), hwrote.kept _,
    (placeValue_setFlags _ _ _).trans hwrote.value32, rfl, hmmu⟩

/-- Settles O41: each count through `shift`. -/
theorem shiftsShift : Obligations.ShiftsShift := fun i op rm count s h hd => by
  obtain ⟨t, hexec, hkept, hval, hflags, hmmu⟩ := exec_shift_ready h hd rfl
  refine ⟨t, _, _, hexec, rfl, hval.symm, hkept, ?_, ?_, ?_, fun hcount => ?_, ?_, hmmu⟩
  · rw [ControlFlagsKept, hflags]; exact ⟨rfl, rfl, rfl⟩
  · rw [hflags]; rfl
  · rw [hflags]; exact setZSP_result 32 (by decide) _ s.flags
  · rw [hflags]
    cases op with
    | shl =>
      obtain ⟨hr, hcf, hof⟩ := shift_shl (p := s.params) (a := placeValue (Rm32.place rm) s) hcount
      exact ⟨hr, by rw [shiftFlags, hcf, Option.getD_some],
        fun h1 => by rw [shiftFlags, hof h1, Option.getD_some]⟩
    | shr =>
      obtain ⟨hr, hcf, hof⟩ := shift_shr (p := s.params) (a := placeValue (Rm32.place rm) s) hcount
      exact ⟨hr, by rw [shiftFlags, hcf, Option.getD_some],
        fun h1 => by rw [shiftFlags, hof h1, Option.getD_some]⟩
  · rintro rfl
    rw [hflags, shiftFlags]
    cases op with
    | shl => rw [shift_32_cf.1, Option.getD_some]
    | shr => rw [shift_32_cf.2, Option.getD_some]

/-- Settles O42: each corner of the reference table. -/
theorem shiftReferenceCorners : Obligations.ShiftReferenceCorners := fun i op rm count s h hd hp => by
  obtain ⟨t, hexec, -, hval, hflags, -⟩ := exec_shift_ready h hd rfl
  refine ⟨t, _, _, hexec, rfl, hval.symm, fun h1 => ?_, ?_, ?_, fun h33 => ?_⟩
  · rw [hflags, shiftFlags, shift_reference_of hp op h1, Option.getD_none]
  · rintro rfl
    rw [hflags, shiftFlags, shift_reference_zero hp]
    exact ⟨rfl, rfl⟩
  · rintro rfl
    exact (shift_reference_large hp op (by decide)).1
  · obtain ⟨hr, hcf⟩ := shift_reference_large (a := placeValue (Rm32.place rm) s) (count := count)
      hp op (by omega)
    exact ⟨hr, by rw [hflags, shiftFlags, hcf h33, Option.getD_some]⟩

/-! ## Multiplication (40_execution R224, 43_mul_div R310 to R312) -/

/-- A product fits exactly when it is not outside the signed range. -/
theorem not_fitsSigned32 (x : Int) : (!fitsSigned32 x) = outsideSigned 32 x := by
  rw [fitsSigned32, outsideSigned, ← decide_not, decide_eq_decide]
  omega

/-- An unsigned product fits exactly when it is below 2^32. -/
theorem not_fitsUnsigned32 (x : Nat) : (!decide (x ≤ 0xFFFFFFFF)) = decide (2 ^ 32 ≤ x) := by
  rw [← decide_not, decide_eq_decide]
  omega

/-- EAX and EDX are written, and every other register is kept. -/
theorem get_setEaxEdx (g : Regs) (x y : Word) {r : Reg32} (h : r ∉ [Reg32.eax, .edx]) :
    ((g.set .eax x).set .edx y).get r = g.get r := by
  obtain ⟨h1, h2⟩ : r ≠ .eax ∧ r ≠ .edx := by simpa using h
  rw [Regs.get_set_other _ _ h2, Regs.get_set_other _ _ h1]

section
variable {rm : Rm32} {s : State}

/-- MUL in a state whose operand is ready (43_mul_div R310). -/
theorem exec_mulRm32_ready (h : placeReady (Rm32.place rm) s) {p : Nat}
    (hp : p = (s.reg .eax).toNat * (placeValue (Rm32.place rm) s).toNat) :
    ∃ t, Ready (Rm32.place rm) s t ∧ exec (.mulRm32 rm) s = .next { t with
      regs := (s.regs.set .eax (BitVec.ofNat 32 p)).set .edx 0
      flags := mulFlags (BitVec.ofNat 32 p) (decide (p ≤ 0xFFFFFFFF)) s.flags } := by
  obtain ⟨t, ht, hready, -⟩ := readPlace_ready h
  refine ⟨t, hready, ?_⟩
  rw [exec, execMulRm32, ht, hp, ← hready.flags, State.reg, ← hready.regs]
  rfl

/-- IMUL in a state whose operand is ready (43_mul_div R311). -/
theorem exec_imulRm32_ready (h : placeReady (Rm32.place rm) s) {p : Int}
    (hp : p = (s.reg .eax).toInt * (placeValue (Rm32.place rm) s).toInt) :
    ∃ t, Ready (Rm32.place rm) s t ∧ exec (.imulRm32 rm) s = .next { t with
      regs := (s.regs.set .eax (BitVec.ofInt 32 p)).set .edx 0
      flags := mulFlags (BitVec.ofInt 32 p) (fitsSigned32 p) s.flags } := by
  obtain ⟨t, ht, hready, -⟩ := readPlace_ready h
  refine ⟨t, hready, ?_⟩
  rw [exec, execImulRm32, ht, hp, ← hready.flags, State.reg, ← hready.regs]
  rfl

/-- IMUL2 in a state whose operand is ready (43_mul_div R312). -/
theorem exec_imul2R32Rm32_ready (h : placeReady (Rm32.place rm) s) (r : Reg32) {p : Int}
    (hp : p = (s.reg r).toInt * (placeValue (Rm32.place rm) s).toInt) :
    ∃ t, Ready (Rm32.place rm) s t ∧ exec (.imul2R32Rm32 r rm) s = .next { t with
      regs := s.regs.set r (BitVec.ofInt 32 p)
      flags := mulFlags (BitVec.ofInt 32 p) (fitsSigned32 p) s.flags } := by
  obtain ⟨t, ht, hready, -⟩ := readPlace_ready h
  refine ⟨t, hready, ?_⟩
  rw [exec, execImul2R32Rm32, readPlace, Res.bind_ok, ht, hp, ← hready.flags, ← hready.regs]
  rfl

end

/-- Settles O43: the product's low word and its flags are written after the operand is read. -/
theorem multiplyResults : Obligations.MultiplyResults := fun rm r s hd => by
  obtain ⟨t1, h1, hmul⟩ := exec_mulRm32_ready hd rfl
  obtain ⟨t2, h2, himul⟩ := exec_imulRm32_ready hd rfl
  obtain ⟨t3, h3, himul2⟩ := exec_imul2R32Rm32_ready hd r rfl
  refine ⟨⟨_, hmul, h1.kept_regs (fun _ => get_setEaxEdx _ _ _) _, ⟨rfl, rfl, rfl⟩, rfl, rfl,
      setZSP_result 32 (by decide) _ s.flags, rfl, not_fitsUnsigned32 _, rfl⟩,
    ⟨_, himul, h2.kept_regs (fun _ => get_setEaxEdx _ _ _) _, ⟨rfl, rfl, rfl⟩, rfl, rfl,
      setZSP_result 32 (by decide) _ s.flags, rfl, not_fitsSigned32 _, rfl⟩,
    ⟨_, himul2, h3.kept_regs (fun r' hr' => Regs.get_set_other _ _ (by simpa using hr')) _,
      ⟨rfl, rfl, rfl⟩, Regs.get_set_self _ _ _, ?_, rfl, not_fitsSigned32 _, rfl⟩⟩
  rw [State.reg, Regs.get_set_self]
  exact setZSP_result 32 (by decide) _ s.flags

end Sys2Proof.Machine
end

section
/-! Settles what an instruction or a step that raises leaves (40_execution R202, R209 to R211,
60_exceptions R401 to R403, R408). -/

namespace Sys2Proof.Machine

/-! ## Operands that cannot be accessed (40_execution R209, R211) -/

/-- The access raised one of its two errors, and only the MMU has changed, without a byte stored. -/
structure AccessRaised (s : State) (f : Fault) : Prop where
  left : f.left = s.setMmu f.left.mmu
  kept : MemoryKept noBytes s f.left
  error : AccessError f

theorem readPlace_raises {p : Place} {s : State} (h : ¬ placeReady p s) :
    ∃ f, readPlace p s = .fault f ∧ AccessRaised s f := by
  obtain ⟨f, hf, hleft, hkept, herr⟩ := readPlace_not_ready h
  exact ⟨f, hf, hleft, hkept, herr⟩

theorem writePlace_raises {p : Place} {s : State} (h : ¬ placeReady p s) (x : Word) :
    ∃ f, writePlace p x s = .fault f ∧ AccessRaised s f := by
  obtain ⟨f, hf, hleft, hkept, herr⟩ := writePlace_not_ready h x
  exact ⟨f, hf, hleft, hkept, herr⟩

theorem readOperand_raises {o : Operand} {s : State} (h : ¬ operandReady o s) :
    ∃ f, readOperand o s = .fault f ∧ AccessRaised s f := by
  cases o with
  | place p => exact readPlace_raises h
  | imm8 v => exact absurd trivial h
  | imm32 v => exact absurd trivial h

theorem pop_raises {s : State} (h : ¬ Accessible (s.reg .esp) .dword s) :
    ∃ f, pop s = .fault f ∧ AccessRaised s f := by
  have hpop : ∀ f, memRead (s.reg .esp) .dword s = .fault f → pop s = .fault f := fun f hf => by
    rw [pop, hf, Res.bind_fault]
  rcases access_inaccessible h with ⟨m, hr, hk, -, -⟩ | ⟨a, m, -, hr, hk, -, -, -, -⟩
  · exact ⟨_, hpop _ hr, rfl, hk, .inl rfl⟩
  · exact ⟨_, hpop _ hr, rfl, hk, .inr ⟨_, _, _, rfl⟩⟩

/-- A place that is not ready is in memory. -/
theorem placeInMemory_of_not_ready {p : Place} {s : State} (h : ¬ placeReady p s) : placeInMemory p := by
  cases p with
  | mem w m => trivial
  | reg8 r => exact absurd trivial h
  | reg32 r => exact absurd trivial h

section
variable {op : AluOp} {w : Width} {dst : Place} {src : Operand} {s : State}
  (hone : OneMemory dst src) (h : ¬ placeReady dst s ∨ ¬ operandReady src s)
include hone h

/-- A copy raises at the operand that cannot be accessed. -/
theorem move_raises : ∃ f, move dst src s = .fault f ∧ AccessRaised s f := by
  by_cases hs : operandReady src s
  · have hd : ¬ placeReady dst s := h.resolve_right fun h => h hs
    obtain ⟨t, ht, -, -, -, hsame⟩ := readOperand_ready hs
    obtain rfl := hsame (hone.resolve_left fun h => h (placeInMemory_of_not_ready hd))
    obtain ⟨f, hf, hraised⟩ := writePlace_raises hd (operandValue src t)
    exact ⟨f, by rw [move, ht, Res.bind_ok, hf], hraised⟩
  · obtain ⟨f, hf, hraised⟩ := readOperand_raises hs
    exact ⟨f, by rw [move, hf, Res.bind_fault], hraised⟩

/-- An operation that reads its two operands first raises at the one that cannot be accessed. -/
theorem readBoth_raises {k : Word → Word → State → Res Unit} :
    ∃ f, ((readPlace dst s).bind fun a t => (readOperand src t).bind fun b u => k a b u) = .fault f ∧
      AccessRaised s f := by
  by_cases hd : placeReady dst s
  · have hs : ¬ operandReady src s := h.resolve_left fun h => h hd
    have hsrc : operandInMemory src := by
      cases src with
      | place p => exact placeInMemory_of_not_ready (p := p) hs
      | imm8 v => exact absurd trivial hs
      | imm32 v => exact absurd trivial hs
    obtain ⟨t, ht, -, hsame⟩ := readPlace_ready hd
    obtain rfl := hsame (hone.resolve_right fun h => h hsrc)
    obtain ⟨f, hf, hraised⟩ := readOperand_raises hs
    exact ⟨f, by rw [ht, Res.bind_ok, hf, Res.bind_fault], hraised⟩
  · obtain ⟨f, hf, hraised⟩ := readPlace_raises hd
    exact ⟨f, by rw [hf, Res.bind_fault], hraised⟩

theorem aluWrite_raises : ∃ f, aluWrite op w dst src s = .fault f ∧ AccessRaised s f :=
  readBoth_raises hone h

theorem aluTest_raises : ∃ f, aluTest op w dst src s = .fault f ∧ AccessRaised s f :=
  readBoth_raises hone h

end

/-- The instructions of `readForm` read their r/m operand before they do anything else. -/
theorem exec_readForm {i : Instr} {rm : Rm32} (h : readForm i = some rm) (s : State) :
    ∃ k, exec i s = ((readPlace (Rm32.place rm) s).bind k).outcome := by
  cases i <;> simp only [readForm, Option.some.injEq, reduceCtorEq] at h <;> subst h <;>
    exact ⟨_, rfl⟩

/-- The instructions of `popForm` pop before they do anything else. -/
theorem exec_popForm {i : Instr} (h : popForm i = true) (s : State) :
    ∃ k, exec i s = ((pop s).bind k).outcome := by
  cases i <;> simp only [popForm, reduceCtorEq] at h <;> exact ⟨_, rfl⟩

/-- The instructions of `drawForm` draw and then write. -/
theorem exec_drawForm {i : Instr} {rm : Rm32} (h : drawForm i = some rm) (s : State) :
    exec i s = (drawInto (Rm32.place rm) s).outcome := by
  cases i <;> simp only [drawForm, Option.some.injEq, reduceCtorEq] at h <;> subst h <;> rfl

/-- An instruction raises at what it reads that cannot be accessed. -/
theorem exec_raises {i : Instr} {s : State} (h : ReadsInaccessible i s) :
    ∃ f, exec i s = .fault f ∧ AccessRaised s f := by
  rcases h with ⟨w, dst, src, hform, hnot⟩ | ⟨rm, hform, hnot⟩ | ⟨hform, hnot⟩
  · rcases hform with hform | ⟨op, hform⟩ | ⟨op, hform, hc⟩
    · obtain ⟨f, hf, hraised⟩ := move_raises (moveForm_shape hform).1 hnot
      exact ⟨f, by rw [exec_moveForm hform, hf, Res.outcome_fault], hraised⟩
    · obtain ⟨f, hf, hraised⟩ := aluTest_raises (op := op) (w := w) (testForm_shape hform) hnot
      exact ⟨f, by rw [exec_testForm hform, hf, Res.outcome_fault], hraised⟩
    · obtain ⟨f, hf, hraised⟩ := aluWrite_raises (op := op) (w := w) (aluForm_shape hform).1 hnot
      exact ⟨f, by rw [exec_aluForm hform hc, hf, Res.outcome_fault], hraised⟩
  · obtain ⟨k, hexec⟩ := exec_readForm hform s
    obtain ⟨f, hf, hraised⟩ := readPlace_raises hnot
    exact ⟨f, by rw [hexec, hf, Res.bind_fault, Res.outcome_fault], hraised⟩
  · obtain ⟨k, hexec⟩ := exec_popForm hform s
    obtain ⟨f, hf, hraised⟩ := pop_raises hnot
    exact ⟨f, by rw [hexec, hf, Res.bind_fault, Res.outcome_fault], hraised⟩

/-- A draw decides no address. -/
theorem placeReady_afterRandDraw {p : Place} {s : State} :
    placeReady p (afterRandDraw s) ↔ placeReady p s := by
  cases p with
  | mem w m => cases m <;> rfl
  | reg8 r => rfl
  | reg32 r => rfl

/-- Settles O37: the operands are read before anything is written, and a draw is taken before its write. -/
theorem inaccessibleOperandRaises : Obligations.InaccessibleOperandRaises := by
  refine ⟨fun i s h => ?_, fun i rm s hform hnot => ?_⟩
  · obtain ⟨f, hf, hraised⟩ := exec_raises h
    exact ⟨f, hf, hraised.left, hraised.kept, hraised.error⟩
  · obtain ⟨f, hf, hraised⟩ :=
      writePlace_raises (mt placeReady_afterRandDraw.1 hnot) (randDraw s)
    refine ⟨f, ?_, ?_, hraised.kept.congr rfl rfl rfl, hraised.error⟩
    · rw [exec_drawForm hform, drawInto, hf, Res.bind_fault, Res.outcome_fault]
    · rw [hraised.left]; rfl

/-! ## A fetch that fails (40_execution R200, 60_exceptions R401) -/

/-- A decode error raised while decoding carries the address of the instruction (30_encoding R162). -/
theorem onMmu_decodeError {start : Word} {f : Fetch} {a b : Word} {s t : State} {e : DecodeReject}
    (h : Fetch.onMmu start f a s = .fault (.decodeError b e t)) : b = start := by
  have hread : ∀ v w u, memRead v w u ≠ .fault (.decodeError b e t) := fun v w u hr => by
    rcases memRead_cases v w u with ⟨_, _, _, _, _, _, h'⟩ | ⟨_, _, _, _, _, _, h'⟩ | ⟨e', _, _, h'⟩ <;>
      rw [hr] at h'
    · cases h'
    · cases h'
    · cases e' <;> cases h'
  induction f generalizing a s with
  | done i => cases h
  | reject e' => cases h; rfl
  | byte k ih =>
    rcases Res.bind_eq_fault h with hr | ⟨x, u, -, hrest⟩
    · exact absurd hr (hread _ _ _)
    · exact ih _ hrest
  | dword k ih =>
    rcases Res.bind_eq_fault h with hr | ⟨x, u, -, hrest⟩
    · exact absurd hr (hread _ _ _)
    · exact ih _ hrest

/-- Settles O10: the reads of a fetch change only the MMU, and the step ends with their error. -/
theorem failedFetchEndsTheStep : Obligations.FailedFetchEndsTheStep := fun s f hrun hf => by
  refine ⟨by simp only [step, hrun, Bool.false_eq_true, if_false, hf], ?_, fun a e t hdec => ?_⟩
  · have := onlyMmu_keptByAccess.decode s.eip decoder s.eip s
    rwa [show Fetch.onMmu s.eip decoder s.eip s = .fault f from hf] at this
  · subst hdec
    exact onMmu_decodeError hf

/-! ## A step that fails (40_execution R202, R210) -/

/-- Only the MMU and the count of draws have changed, and no byte was stored. -/
structure Unwritten (s t : State) : Prop where
  only : t = { s with mmu := t.mmu, randDraws := t.randDraws }
  bytes : s.params.frameFill = .keep → ∀ a, t.byteAt a = s.byteAt a

theorem Unwritten.refl (s : State) : Unwritten s s := ⟨rfl, fun _ _ => rfl⟩

theorem Unwritten.trans {s t u : State} (h : Unwritten s t) (h' : Unwritten t u) : Unwritten s u := by
  have hparams : t.params = s.params := by rw [h.only]
  refine ⟨by rw [h'.only, h.only], fun hk a => ?_⟩
  rw [h'.bytes (hparams ▸ hk), h.bytes hk]

theorem Unwritten.regs {s t : State} (h : Unwritten s t) : t.regs = s.regs := by rw [h.only]

theorem Unwritten.setReg {s t : State} (h : Unwritten s t) (r : Reg32) (v : Word) :
    Unwritten (s.setReg r v) (t.setReg r v) := ⟨by rw [h.only]; rfl, h.bytes⟩

/-- A translation stores no byte under `P_FRAME_FILL = KEEP` (20_memory R92). -/
theorem Unwritten.of_translate {s : State} {v : Word} {m : Mmu}
    (h : m.phys = (s.mmu.translate s.params v).mmu.phys) : Unwritten s (s.setMmu m) := by
  refine ⟨rfl, fun hk a => ?_⟩
  by_contra hne
  refine (Mmu.translate_phys s.params (v := v) (m := s.mmu) (a := a) ?_).1 hk
  rw [← h]
  exact hne

theorem Unwritten.read (v : Word) (w : Width) (s : State) : Unwritten s (memRead v w s).left := by
  rw [memRead_left]
  exact .of_translate (Mmu.read_mmu _ v w _).phys

theorem Unwritten.readPlace (p : Place) (s : State) : Unwritten s (readPlace p s).left := by
  cases p with
  | mem w m => exact .read _ _ _
  | reg8 r => exact .refl s
  | reg32 r => exact .refl s

theorem Unwritten.readOperand (o : Operand) (s : State) : Unwritten s (readOperand o s).left := by
  cases o with
  | place p => exact .readPlace p s
  | imm8 v => exact .refl s
  | imm32 v => exact .refl s

theorem Unwritten.bind {α β : Type} {s : State} {r : Res α} {k : α → State → Res β}
    (hr : Unwritten s r.left) (hk : ∀ x t, Unwritten t (k x t).left) : Unwritten s (r.bind k).left := by
  cases r with
  | ok x t => exact hr.trans (hk x t)
  | fault f => exact hr

/-- The reads of a decode write nothing. -/
theorem Unwritten.onMmu (start : Word) (f : Fetch) (a : Word) (s : State) :
    Unwritten s (Fetch.onMmu start f a s).left := by
  induction f generalizing a s with
  | done i => exact .refl s
  | reject e => exact .refl s
  | byte k ih => exact .bind (.read _ _ _) fun _ _ => ih _ _ _
  | dword k ih => exact .bind (.read _ _ _) fun _ _ => ih _ _ _

theorem Unwritten.fetch (s : State) : Unwritten s (fetch s).left := .onMmu _ _ _ _

/-- What raises leaves the state unwritten. -/
def RaisesUnwritten (s : State) : Outcome → Prop
  | .fault f => Unwritten s f.left
  | .next _ => True
  | .refused _ => True

/-- The state whose parts an instruction has not written where it raises: ESP is lowered before the
write of a push (40_execution R210). -/
def beforeRaise (i : Instr) (s : State) : State :=
  match i.mnemonic with
  | .push | .pushf | .call => s.setReg .esp (s.reg .esp - 4)
  | _ => s

theorem beforeRaise_cases (i : Instr) (s : State) :
    beforeRaise i s = s ∨
      beforeRaise i s = s.setReg .esp (s.reg .esp - 4) ∧ i.mnemonic ∈ [.push, .pushf, .call] := by
  unfold beforeRaise
  split
  · next h => exact .inr ⟨rfl, by rw [h]; decide⟩
  · next h => exact .inr ⟨rfl, by rw [h]; decide⟩
  · next h => exact .inr ⟨rfl, by rw [h]; decide⟩
  · exact .inl rfl

namespace RaisesUnwritten

variable {α : Type} {s : State}

/-- An operation that first reads. -/
theorem bind {r : Res α} {k : α → State → Res Unit} (hr : Unwritten s r.left)
    (hk : ∀ x t, RaisesUnwritten t (k x t).outcome) : RaisesUnwritten s (r.bind k).outcome := by
  cases r with
  | fault f => exact hr
  | ok x t =>
    have ht := hk x t
    rw [Res.bind_ok]
    cases hkt : k x t with
    | ok y u => trivial
    | fault f => rw [hkt] at ht; exact Unwritten.trans hr ht

/-- An operation that ends in updates that do not raise. -/
theorem bind_ok {r : Res Unit} {k : Unit → State → State} (hr : RaisesUnwritten s r.outcome) :
    RaisesUnwritten s (r.bind fun x t => .ok () (k x t)).outcome := by
  cases r with
  | ok x t => trivial
  | fault f => exact hr

theorem memWrite (v : Word) (w : Width) (x : Word) (s : State) :
    RaisesUnwritten s (memWrite v w x s).outcome := by
  cases h : Machine.memWrite v w x s with
  | ok y t => trivial
  | fault f =>
    show Unwritten s f.left
    rw [memWrite_fault h]
    exact .of_translate rfl

theorem writePlace (p : Place) (x : Word) (s : State) : RaisesUnwritten s (writePlace p x s).outcome := by
  cases p with
  | mem w m => exact memWrite _ _ _ _
  | reg8 r => trivial
  | reg32 r => trivial

theorem push (v : Word) (s : State) :
    RaisesUnwritten (s.setReg .esp (s.reg .esp - 4)) (push v s).outcome := memWrite _ _ _ _

theorem pop {k : Word → State → State} (s : State) :
    RaisesUnwritten s ((pop s).bind fun v t => .ok () (k v t)).outcome := by
  rw [Machine.pop, Res.bind_assoc]
  exact bind (.read _ _ _) fun _ _ => trivial

theorem aluWrite (op : AluOp) (w : Width) (dst : Place) (src : Operand) (s : State) :
    RaisesUnwritten s (aluWrite op w dst src s).outcome :=
  bind (.readPlace dst s) fun _ t => bind (.readOperand src t) fun _ _ => bind_ok (writePlace dst _ _)

theorem aluTest (op : AluOp) (w : Width) (dst : Place) (src : Operand) (s : State) :
    RaisesUnwritten s (aluTest op w dst src s).outcome :=
  bind (.readPlace dst s) fun _ t => bind (.readOperand src t) fun _ _ => trivial

theorem move (dst : Place) (src : Operand) (s : State) : RaisesUnwritten s (move dst src s).outcome :=
  bind (.readOperand src s) fun _ _ => writePlace dst _ _

theorem unaryWrite (f : Word → Word) (g : Word → Flags → Flags) (dst : Place) (s : State) :
    RaisesUnwritten s (unaryWrite f g dst s).outcome :=
  bind (.readPlace dst s) fun _ _ => bind_ok (writePlace dst _ _)

theorem shiftWrite (op : ShiftOp) (dst : Place) (count : Byte) (s : State) :
    RaisesUnwritten s (shiftWrite op dst count s).outcome :=
  bind (.readPlace dst s) fun _ _ => bind_ok (writePlace dst _ _)

theorem jumpRel8If (cond : Cond) (rel : Byte) (s : State) :
    RaisesUnwritten s (jumpRel8If cond rel s).outcome := by
  unfold Machine.jumpRel8If
  split <;> trivial

theorem drawInto (dst : Place) (s : State) : RaisesUnwritten s (drawInto dst s).outcome := by
  have hdraw : Unwritten s (afterRandDraw s) := ⟨rfl, fun _ _ => rfl⟩
  have hw : RaisesUnwritten (afterRandDraw s) (Machine.drawInto dst s).outcome :=
    bind_ok (writePlace dst _ _)
  cases h : Machine.drawInto dst s with
  | ok x t => trivial
  | fault f => rw [h] at hw; exact hdraw.trans hw

/-- No instruction raises after it has written anything but a lowered ESP. -/
theorem exec (i : Instr) (s : State) : RaisesUnwritten (beforeRaise i s) (exec i s) := by
  cases i with
  | adcRm32Imm32 rm imm | adcRm32Imm8 rm imm | sbbRm32Imm32 rm imm | sbbRm32Imm8 rm imm =>
    simp only [Machine.exec, execAdcRm32Imm32, execAdcRm32Imm8, execSbbRm32Imm32, execSbbRm32Imm8]
    split
    · trivial
    · exact aluWrite _ _ _ _ _
  | nop | hlt | intImm8 | cli | sti | cld | std | jmpRel8 | jmpTarget32 | rdtsc => trivial
  | jlTarget32 target =>
    simp only [Machine.exec, execJlTarget32]; split <;> trivial
  | callTarget32 target => exact bind_ok (push _ _)
  | pushR32 | pushf => exact push _ _
  | popR32 | popf | ret => exact pop _
  | movAddr32Eax a => exact memWrite _ _ _ _
  | xchgRm32R32 rm r =>
    exact bind (.readPlace _ _) fun _ _ => bind (.readPlace _ _) fun _ _ => bind_ok (writePlace _ _ _)
  | rdrandRm32 | rdseedRm32 => exact drawInto _ _
  | mulRm32 | imulRm32 => exact bind (.readPlace _ _) fun _ _ => trivial
  | imul2R32Rm32 r rm =>
    exact bind (.readPlace _ _) fun _ _ => bind (.readPlace _ _) fun _ _ => trivial
  | divRm32 rm =>
    refine bind (.readPlace _ _) fun x t => ?_
    dsimp only
    split
    · exact Unwritten.refl t
    · trivial
  | idivRm32 rm =>
    refine bind (.readPlace _ _) fun x t => ?_
    dsimp only
    split
    · exact Unwritten.refl t
    · split
      · trivial
      · exact Unwritten.refl t
  | incR32 | decR32 =>
    simp only [Machine.exec, execIncR32, execDecR32]
    exact unaryWrite _ _ _ _
  | notRm32 | negRm32 => exact unaryWrite _ _ _ _
  | andEaxImm32 imm | xorEaxImm32 imm => exact aluWrite _ _ (.reg32 .eax) (.imm32 imm) s
  | cmpEaxImm32 imm => exact aluTest _ _ (.reg32 .eax) (.imm32 imm) s
  | movR8Imm8 r imm => exact move (.reg8 r) (.imm8 imm) s
  | movR32Imm32 r imm => exact move (.reg32 r) (.imm32 imm) s
  | addRm8R8 | addRm32R32 | addR8Rm8 | addR32Rm32 | orRm8R8 | orRm32R32 | andRm8R8 | andRm32R32
  | subRm8R8 | subRm32R32 | xorRm8R8 | xorRm32R32 | addRm32Imm32 | orRm32Imm32 | andRm32Imm32
  | subRm32Imm32 | xorRm32Imm32 | addRm32Imm8 | orRm32Imm8 | andRm32Imm8 | subRm32Imm8
  | xorRm32Imm8 => exact aluWrite _ _ _ _ _
  | cmpRm8R8 | cmpRm32R32 | cmpRm32Imm32 | cmpRm32Imm8 | testRm32R32 | testRm32Imm32
  | testRm32Imm32Alt => exact aluTest _ _ _ _ _
  | movsxdR32Rm32 | movRm8R8 | movRm32R32 => exact move _ _ _
  | shlRm32Imm8 | shrRm32Imm8 | shlRm32One | shrRm32One => exact shiftWrite _ _ _ _
  | joRel8 | jnoRel8 | jcRel8 | jncRel8 | jzRel8 | jnzRel8 | jbeRel8 | jaRel8 | jsRel8
  | jnsRel8 | jpRel8 | jnpRel8 | jlRel8 | jgeRel8 | jleRel8 | jgRel8 => exact jumpRel8If _ _ _

end RaisesUnwritten

/-- A step raises in its fetch or in its instruction (40_execution R200). -/
theorem step_fault_cases {s : State} {f : Fault} (h : step s = .fault f) :
    fetch s = .fault f ∨ ∃ i t, fetch s = .ok i t ∧ exec i t = .fault f := by
  unfold step at h
  split at h
  · cases h
  · cases hfe : fetch s with
    | fault g => rw [hfe] at h; cases h; exact .inl rfl
    | ok i t =>
      refine .inr ⟨i, t, rfl, ?_⟩
      simp only [hfe] at h
      cases hex : exec i t with
      | next u => rw [hex] at h; cases h
      | refused r => rw [hex] at h; cases h
      | fault g => rw [hex] at h; cases h; rfl

/-- Settles O9: the fetch only reads, and the instruction raises before it writes anything but ESP. -/
theorem failedStepLeavesTheState : Obligations.FailedStepLeavesTheState := fun s f hf => by
  have hprot := (constantsKept_preserved.step_leaves (.inr ⟨f, hf, rfl⟩)).protectedPages
  have hfetch := Unwritten.fetch s
  rcases step_fault_cases hf with hfe | ⟨i, t, hfe, hex⟩ <;> rw [hfe] at hfetch
  · have hall : Unwritten s f.left := hfetch
    exact ⟨by rw [hall.only], .inl hall.regs, hprot, hall.bytes⟩
  · have hraise := RaisesUnwritten.exec i t
    rw [hex] at hraise
    rcases beforeRaise_cases i t with hb | ⟨hb, hpush⟩ <;> rw [hb] at hraise
    · have hall : Unwritten s f.left := hfetch.trans hraise
      exact ⟨by rw [hall.only], .inl hall.regs, hprot, hall.bytes⟩
    · have hall : Unwritten (s.setReg .esp (s.reg .esp - 4)) f.left := by
        rw [State.reg, ← hfetch.regs]
        exact (hfetch.setReg _ _).trans hraise
      exact ⟨by rw [hall.only]; rfl, .inr ⟨hall.regs, i, t, hfe, hpush⟩, hprot, hall.bytes⟩

end Sys2Proof.Machine
end

section
/-! Settles the exchange (41_data_transfer R246). -/

namespace Sys2Proof.Machine

/-- A store to a memory operand leaves the operand's address as it was (40_execution R206). -/
theorem Wrote.effectiveAddress_eq {w : Width} {m : MemOp} {x : Word} {s t : State}
    (h : Wrote (.mem w m) x s t) : effectiveAddress m t = effectiveAddress m s := by
  have hreg : ∀ b, t.reg b = s.reg b := fun b => h.regs b List.not_mem_nil
  have hparams : t.params = s.params := by rw [h.only]
  cases m with
  | abs a => rfl
  | ind b => exact hreg b
  | disp8 b d => rw [effectiveAddress, effectiveAddress, hreg, hparams]
  | disp32 b d => rw [effectiveAddress, effectiveAddress, hreg]

/-- XCHG in a state whose operand is ready: the r/m operand is written first, then the register
(41_data_transfer R246, D42). -/
theorem exec_xchgRm32R32_ready {rm : Rm32} {s : State} (r : Reg32) (h : placeReady (Rm32.place rm) s) :
    ∃ t, exec (.xchgRm32R32 rm r) s = .next (t.setReg r (placeValue (Rm32.place rm) s)) ∧
      Wrote (Rm32.place rm) (s.reg r) s t ∧ (¬ placeInMemory (Rm32.place rm) → t.mmu = s.mmu) := by
  obtain ⟨s1, s2, h1, h2, hready, hsame⟩ := readBoth_ready h (src := .place (.reg32 r)) trivial (.inr id)
  obtain ⟨t, ht, hwrote, hmmu⟩ := writePlace_after hready (s.reg r)
  have hread : readPlace (.reg32 r) s1 = .ok (s.reg r) s2 := h2
  refine ⟨t, ?_, hwrote, fun hmem => by rw [hmmu hmem, hsame hmem id]⟩
  rw [exec, execXchgRm32R32, h1, Res.bind_ok, hread, Res.bind_ok, ht]
  rfl

/-- Settles O29: the register is written last, so it holds the operand's value even where the operand is
the same register, and the store before it uses the address formed from the registers as they were. -/
theorem exchangeSwaps : Obligations.ExchangeSwaps := fun rm r s h => by
  obtain ⟨t, hexec, hwrote, hmmu⟩ := exec_xchgRm32R32_ready r h
  refine ⟨_, hexec, ⟨?_, hwrote.mem.congr rfl rfl rfl, fun r' hr' => ?_, hwrote.protectedPages⟩,
    hwrote.flags, State.reg_setReg_self t r _, ?_, ?_⟩
  · rw [hwrote.only]; rfl
  · obtain ⟨hne, hkept⟩ := not_or.1 (mt List.mem_cons.2 hr')
    exact (State.reg_setReg_other t _ hne).trans (hwrote.regs r' hkept)
  · rintro r' rfl
    refine ⟨?_, hmmu id⟩
    by_cases hr : r' = r
    · subst hr; exact State.reg_setReg_self t r' _
    · exact (State.reg_setReg_other t _ hr).trans hwrote.value32
  · rintro m rfl
    have hval : loadedValue (effectiveAddress m t) .dword t = s.reg r := hwrote.value32
    rw [hwrote.effectiveAddress_eq] at hval
    exact hval

end Sys2Proof.Machine
end

section
/-! Settles division (43_mul_div R313, R314, 60_exceptions R404, R405). -/

namespace Sys2Proof.Machine

/-! ## The quotient and the remainder under both roundings (43_mul_div R314) -/

/-- A negative divisor gives a remainder between it and 0 under floor division. -/
theorem fmod_bounds_of_neg (n : Int) {d : Int} (hd : d < 0) : d < n.fmod d ∧ n.fmod d ≤ 0 := by
  have hneg : (-n).fmod (-d) = -n.fmod d := Int.neg_fmod_neg n d
  have hlt := Int.fmod_lt_of_pos (-n) (Int.neg_pos_of_neg hd)
  have hnonneg := Int.fmod_nonneg_of_pos (-n) (Int.neg_pos_of_neg hd)
  omega

section
variable {p : Params} {n d : Int}

/-- IDIV's remainder under TRUNC. -/
theorem sub_idivQuotient_trunc (h : p.idiv = .trunc) : n - idivQuotient p n d * d = n.tmod d := by
  rw [idivQuotient, h, Int.tmod_def, Int.mul_comm]

/-- IDIV's remainder under FLOOR. -/
theorem sub_idivQuotient_floor (h : p.idiv = .floor) : n - idivQuotient p n d * d = n.fmod d := by
  rw [idivQuotient, h, Int.fmod_def, Int.mul_comm]

/-- The remainder is smaller than the divisor, however the quotient is rounded. -/
theorem abs_sub_idivQuotient_lt (p : Params) (n : Int) (hd : d ≠ 0) :
    |n - idivQuotient p n d * d| < |d| := by
  cases h : p.idiv with
  | trunc =>
    rw [sub_idivQuotient_trunc h, Int.abs_eq_natAbs, Int.abs_eq_natAbs, Int.natAbs_tmod]
    exact Int.ofNat_lt.2 (Nat.mod_lt _ (Int.natAbs_pos.2 hd))
  | floor =>
    rw [sub_idivQuotient_floor h]
    rcases Int.lt_or_gt_of_ne hd with hneg | hpos
    · obtain ⟨hlo, hhi⟩ := fmod_bounds_of_neg n hneg
      rwa [abs_of_nonpos hhi, abs_of_neg hneg, neg_lt_neg_iff]
    · rw [abs_of_nonneg (Int.fmod_nonneg_of_pos n hpos), abs_of_pos hpos]
      exact Int.fmod_lt_of_pos n hpos

/-- Under TRUNC the remainder has the sign of the dividend. -/
theorem sub_idivQuotient_mul_dividend (h : p.idiv = .trunc) :
    0 ≤ (n - idivQuotient p n d * d) * n := by
  rw [sub_idivQuotient_trunc h]
  rcases Int.le_total 0 n with hn | hn
  · exact mul_nonneg (Int.tmod_nonneg d hn) hn
  · have hneg : 0 ≤ (-n).tmod d := Int.tmod_nonneg d (by omega)
    rw [Int.neg_tmod] at hneg
    exact mul_nonneg_of_nonpos_of_nonpos (by omega) hn

/-- Under FLOOR the remainder has the sign of the divisor. -/
theorem sub_idivQuotient_mul_divisor (h : p.idiv = .floor) (hd : d ≠ 0) :
    0 ≤ (n - idivQuotient p n d * d) * d := by
  rw [sub_idivQuotient_floor h]
  rcases Int.lt_or_gt_of_ne hd with hneg | hpos
  · exact mul_nonneg_of_nonpos_of_nonpos (fmod_bounds_of_neg n hneg).2 hneg.le
  · exact mul_nonneg (Int.fmod_nonneg_of_pos n hpos) hpos.le

/-- The quotient is no larger than the dividend, however it is rounded. -/
theorem natAbs_idivQuotient_le (p : Params) (n d : Int) :
    (idivQuotient p n d).natAbs ≤ n.natAbs := by
  unfold idivQuotient
  split
  · exact Int.natAbs_tdiv_le_natAbs n d
  · exact Int.natAbs_fdiv_le_natAbs n d

end

/-! ## The signed range -/

/-- A number in the signed range is the value of its word. -/
theorem toInt_ofInt_of_fits {x : Int} (h : fitsSigned32 x = true) : (BitVec.ofInt 32 x).toInt = x := by
  obtain ⟨hlo, hhi⟩ := of_decide_eq_true h
  exact BitVec.toInt_ofInt_eq_self (by decide) hlo (by omega)

/-- A remainder smaller than a signed divisor is in the signed range. -/
theorem fitsSigned32_of_abs_lt {r : Int} (d : Word) (h : |r| < |d.toInt|) : fitsSigned32 r = true := by
  have hlo := d.le_toInt
  have hhi := d.toInt_lt
  rw [Int.abs_eq_natAbs, Int.abs_eq_natAbs] at h
  exact decide_eq_true (by omega)

/-- Every quotient of signed words fits but that of -2^31 by -1: only a dividend of -2^31 can give 2^31,
and then the remainder is too large unless the divisor is -1. -/
theorem fitsSigned32_idivQuotient (p : Params) {a x : Word} (hx : x ≠ 0)
    (hover : ¬ (a = 0x80000000 ∧ x = 0xFFFFFFFF)) :
    fitsSigned32 (idivQuotient p a.toInt x.toInt) = true := by
  have hlo := a.le_toInt
  have hhi := a.toInt_lt
  have hd : x.toInt ≠ 0 := BitVec.toInt_ne.2 hx
  have hq := natAbs_idivQuotient_le p a.toInt x.toInt
  have hr := abs_sub_idivQuotient_lt p a.toInt hd
  rw [Int.abs_eq_natAbs, Int.abs_eq_natAbs] at hr
  have hne : idivQuotient p a.toInt x.toInt ≠ 2 ^ 31 := fun h => by
    rw [h] at hq hr
    refine hover ⟨BitVec.eq_of_toInt_eq ?_, BitVec.eq_of_toInt_eq ?_⟩
    · show a.toInt = -2147483648
      omega
    · show x.toInt = -1
      omega
  exact decide_eq_true (by omega)

/-- The quotient of -2^31 by -1 does not fit under either rounding. -/
theorem not_fitsSigned32_idivQuotient (p : Params) :
    fitsSigned32 (idivQuotient p (0x80000000 : Word).toInt (0xFFFFFFFF : Word).toInt) = false := by
  unfold idivQuotient
  split <;> decide

/-! ## The two instructions in a state whose operand is ready -/

theorem Ready.params {p : Place} {s t : State} (h : Ready p s t) : t.params = s.params := by
  rw [h.only]; rfl

theorem Ready.eip {p : Place} {s t : State} (h : Ready p s t) : t.eip = s.eip := by
  rw [h.only]; rfl

theorem Ready.reg {p : Place} {s t : State} (h : Ready p s t) (r : Reg32) : t.reg r = s.reg r :=
  congrArg (Regs.get · r) h.regs

section
variable {rm : Rm32} {s : State} {a x : Word}

/-- DIV: the error, or the quotient in EAX and the remainder in EDX (43_mul_div R313). -/
theorem exec_divRm32_ready (h : placeReady (Rm32.place rm) s) (ha : a = s.reg .eax)
    (hx : x = placeValue (Rm32.place rm) s) :
    ∃ t, Ready (Rm32.place rm) s t ∧ exec (.divRm32 rm) s =
      if x = 0 then .fault (.divideByZero s.eip t)
      else .next { t with regs := (s.regs.set .eax (a / x)).set .edx (a % x) } := by
  obtain ⟨t, ht, hready, -⟩ := readPlace_ready h
  refine ⟨t, hready, ?_⟩
  rw [exec, execDivRm32, ht, Res.bind_ok, ← hx, hready.reg, ← ha, ← hready.eip, ← hready.regs,
    BitVec.udiv_def, BitVec.umod_def]
  dsimp only
  split <;> rfl

/-- IDIV: one of the two errors, or the quotient in EAX and the remainder in EDX (43_mul_div R314). -/
theorem exec_idivRm32_ready (h : placeReady (Rm32.place rm) s) {q : Int} (ha : a = s.reg .eax)
    (hx : x = placeValue (Rm32.place rm) s) (hq : q = idivQuotient s.params a.toInt x.toInt) :
    ∃ t, Ready (Rm32.place rm) s t ∧ exec (.idivRm32 rm) s =
      if x = 0 then .fault (.divideByZero s.eip t)
      else if fitsSigned32 q then .next { t with
        regs := (s.regs.set .eax (BitVec.ofInt 32 q)).set .edx
          (BitVec.ofInt 32 (a.toInt - q * x.toInt)) }
      else .fault (.divideOverflow s.eip t) := by
  obtain ⟨t, ht, hready, -⟩ := readPlace_ready h
  refine ⟨t, hready, ?_⟩
  rw [exec, execIdivRm32, ht, Res.bind_ok, ← hx, hready.reg, ← ha, hq, ← hready.params, ← hready.eip,
    ← hready.regs]
  dsimp only
  split
  · rfl
  · split <;> rfl

end

/-- Settles O44: the two words are the quotient and the remainder of the two numbers. -/
theorem divideResults : Obligations.DivideResults := fun rm s hd hx => by
  obtain ⟨t, hready, hexec⟩ := exec_divRm32_ready hd rfl rfl
  rw [if_neg hx] at hexec
  refine ⟨_, hexec, hready.kept_regs (fun _ => get_setEaxEdx _ _ _) _, hready.flags, ?_, ?_⟩
  · show (s.reg .eax / placeValue (Rm32.place rm) s).toNat * _ +
      (s.reg .eax % placeValue (Rm32.place rm) s).toNat = _
    rw [BitVec.toNat_udiv, BitVec.toNat_umod, Nat.div_add_mod']
  · exact BitVec.umod_lt _ ((BitVec.pos_iff_ne_zero _).2 hx)

/-- Settles O45: the quotient and the remainder are in the signed range, so the words hold them. -/
theorem signedDivideResults : Obligations.SignedDivideResults := fun rm s hd hx hover => by
  obtain ⟨t, hready, hexec⟩ := exec_idivRm32_ready hd rfl rfl rfl
  have hfits := fitsSigned32_idivQuotient s.params hx hover
  have hne : (placeValue (Rm32.place rm) s).toInt ≠ 0 := BitVec.toInt_ne.2 hx
  have hr := abs_sub_idivQuotient_lt s.params (s.reg .eax).toInt hne
  rw [if_neg hx, if_pos hfits] at hexec
  exact ⟨_, _, _, _, _, hexec, hready.kept_regs (fun _ => get_setEaxEdx _ _ _) _, hready.flags, rfl, rfl,
    (toInt_ofInt_of_fits hfits).symm, (toInt_ofInt_of_fits (fitsSigned32_of_abs_lt _ hr)).symm,
    (add_sub_cancel _ _).symm, hr, sub_idivQuotient_mul_dividend,
    fun hfloor => sub_idivQuotient_mul_divisor hfloor hne⟩

/-- Settles O46: the operand is only read, and the test of the divisor comes before that of the quotient. -/
theorem divideErrorsRaise : Obligations.DivideErrorsRaise := fun i rm s hd => by
  obtain ⟨t, hready, hdiv⟩ := exec_divRm32_ready hd rfl rfl
  obtain ⟨u, hready', hidiv⟩ := exec_idivRm32_ready hd rfl rfl rfl
  refine ⟨?_, ?_⟩
  · rintro (rfl | rfl) hx
    · exact ⟨t, hdiv.trans (if_pos hx), hready.only, hready.kept⟩
    · exact ⟨u, hidiv.trans (if_pos hx), hready'.only, hready'.kept⟩
  · rintro rfl ha hx
    rw [ha, hx, if_neg (by decide), not_fitsSigned32_idivQuotient, if_neg Bool.false_ne_true] at hidiv
    exact ⟨u, hidiv, hready'.only, hready'.kept⟩

end Sys2Proof.Machine
end

section
/-! Settles the jumps, and the return that goes back to its call (44_control R330, R348 to R352, R356,
70_reset R455). -/

namespace Sys2Proof.Machine

/-! ## Jumps (44_control R330, R348 to R350, R356) -/

/-- The target of a rel8 as a number: EIP0 plus the signed displacement, which wraps. -/
theorem jumpRel8_eq (rel : Byte) (s : State) :
    jumpRel8 rel s = { s with eip := BitVec.ofInt 32 (s.eip.toNat + rel.toInt) } := by
  have htarget : s.eip + rel.signExtend 32 = BitVec.ofInt 32 (s.eip.toNat + rel.toInt) := by
    rw [BitVec.ofInt_add, BitVec.ofInt_natCast, BitVec.ofNat_toNat, BitVec.setWidth_eq]
    rfl
  rw [jumpRel8, htarget]
  rfl

/-- Settles O47: the shape of the conditional jumps, taken and not taken. -/
theorem shortConditionalJumps : Obligations.ShortConditionalJumps := fun i c rel s h => by
  rw [exec_jccForm h]
  cases c with
  | true => exact congrArg Host.Outcome.next (jumpRel8_eq rel s)
  | false => rfl

/-- JL target32 tests the condition of JL rel8 and goes to an absolute target (44_control R348). -/
theorem exec_jlTarget32 (target : Word) (s : State) : exec (.jlTarget32 target) s =
    .next { s with eip := if s.flags.sf ≠ s.flags.of then target else s.eip } := by
  rw [exec, execJlTarget32, Cond.holds]
  by_cases h : s.flags.sf = s.flags.of
  · rw [if_neg (by simp [h]), if_neg (not_not.2 h)]
  · rw [if_pos (by simp [h]), if_pos h]
    rfl

/-- Settles O48: the unconditional jumps by their targets, and JL by its condition. -/
theorem jumps : Obligations.Jumps := fun rel target s =>
  ⟨congrArg Host.Outcome.next (jumpRel8_eq rel s), rfl, exec_jlTarget32 target s⟩

/-! ## The return to the call (44_control R351, R352, 70_reset R455) -/

/-- ESP lowered by `d` and raised by it again, with the other registers kept, gives the registers back. -/
theorem regs_eq_of_esp_restored {s t u : State} {d : Word} (hst : RegsKept [.esp] s t)
    (ht : t.reg .esp = s.reg .esp - d) (htu : RegsKept [.esp] t u) (hu : u.reg .esp = t.reg .esp + d) :
    u.regs = s.regs := Regs.ext_get fun r => by
  by_cases hr : r = .esp
  · subst hr
    calc u.reg .esp = s.reg .esp - d + d := by rw [hu, ht]
      _ = s.reg .esp := BitVec.sub_add_cancel _ _
  · have hr' : r ∉ [Reg32.esp] := by simpa using hr
    exact (htu r hr').trans (hst r hr')

/-- CALL leaves its own address where a RET finds it (44_control R351). -/
theorem exec_call_then_loaded {target : Word} {s t : State} (hacc : Accessible (s.reg .esp - 4) .dword s)
    (ht : exec (.callTarget32 target) s = .next t) :
    Accessible (t.reg .esp) .dword t ∧ loadedValue (t.reg .esp) .dword t = s.eip := by
  obtain ⟨t', hpush, -, hacct, hval⟩ := push_then_loaded s.eip hacc
  rw [exec, execCallTarget32, hpush, Res.bind_ok, Res.outcome_ok] at ht
  cases ht
  exact ⟨hacct, hval⟩

/-- Settles O51: RET pops the address CALL pushed, and raises ESP by what CALL lowered it. -/
theorem returnGoesBackToTheCall : Obligations.ReturnGoesBackToTheCall := fun target s hacc => by
  obtain ⟨t, ht, ht_only, ht_regs, ht_esp, -⟩ := callPushesItsOwnAddress target s hacc
  obtain ⟨hacct, hval⟩ := exec_call_then_loaded hacc ht
  obtain ⟨u, hu, hu_only, hu_regs, hu_esp, -⟩ := returnPopsEip t hacct
  refine ⟨t, u, ht, hu, ?_, regs_eq_of_esp_restored ht_regs ht_esp hu_regs hu_esp, ?_⟩
  · rw [hu_only]
    exact hval
  · rw [hu_only, ht_only]

end Sys2Proof.Machine
end

section
/-! Settles the system, flag-control and counter instructions (45_system R370 to R379). -/

namespace Sys2Proof.Machine

/-! ## The clock (45_system R377) -/

/-- The high and the low word of 64 bits, as EDX:EAX holds them, are the number. -/
theorem toNat_highWord_lowWord (x : BitVec 64) :
    (x.extractLsb' 32 32).toNat * 2 ^ 32 + (x.extractLsb' 0 32).toNat = x.toNat := by
  have hhigh : (x.extractLsb' 32 32).toNat = x.toNat / 2 ^ 32 := by
    rw [BitVec.extractLsb'_toNat, Nat.shiftRight_eq_div_pow, Nat.mod_eq_of_lt (by omega)]
  have hlow : (x.extractLsb' 0 32).toNat = x.toNat % 2 ^ 32 := by
    rw [BitVec.extractLsb'_toNat, Nat.shiftRight_zero]
  rw [hhigh, hlow, Nat.div_add_mod']

/-- Settles O54: EDX and EAX hold the two words of one draw of the clock, which is not below the last. -/
theorem timeStampNeverFalls : Obligations.TimeStampNeverFalls := fun s => by
  refine ⟨_, rfl, rfl, fun r hr => get_setEaxEdx _ _ _ hr, ?_, clockLast_le_clockDraw s⟩
  rw [State.reg_setReg_self, State.reg_setReg_other _ _ (by decide), State.reg_setReg_self]
  exact toNat_highWord_lowWord (clockDraw s)

/-! ## The random draws (45_system R378, R379) -/

/-- A draw decides no address, so the bytes a write stores are the same after it. -/
theorem storedBytes_afterRandDraw (p : Place) (s : State) :
    storedBytes p (afterRandDraw s) = storedBytes p s := by
  cases p with
  | mem w m => cases m <;> rfl
  | reg8 r => rfl
  | reg32 r => rfl

/-- What a draw into a place that is ready does: the write starts after the draw, and then come the six
flags. -/
theorem drawInto_ready {dst : Place} {s : State} (h : placeReady dst s) :
    ∃ t, drawInto dst s = .ok () (t.setFlags { s.flags with
        cf := true, of := false, sf := false, zf := false, af := false, pf := false }) ∧
      Wrote dst (randDraw s) (afterRandDraw s) t := by
  obtain ⟨t, ht, hwrote, -⟩ := writePlace_ready (placeReady_afterRandDraw.2 h) (randDraw s)
  exact ⟨t, by rw [drawInto, ht, Res.bind_ok, hwrote.flags, afterRandDraw_flags], hwrote⟩

/-- Settles O55: the shape of the two draws, whose frame is that of the write. -/
theorem randomDraws : Obligations.RandomDraws := fun i rm s hi hd => by
  have hform : drawForm i = some rm := by rcases hi with rfl | rfl <;> rfl
  obtain ⟨t, ht, hwrote⟩ := drawInto_ready hd
  refine ⟨_, (exec_drawForm hform s).trans (congrArg Res.outcome ht), ?_, ?_, hwrote.regs,
    hwrote.protectedPages, ?_, ?_, rfl⟩
  · rw [hwrote.only]; rfl
  · rw [← storedBytes_afterRandDraw]
    exact hwrote.mem.congr rfl rfl rfl
  · rw [placeValue_setFlags, hwrote.value32, randDraw]
  · rw [hwrote.only]; rfl

/-! ## NOP, HLT, INT and the control flags (45_system R370 to R376) -/

/-- Settles O52: each of the three is one update of the state, by the definition of its meaning. -/
theorem nopHltInt : Obligations.NopHltInt := fun _ _ => ⟨rfl, rfl, rfl⟩

/-- Settles O53: each of the four is one update of the state, by the definition of its meaning. -/
theorem flagControl : Obligations.FlagControl := fun _ => ⟨rfl, rfl, rfl, rfl⟩

end Sys2Proof.Machine
end

section
/-! Settles when a run until a breakpoint stops (60_exceptions R430, R431): the recursion of
`runUntilBreakpoint` and that of the core's bounded run, compared one step at a time. -/

namespace Sys2Proof.Machine

/-- The test `runUntilBreakpoint` makes before every step (60_exceptions R431). -/
def StopsHere (s : State) : Prop := s.halted = true ∨ s.eip ∈ s.breakpoints

/-- The core runs `k` steps from `s` to `t`, which passes the test, and no state before it does. -/
def FirstStopAfter (k : Nat) (s t : State) : Prop :=
  Host.Core.run Sys2Proof.core k s = Host.Outcome.next t ∧ StopsHere t ∧
    ∀ j, j < k → ∀ u : State, Host.Core.run Sys2Proof.core j s = Host.Outcome.next u → ¬ StopsHere u

/-! ## The core's bounded run -/

section
variable {M : Host.Core} {k : Nat} {s t : M.State}

theorem core_run_zero_eq_next : M.run 0 s = .next t ↔ s = t := by
  rw [Host.Core.run, Host.Outcome.next.injEq]

/-- A run of one step more takes that step first. -/
theorem core_run_succ_eq_next :
    M.run (k + 1) s = .next t ↔ ∃ s', M.step s = .next s' ∧ M.run k s' = .next t := by
  rw [Host.Core.run]
  cases M.step s with
  | next s' => simp
  | fault f => simp
  | refused r => simp

end

/-! ## The first stop, by the number of steps -/

theorem firstStopAfter_zero {s t : State} : FirstStopAfter 0 s t ↔ StopsHere s ∧ s = t := by
  constructor
  · rintro ⟨hrun, hstop, -⟩
    obtain rfl := core_run_zero_eq_next.1 hrun
    exact ⟨hstop, rfl⟩
  · rintro ⟨hstop, rfl⟩
    exact ⟨core_run_zero_eq_next.2 rfl, hstop, fun j hj => absurd hj j.not_lt_zero⟩

theorem firstStopAfter_succ {k : Nat} {s t : State} :
    FirstStopAfter (k + 1) s t ↔ ¬ StopsHere s ∧ ∃ s', step s = .next s' ∧ FirstStopAfter k s' t := by
  constructor
  · rintro ⟨hrun, hstop, hbefore⟩
    obtain ⟨s', hst, hrun'⟩ := core_run_succ_eq_next.1 hrun
    refine ⟨hbefore 0 k.succ_pos s (core_run_zero_eq_next.2 rfl), s', hst, hrun', hstop, fun j hj u hu => ?_⟩
    exact hbefore (j + 1) (Nat.succ_lt_succ hj) u (core_run_succ_eq_next.2 ⟨s', hst, hu⟩)
  · rintro ⟨hs, s', hst, hrun, hstop, hbefore⟩
    refine ⟨core_run_succ_eq_next.2 ⟨s', hst, hrun⟩, hstop, fun j hj u hu => ?_⟩
    cases j with
    | zero => exact core_run_zero_eq_next.1 hu ▸ hs
    | succ j =>
      obtain ⟨s'', hst', hu'⟩ := core_run_succ_eq_next.1 hu
      obtain rfl := Host.Outcome.next.inj (hst.symm.trans hst')
      exact hbefore j (Nat.lt_of_succ_lt_succ hj) u hu'

/-! ## The run until a breakpoint -/

theorem runUntilBreakpoint_zero_eq_stopped {s t : State} :
    runUntilBreakpoint 0 s = .stopped t ↔ StopsHere s ∧ s = t := by
  rw [runUntilBreakpoint, StopsHere]
  split
  next hs => simp [hs]
  next hs => simp [hs]

theorem runUntilBreakpoint_succ_eq_stopped {n : Nat} {s t : State} :
    runUntilBreakpoint (n + 1) s = .stopped t ↔
      (StopsHere s ∧ s = t) ∨
        (¬ StopsHere s ∧ ∃ s', step s = .next s' ∧ runUntilBreakpoint n s' = .stopped t) := by
  rw [runUntilBreakpoint, StopsHere]
  split
  next hs => simp [hs]
  next hs =>
    cases step s with
    | next s' => simp [hs]
    | fault f => simp [hs]
    | refused r => simp [hs]

/-- A bounded run stops exactly in the first stop that the core reaches within the bound. -/
theorem runUntilBreakpoint_eq_stopped_iff {n : Nat} {s t : State} :
    runUntilBreakpoint n s = .stopped t ↔ ∃ k, k ≤ n ∧ FirstStopAfter k s t := by
  induction n generalizing s with
  | zero => simp [runUntilBreakpoint_zero_eq_stopped, firstStopAfter_zero]
  | succ n ih =>
    rw [runUntilBreakpoint_succ_eq_stopped]
    constructor
    · rintro (hstop | ⟨hs, s', hst, hrun⟩)
      · exact ⟨0, Nat.zero_le _, firstStopAfter_zero.2 hstop⟩
      · obtain ⟨k, hk, hfirst⟩ := ih.1 hrun
        exact ⟨k + 1, Nat.succ_le_succ hk, firstStopAfter_succ.2 ⟨hs, s', hst, hfirst⟩⟩
    · rintro ⟨k, hk, hfirst⟩
      cases k with
      | zero => exact .inl (firstStopAfter_zero.1 hfirst)
      | succ k =>
        obtain ⟨hs, s', hst, hfirst'⟩ := firstStopAfter_succ.1 hfirst
        exact .inr ⟨hs, s', hst, ih.2 ⟨k, Nat.le_of_succ_le_succ hk, hfirst'⟩⟩

/-- Settles O59, by induction on the bound: both recursions take the same step from a state that does not
stop the run. -/
theorem runStopsAtTheFirstBreakpoint : Obligations.RunStopsAtTheFirstBreakpoint :=
  fun _ _ _ => runUntilBreakpoint_eq_stopped_iff

end Sys2Proof.Machine
end
